-- ==== Sys2Proof/Word.lean ====
section
/-! DEFINITION. The words of a message: bytes, 32-bit data objects and the 16-bit header (R12, R90). -/

namespace Sys2Proof

/-- A byte of a buffer or of a serialized message. -/
abbrev Byte := BitVec 8

/-- A data object: 32 bits (R8, DATA_WORD_BITS). -/
abbrev Word := BitVec 32

/-- The message header, and equally the extended header: 16 bits (R8, HDR_BITS, EXT_HDR_BITS). -/
abbrev Half := BitVec 16

end Sys2Proof
end

