-- ==== Sys2Proof/Config.lean ====
section
/-! DEFINITION. The parameters of R8: the fixed ones as constants, the OPEN ones as a record that the state carries
unchanged (R9, R53), so that a claim can be made for every value of them. -/

namespace Sys2Proof

/-- The bit layout of the extended header, an OPEN parameter (R8, R95, conflict C1). -/
inductive ExtHdrLayout where
  /-- The document's field order, from bit 0 upward. -/
  | doc
  /-- The USB PD r3.0 layout. -/
  | pd30
deriving DecidableEq, Repr

/-- MAX_CHUNK_BYTES (R8, R97, conflict C2). -/
def maxChunkBytes : Nat := 26

/-- MAX_DATA_OBJECTS (R8). -/
def maxDataObjects : Nat := 7

/-- The largest value of the 9-bit extended data size (R8, DATA_SIZE_BITS). -/
def maxDataSize : Nat := 511

/-- Revision codes of R34 and R91; code 3 is reserved. -/
def rev10 : BitVec 2 := 0
def rev20 : BitVec 2 := 1
def rev30 : BitVec 2 := 2
def revReserved : BitVec 2 := 3

/-- The OPEN parameters of R8 for one port. N_PORTS is the length of the list of Machine/Ports.lean. -/
structure Params where
  /-- MAX_EXT_MSG_BYTES: capacity of the reassembly buffer and of the send buffer. -/
  maxExtMsgBytes : Nat
  /-- CTRL_SOFT_RESET: control-message type code of Soft Reset. -/
  ctrlSoftReset : BitVec 5
  /-- CTRL_PING: control-message type code of Ping. -/
  ctrlPing : BitVec 5
  /-- REV_DEFAULT: the revision restored by Hard Reset and at reset. -/
  revDefault : BitVec 2
  /-- CHUNKING[p]: whether the port operates chunked extended messages. -/
  chunking : Bool
  /-- EXT_HDR_LAYOUT. -/
  extHdrLayout : ExtHdrLayout
deriving DecidableEq, Repr

/-- The defaults of R8. Four of them are general knowledge, not the document's (log 11). -/
def Params.default : Params where
  maxExtMsgBytes := 260
  ctrlSoftReset := 0x0D
  ctrlPing := 0x05
  revDefault := rev30
  chunking := true
  extHdrLayout := .doc

/-- `min(511, MAX_EXT_MSG_BYTES)`, the bound of R36 and R272 on an extended message's length. -/
def Params.maxSendLen (p : Params) : Nat := min maxDataSize p.maxExtMsgBytes

/-- A legal choice of the OPEN parameters: REV_DEFAULT is one of the three revisions (R8, R34). -/
abbrev Params.WellFormed (p : Params) : Prop := p.revDefault ≠ revReserved

end Sys2Proof
end

