-- ==== Sys2Proof/Syntax.lean ====
section
/-! DEFINITION. Names, messages and the one inductive of instructions: a constructor for each row of
spec/opcode_table.json (R100 and R95 for the message classes, R104 for the events). -/

namespace Sys2Proof

/-- The six addressing variants in the order of R31, index 0 to 5: SOP, SOP', SOP'', SOP_Debug, SOP'_Debug,
SOP''_Debug. -/
inductive Sop where
  | plain | prime | doublePrime | debug | primeDebug | doublePrimeDebug
deriving DecidableEq, Repr

/-- Port power role (R47). -/
inductive PowerRole where
  | sink | source
deriving DecidableEq, Repr

/-- Port data role (R47). -/
inductive DataRole where
  | ufp | dfp
deriving DecidableEq, Repr

/-- The collaborator-visible level of the CC line for collision avoidance (R47, R48). -/
inductive SinkTx where
  | ok | ng
deriving DecidableEq, Repr

/-- The six timers (R52). -/
inductive TimerId where
  | txResponse | srcCa | hrComplete | chunkResponse | chunkRequest | wakeCeiling
deriving DecidableEq, Repr

/-- A message as the transport delivers it and PRL-RX latches it (R18, R39, R49). The list holds the data words
the message carries; in a consistent message there are as many as its header's data-object count (R54). -/
structure Msg where
  sop : Sop
  hdr : Half
  words : List Word
deriving DecidableEq, Repr

/-- The instructions: the eight message classes of R100, the three layout-dependent ones once for each layout of
R95 as the table lists them, and the 24 events of R104. -/
inductive Instr where
  /-- MALFORMED_EXT, R122. -/
  | malformedExt (m : Msg)
  /-- SOFT_RESET, R123. -/
  | softReset (m : Msg)
  /-- PING, R128. -/
  | ping (m : Msg)
  /-- CONTROL, R129. -/
  | control (m : Msg)
  /-- DATA, R129. -/
  | data (m : Msg)
  /-- EXT_CHUNK_REQUEST under layout DOC, R129, R229. -/
  | extChunkRequest (m : Msg)
  /-- EXT_CHUNK under layout DOC, R129, R194. -/
  | extChunk (m : Msg)
  /-- EXT_UNCHUNKED under layout DOC, R129, R193. -/
  | extUnchunked (m : Msg)
  /-- EXT_CHUNK_REQUEST under layout PD30, R129, R229. -/
  | extChunkRequestPd30 (m : Msg)
  /-- EXT_CHUNK under layout PD30, R129, R194. -/
  | extChunkPd30 (m : Msg)
  /-- EXT_UNCHUNKED under layout PD30, R129, R193. -/
  | extUnchunkedPd30 (m : Msg)
  /-- PE.send_ctrl_message, code 0x01, R270. -/
  | peSendCtrlMessage (sop : Sop) (typ : BitVec 5)
  /-- PE.send_data_message, code 0x02, R271. `ndo` is the operand as given; R271 allows 1 to 7. -/
  | peSendDataMessage (sop : Sop) (typ : BitVec 5) (ndo : Nat) (words : List Word)
  /-- PE.send_extended_message, code 0x03, R272. `len` is the operand as given. -/
  | peSendExtendedMessage (sop : Sop) (typ : BitVec 5) (len : Nat) (bytes : List Byte)
  /-- PE.execute_hard_reset, code 0x04, R273. -/
  | peExecuteHardReset
  /-- PE.hard_reset_complete, code 0x05, R274. -/
  | peHardResetComplete
  /-- PE.set_revision, code 0x06, R275. -/
  | peSetRevision (sop : Sop) (rev : BitVec 2)
  /-- PE.reset_message_ids, code 0x07, R276. -/
  | peResetMessageIds (sop : Sop)
  /-- PE.abort, code 0x08, R277. -/
  | peAbort
  /-- TP.rx, code 0x10, R278. -/
  | tpRx (m : Msg)
  /-- TP.tx_complete_ok, code 0x11, R279. -/
  | tpTxCompleteOk
  /-- TP.tx_complete_fail, code 0x12, R280. -/
  | tpTxCompleteFail
  /-- TP.hard_reset_received, code 0x13, R281. -/
  | tpHardResetReceived
  /-- TP.hard_reset_sent, code 0x14, R282. -/
  | tpHardResetSent
  /-- TIMER.expire(T_TX_RESPONSE), code 0x20, R283. -/
  | timerExpireTxResponse
  /-- TIMER.expire(T_SRC_CA), code 0x21, R283. -/
  | timerExpireSrcCa
  /-- TIMER.expire(T_HR_COMPLETE), code 0x22, R283. -/
  | timerExpireHrComplete
  /-- TIMER.expire(T_CHUNK_RESPONSE), code 0x23, R283. -/
  | timerExpireChunkResponse
  /-- TIMER.expire(T_CHUNK_REQUEST), code 0x24, R283. -/
  | timerExpireChunkRequest
  /-- TIMER.expire(T_WAKE_CEILING), code 0x25, R283, R258. -/
  | timerExpireWakeCeiling
  /-- TC.set_power_role, code 0x30, R284. -/
  | tcSetPowerRole (r : PowerRole)
  /-- TC.set_data_role, code 0x31, R285. -/
  | tcSetDataRole (r : DataRole)
  /-- TC.set_frs, code 0x32, R286. -/
  | tcSetFrs (b : Bool)
  /-- TC.set_cc_sink_tx, code 0x33, R287. -/
  | tcSetCcSinkTx (v : SinkTx)
  /-- WAKE, code 0x40, R288. -/
  | wake
deriving DecidableEq, Repr

/-- Why the decoder rejects the bytes of an event. -/
inductive DecodeError where
  /-- There is no byte to read. -/
  | noBytes
  /-- The first byte is no event code of R104's table. -/
  | invalidEventCode (code : Byte)
  /-- The bytes end before the last operand. -/
  | truncatedOperands
  /-- A SOP operand above 5 (R31). -/
  | sopOutOfRange (b : Byte)
  /-- A message type of more than 5 bits (R270). -/
  | typeOutOfRange (b : Byte)
  /-- A revision of more than 2 bits (R34). -/
  | revisionOutOfRange (b : Byte)
  /-- A role, Boolean or CC level operand other than 0 and 1. -/
  | choiceOutOfRange (b : Byte)
  /-- Non-zero bytes after the last operand. -/
  | trailingBytes
deriving DecidableEq, Repr

end Sys2Proof
end

