-- ==== Sys2Proof/Machine/Header.lean ====
section
/-! DEFINITION. The two bit-exact formats: the 16-bit message header (R91 to R93) and the 16-bit extended header
(R94 to R96), the byte order of a message (R71), and the classification of received messages (R100). -/

namespace Sys2Proof.Machine

/-! ### Message header (R91, R92) -/

/-- `type`, bits 4:0. -/
def hdrType (h : Half) : BitVec 5 := h.extractLsb' 0 5
/-- `dr`, bit 5: 1 is DFP. -/
def hdrDr (h : Half) : Bool := h.getLsbD 5
/-- `rev`, bits 7:6. -/
def hdrRev (h : Half) : BitVec 2 := h.extractLsb' 6 2
/-- `pr`, bit 8: 1 is Source. -/
def hdrPr (h : Half) : Bool := h.getLsbD 8
/-- `id`, bits 11:9. -/
def hdrId (h : Half) : BitVec 3 := h.extractLsb' 9 3
/-- `ndo`, bits 14:12. -/
def hdrNdo (h : Half) : BitVec 3 := h.extractLsb' 12 3
/-- `ext`, bit 15. -/
def hdrExt (h : Half) : Bool := h.getLsbD 15

/-- `make_hdr` (R93): the fields from the highest bit down. -/
def makeHdr (ext : Bool) (ndo id : BitVec 3) (pr : Bool) (rev : BitVec 2) (dr : Bool) (typ : BitVec 5) : Half :=
  BitVec.ofBool ext ++ ndo ++ id ++ BitVec.ofBool pr ++ rev ++ BitVec.ofBool dr ++ typ

/-! ### Byte order (R71) -/

/-- The low and the high byte of a 16-bit value, in that order. -/
def halfBytes (h : Half) : List Byte := [h.extractLsb' 0 8, h.extractLsb' 8 8]

/-- A 16-bit value from its low and high byte. -/
def halfOfBytes (b0 b1 : Byte) : Half := b1 ++ b0

/-- The four bytes of a data word, little-endian. -/
def wordBytes (w : Word) : List Byte :=
  [w.extractLsb' 0 8, w.extractLsb' 8 8, w.extractLsb' 16 8, w.extractLsb' 24 8]

/-- A data word from its four bytes, little-endian. -/
def wordOfBytes (b0 b1 b2 b3 : Byte) : Word := b3 ++ b2 ++ b1 ++ b0

/-- The data area `D` of a message: its words' bytes, words in ascending order. -/
def dataArea : List Word → List Byte
  | [] => []
  | w :: ws => wordBytes w ++ dataArea ws

/-- Data words from a data area; bytes missing from the last word are 0 (R98). -/
def wordsOfArea : List Byte → List Word
  | [] => []
  | [b0] => [wordOfBytes b0 0 0 0]
  | [b0, b1] => [wordOfBytes b0 b1 0 0]
  | [b0, b1, b2] => [wordOfBytes b0 b1 b2 0]
  | b0 :: b1 :: b2 :: b3 :: rest => wordOfBytes b0 b1 b2 b3 :: wordsOfArea rest

/-! ### Extended header (R94 to R96) -/

/-- The fields of an extended header (R94). -/
structure XHdr where
  dataSize : BitVec 9
  chunked : Bool
  requestChunk : Bool
  chunkNumber : BitVec 4
deriving DecidableEq, Repr

/-- `xh_decode` (R96). Bit 9 is ignored. -/
def xhDecode (l : ExtHdrLayout) (x : Half) : XHdr :=
  match l with
  | .doc => ⟨x.extractLsb' 0 9, x.getLsbD 10, x.getLsbD 11, x.extractLsb' 12 4⟩
  | .pd30 => ⟨x.extractLsb' 0 9, x.getLsbD 15, x.getLsbD 10, x.extractLsb' 11 4⟩

/-- `xh_encode` (R96): the low 9 bits of `size`, the low 4 bits of `n`, and 0 in bit 9. -/
def xhEncode (l : ExtHdrLayout) (size : Nat) (chunked req : Bool) (n : Nat) : Half :=
  match l with
  | .doc => BitVec.ofNat 4 n ++ BitVec.ofBool req ++ BitVec.ofBool chunked ++ 0#1 ++ BitVec.ofNat 9 size
  | .pd30 => BitVec.ofBool chunked ++ BitVec.ofNat 4 n ++ BitVec.ofBool req ++ 0#1 ++ BitVec.ofNat 9 size

/-- `m.xh`: the low half of the first data word (R18, R94). -/
def msgXh (m : Msg) : Half := (m.words.headD 0).extractLsb' 0 16

/-- The decoded extended header of a message under the port's layout. -/
def msgXHdr (p : Params) (m : Msg) : XHdr := xhDecode p.extHdrLayout (msgXh m)

/-- `ndo` of a message as a number. -/
def msgNdo (m : Msg) : Nat := (hdrNdo m.hdr).toNat

/-- The payload length agrees with the header's data-object count (R54, R278). -/
abbrev msgConsistent (m : Msg) : Prop := m.words.length = msgNdo m

/-- The extended payload of a message: data bytes 2 upward (R71). -/
def msgPayload (m : Msg) : List Byte := (dataArea m.words).drop 2

/-! ### Chunk geometry (R97, R98) -/

/-- Data-object count of an extended message with `len` payload bytes: `ceil((2 + len) / 4)` (R98). -/
def ndoOfLen (len : Nat) : Nat := (2 + len + 3) / 4

/-- `pack(xh, bytes)` (R222): the extended header, the payload, and zero padding of the last word. -/
def packExt (xh : Half) (bytes : List Byte) : List Word := wordsOfArea (halfBytes xh ++ bytes)

/-! ### Message classes (R100) -/

/-- The eight classes of R100. -/
inductive MsgClass where
  | malformedExt | softReset | ping | control | data | extChunkRequest | extChunk | extUnchunked
deriving DecidableEq, Repr

/-- `classify(m)` (R100): first match wins. -/
def classify (p : Params) (m : Msg) : MsgClass :=
  if hdrExt m.hdr then
    if hdrNdo m.hdr = 0 then .malformedExt
    else if (msgXHdr p m).requestChunk then .extChunkRequest
    else if (msgXHdr p m).chunked then .extChunk
    else .extUnchunked
  else
    if hdrNdo m.hdr = 0 then
      if hdrType m.hdr = p.ctrlSoftReset then .softReset
      else if hdrType m.hdr = p.ctrlPing then .ping
      else .control
    else .data

/-- A chunk or a chunk request (R101). -/
def isChunkProtocol (p : Params) (m : Msg) : Bool :=
  match classify p m with
  | .extChunk => true
  | .extChunkRequest => true
  | .malformedExt => false
  | .softReset => false
  | .ping => false
  | .control => false
  | .data => false
  | .extUnchunked => false

end Sys2Proof.Machine
end

