-- ==== Sys2Proof/WellFormed.lean ====
section
/-! DEFINITION. Which instructions are well formed under the port's parameters: a class instruction carries a
consistent message of its class (R54, R100), an event's operands are in the ranges of R270 to R287. -/

namespace Sys2Proof

open Sys2Proof.Machine in
/-- A message of class `c` under layout `l`, with as many words as its header says. -/
abbrev Msg.IsClass (p : Params) (l : Option ExtHdrLayout) (c : MsgClass) (m : Msg) : Prop :=
  msgConsistent m ∧ classify p m = c ∧ (l = none ∨ l = some p.extHdrLayout)

open Sys2Proof.Machine in
/-- Well-formed instructions. A row of the table for one extended-header layout is an instruction of a port of
that layout only (R95, R103). -/
abbrev Instr.WellFormed (p : Params) (i : Instr) : Prop :=
  match i with
  | .malformedExt m => m.IsClass p none .malformedExt
  | .softReset m => m.IsClass p none .softReset
  | .ping m => m.IsClass p none .ping
  | .control m => m.IsClass p none .control
  | .data m => m.IsClass p none .data
  | .extChunkRequest m => m.IsClass p (some .doc) .extChunkRequest
  | .extChunk m => m.IsClass p (some .doc) .extChunk
  | .extUnchunked m => m.IsClass p (some .doc) .extUnchunked
  | .extChunkRequestPd30 m => m.IsClass p (some .pd30) .extChunkRequest
  | .extChunkPd30 m => m.IsClass p (some .pd30) .extChunk
  | .extUnchunkedPd30 m => m.IsClass p (some .pd30) .extUnchunked
  | .peSendCtrlMessage _ _ => True
  | .peSendDataMessage _ _ ndo words => 1 ≤ ndo ∧ ndo ≤ maxDataObjects ∧ words.length = ndo
  | .peSendExtendedMessage _ _ len bytes => len ≤ p.maxSendLen ∧ bytes.length = len
  | .peExecuteHardReset => True
  | .peHardResetComplete => True
  | .peSetRevision _ rev => rev ≠ revReserved
  | .peResetMessageIds _ => True
  | .peAbort => True
  | .tpRx m => msgConsistent m
  | .tpTxCompleteOk => True
  | .tpTxCompleteFail => True
  | .tpHardResetReceived => True
  | .tpHardResetSent => True
  | .timerExpireTxResponse => True
  | .timerExpireSrcCa => True
  | .timerExpireHrComplete => True
  | .timerExpireChunkResponse => True
  | .timerExpireChunkRequest => True
  | .timerExpireWakeCeiling => True
  | .tcSetPowerRole _ => True
  | .tcSetDataRole _ => True
  | .tcSetFrs _ => True
  | .tcSetCcSinkTx _ => True
  | .wake => True

end Sys2Proof
end

