-- ==== Sys2Proof/Decode.lean ====
section
/-! DEFINITION. The decoder and, after it, the encoder. An event is its 8-bit code of R104 followed by operand
bytes (the operand layout is this model's, log 3); a message is its two header bytes and its data area (R71, R90),
beside the addressing variant the transport delivers it on. -/

namespace Sys2Proof

open Sys2Proof.Machine

/-- What the machine fetches: an event's bytes, or a received message's bytes with its addressing variant. -/
inductive Code where
  | event (bytes : List Byte)
  | message (sop : Sop) (bytes : List Byte)
deriving DecidableEq, Repr

/-! ### Operands: each reader gives the value and the bytes after it -/

def readByte : List Byte → Except DecodeError (Byte × List Byte)
  | [] => .error .truncatedOperands
  | b :: rest => .ok (b, rest)

/-- The SOP index of R31. -/
def sopOfByte (b : Byte) : Except DecodeError Sop :=
  match b.toNat with
  | 0 => .ok .plain
  | 1 => .ok .prime
  | 2 => .ok .doublePrime
  | 3 => .ok .debug
  | 4 => .ok .primeDebug
  | 5 => .ok .doublePrimeDebug
  | _ => .error (.sopOutOfRange b)

def readSop (bs : List Byte) : Except DecodeError (Sop × List Byte) := do
  let (b, rest) ← readByte bs
  let s ← sopOfByte b
  .ok (s, rest)

/-- A 5-bit message type in a byte of its own. -/
def readType (bs : List Byte) : Except DecodeError (BitVec 5 × List Byte) := do
  let (b, rest) ← readByte bs
  if b.toNat < 32 then .ok (b.setWidth 5, rest) else .error (.typeOutOfRange b)

/-- A 2-bit revision code in a byte of its own; the reserved code 3 is read, and refused by the event (R275). -/
def readRev (bs : List Byte) : Except DecodeError (BitVec 2 × List Byte) := do
  let (b, rest) ← readByte bs
  if b.toNat < 4 then .ok (b.setWidth 2, rest) else .error (.revisionOutOfRange b)

/-- An operand of two choices, coded 0 and 1. -/
def readChoice {α : Type} (zero one : α) (bs : List Byte) : Except DecodeError (α × List Byte) := do
  let (b, rest) ← readByte bs
  match b.toNat with
  | 0 => .ok (zero, rest)
  | 1 => .ok (one, rest)
  | _ => .error (.choiceOutOfRange b)

/-- A 16-bit value, low byte first (R71). -/
def readHalf (bs : List Byte) : Except DecodeError (Half × List Byte) := do
  let (b0, rest) ← readByte bs
  let (b1, rest) ← readByte rest
  .ok (halfOfBytes b0 b1, rest)

/-- A data word, low byte first (R71). -/
def readWord (bs : List Byte) : Except DecodeError (Word × List Byte) := do
  let (b0, rest) ← readByte bs
  let (b1, rest) ← readByte rest
  let (b2, rest) ← readByte rest
  let (b3, rest) ← readByte rest
  .ok (wordOfBytes b0 b1 b2 b3, rest)

def readWords : Nat → List Byte → Except DecodeError (List Word × List Byte)
  | 0, bs => .ok ([], bs)
  | n + 1, bs => do
    let (w, rest) ← readWord bs
    let (ws, rest) ← readWords n rest
    .ok (w :: ws, rest)

def readBytes : Nat → List Byte → Except DecodeError (List Byte × List Byte)
  | 0, bs => .ok ([], bs)
  | n + 1, bs => do
    let (b, rest) ← readByte bs
    let (cs, rest) ← readBytes n rest
    .ok (b :: cs, rest)

/-! ### Messages -/

/-- A received message as the instruction of its class (R100), under the port's layout (R95). -/
def decodeMsg (p : Params) (m : Msg) : Instr :=
  match classify p m, p.extHdrLayout with
  | .malformedExt, _ => .malformedExt m
  | .softReset, _ => .softReset m
  | .ping, _ => .ping m
  | .control, _ => .control m
  | .data, _ => .data m
  | .extChunkRequest, .doc => .extChunkRequest m
  | .extChunk, .doc => .extChunk m
  | .extUnchunked, .doc => .extUnchunked m
  | .extChunkRequest, .pd30 => .extChunkRequestPd30 m
  | .extChunk, .pd30 => .extChunkPd30 m
  | .extUnchunked, .pd30 => .extUnchunkedPd30 m

/-- A message from its bytes: the header's count tells its length (R90). -/
def readMsg (sop : Sop) (bs : List Byte) : Except DecodeError (Msg × List Byte) := do
  let (h, rest) ← readHalf bs
  let (ws, rest) ← readWords (hdrNdo h).toNat rest
  .ok (⟨sop, h, ws⟩, rest)

/-! ### Events -/

/-- `TP.rx` as an operand: the header, a count byte and that many words; the count need not be the header's,
since R278 refuses a message whose payload length differs. -/
def readRx (sop : Sop) (bs : List Byte) : Except DecodeError (Msg × List Byte) := do
  let (h, rest) ← readHalf bs
  let (c, rest) ← readByte rest
  let (ws, rest) ← readWords c.toNat rest
  .ok (⟨sop, h, ws⟩, rest)

/-- The event table of R104. Every other code is refused by name. -/
def decodeEvent : List Byte → Except DecodeError (Instr × List Byte)
  | [] => .error .noBytes
  | code :: ops =>
    match code.toNat with
    | 0x01 => do
      let (s, rest) ← readSop ops
      let (t, rest) ← readType rest
      .ok (.peSendCtrlMessage s t, rest)
    | 0x02 => do
      let (s, rest) ← readSop ops
      let (t, rest) ← readType rest
      let (c, rest) ← readByte rest
      let (ws, rest) ← readWords ((c.toNat + 1) % 256) rest
      .ok (.peSendDataMessage s t ((c.toNat + 1) % 256) ws, rest)
    | 0x03 => do
      let (s, rest) ← readSop ops
      let (t, rest) ← readType rest
      let (n, rest) ← readHalf rest
      let (bs, rest) ← readBytes n.toNat rest
      .ok (.peSendExtendedMessage s t n.toNat bs, rest)
    | 0x04 => .ok (.peExecuteHardReset, ops)
    | 0x05 => .ok (.peHardResetComplete, ops)
    | 0x06 => do
      let (s, rest) ← readSop ops
      let (r, rest) ← readRev rest
      .ok (.peSetRevision s r, rest)
    | 0x07 => do
      let (s, rest) ← readSop ops
      .ok (.peResetMessageIds s, rest)
    | 0x08 => .ok (.peAbort, ops)
    | 0x10 => do
      let (s, rest) ← readSop ops
      let (m, rest) ← readRx s rest
      .ok (.tpRx m, rest)
    | 0x11 => .ok (.tpTxCompleteOk, ops)
    | 0x12 => .ok (.tpTxCompleteFail, ops)
    | 0x13 => .ok (.tpHardResetReceived, ops)
    | 0x14 => .ok (.tpHardResetSent, ops)
    | 0x20 => .ok (.timerExpireTxResponse, ops)
    | 0x21 => .ok (.timerExpireSrcCa, ops)
    | 0x22 => .ok (.timerExpireHrComplete, ops)
    | 0x23 => .ok (.timerExpireChunkResponse, ops)
    | 0x24 => .ok (.timerExpireChunkRequest, ops)
    | 0x25 => .ok (.timerExpireWakeCeiling, ops)
    | 0x30 => do
      let (r, rest) ← readChoice PowerRole.sink PowerRole.source ops
      .ok (.tcSetPowerRole r, rest)
    | 0x31 => do
      let (r, rest) ← readChoice DataRole.ufp DataRole.dfp ops
      .ok (.tcSetDataRole r, rest)
    | 0x32 => do
      let (b, rest) ← readChoice false true ops
      .ok (.tcSetFrs b, rest)
    | 0x33 => do
      let (v, rest) ← readChoice SinkTx.ok SinkTx.ng ops
      .ok (.tcSetCcSinkTx v, rest)
    | 0x40 => .ok (.wake, ops)
    | _ => .error (.invalidEventCode code)

/-- The decoder: total, and a rejection has a name. The second component is the bytes after the instruction. -/
def decode (p : Params) : Code → Except DecodeError (Instr × List Byte)
  | .event bytes => decodeEvent bytes
  | .message sop bytes => do
    let (m, rest) ← readMsg sop bytes
    .ok (decodeMsg p m, rest)

/-- An event that is alone in its bytes: after its last operand only zero bytes may stand. -/
def decodeLoneEvent (bytes : List Byte) : Except DecodeError Instr := do
  let (i, rest) ← decodeEvent bytes
  if rest.all (· == 0) then .ok i else .error .trailingBytes

/-! ### Encoder -/

/-- The SOP index of R31. -/
def sopByte : Sop → Byte
  | .plain => 0
  | .prime => 1
  | .doublePrime => 2
  | .debug => 3
  | .primeDebug => 4
  | .doublePrimeDebug => 5

/-- A message's bytes: header, then data area (R71). -/
def msgBytes (m : Msg) : List Byte := halfBytes m.hdr ++ dataArea m.words

def powerRoleByte : PowerRole → Byte
  | .sink => 0
  | .source => 1

def dataRoleByte : DataRole → Byte
  | .ufp => 0
  | .dfp => 1

def boolByte : Bool → Byte
  | false => 0
  | true => 1

def sinkTxByte : SinkTx → Byte
  | .ok => 0
  | .ng => 1

/-- The encoder, from the same tables. -/
def encode : Instr → Code
  | .malformedExt m => .message m.sop (msgBytes m)
  | .softReset m => .message m.sop (msgBytes m)
  | .ping m => .message m.sop (msgBytes m)
  | .control m => .message m.sop (msgBytes m)
  | .data m => .message m.sop (msgBytes m)
  | .extChunkRequest m => .message m.sop (msgBytes m)
  | .extChunk m => .message m.sop (msgBytes m)
  | .extUnchunked m => .message m.sop (msgBytes m)
  | .extChunkRequestPd30 m => .message m.sop (msgBytes m)
  | .extChunkPd30 m => .message m.sop (msgBytes m)
  | .extUnchunkedPd30 m => .message m.sop (msgBytes m)
  | .peSendCtrlMessage s t => .event [0x01, sopByte s, t.setWidth 8]
  | .peSendDataMessage s t ndo ws =>
    .event ([0x02, sopByte s, t.setWidth 8, BitVec.ofNat 8 (ndo + 255)] ++ dataArea ws)
  | .peSendExtendedMessage s t len bs =>
    .event ([0x03, sopByte s, t.setWidth 8] ++ halfBytes (BitVec.ofNat 16 len) ++ bs)
  | .peExecuteHardReset => .event [0x04]
  | .peHardResetComplete => .event [0x05]
  | .peSetRevision s r => .event [0x06, sopByte s, r.setWidth 8]
  | .peResetMessageIds s => .event [0x07, sopByte s]
  | .peAbort => .event [0x08]
  | .tpRx m =>
    .event ([0x10, sopByte m.sop] ++ halfBytes m.hdr ++ [BitVec.ofNat 8 m.words.length] ++ dataArea m.words)
  | .tpTxCompleteOk => .event [0x11]
  | .tpTxCompleteFail => .event [0x12]
  | .tpHardResetReceived => .event [0x13]
  | .tpHardResetSent => .event [0x14]
  | .timerExpireTxResponse => .event [0x20]
  | .timerExpireSrcCa => .event [0x21]
  | .timerExpireHrComplete => .event [0x22]
  | .timerExpireChunkResponse => .event [0x23]
  | .timerExpireChunkRequest => .event [0x24]
  | .timerExpireWakeCeiling => .event [0x25]
  | .tcSetPowerRole r => .event [0x30, powerRoleByte r]
  | .tcSetDataRole r => .event [0x31, dataRoleByte r]
  | .tcSetFrs b => .event [0x32, boolByte b]
  | .tcSetCcSinkTx v => .event [0x33, sinkTxByte v]
  | .wake => .event [0x40]

/-! ### The opcode table's numbering -/

/-- The `n` low bytes of a number, lowest first. -/
def bytesOfNat : Nat → Nat → List Byte
  | 0, _ => []
  | n + 1, w => BitVec.ofNat 8 w :: bytesOfNat n (w / 256)

/-- Length of the longest event whose operand bytes are all 0: PE.send_data_message with one word of 0. A row of 8 bits
gives the code alone, so no longer event is read from it. -/
def longestZeroEvent : Nat := 8

/-- Length of the longest message: a header and seven data words (R90). -/
def longestMessage : Nat := 30

/-- A row of the opcode table as the machine fetches it: rows of 8 bits are events, wider ones class words, which
are the first 32 bits of a message on SOP whose other words are 0 (R103, log 4). -/
def tableCode (nbits w : Nat) : Code :=
  if nbits ≤ 8 then .event (bytesOfNat longestZeroEvent w) else .message .plain (bytesOfNat longestMessage w)

/-- The instruction the decoder reads from a word of the opcode table, under the default parameters of R8 (layout
DOC). -/
def decodeTableWord (nbits w : Nat) : Option Instr :=
  match tableCode nbits w with
  | .event bytes => (decodeLoneEvent bytes).toOption
  | .message sop bytes => (decode Params.default (.message sop bytes)).toOption.map Prod.fst

end Sys2Proof
end

