-- ==== Sys2Proof/Machine/Memory.lean ====
section
/-! DEFINITION. The two byte buffers (R35, R36, R70): a list of (index, byte) cells in one canonical form, with
`BufRead` and `BufWrite` of R16. -/

namespace Sys2Proof.Machine

/-- A byte buffer: cells with strictly rising indices, none equal to what an unlisted index reads as. -/
abbrev Memory := List Host.Cell

/-- What an unlisted index reads as. The contents before the first write are unspecified (R35, R331); DESIGN
CHOICE 0 (log 10). -/
def Memory.unlisted : Byte := 0

/-- The byte at an index. -/
def Memory.read : Memory → Nat → Byte
  | [], _ => Memory.unlisted
  | (a, b) :: rest, x => if x = a then b else Memory.read rest x

/-- Write one byte, keeping the canonical form. -/
def Memory.write : Memory → Nat → Byte → Memory
  | [], x, v => if v = Memory.unlisted then [] else [(x, v)]
  | (a, b) :: rest, x, v =>
    if x < a then (if v = Memory.unlisted then (a, b) :: rest else (x, v) :: (a, b) :: rest)
    else if x = a then (if v = Memory.unlisted then rest else (a, v) :: rest)
    else (a, b) :: Memory.write rest x v

/-- `BufRead(buf, off, n)` (R16). -/
def Memory.bufRead (m : Memory) (off : Nat) : Nat → List Byte
  | 0 => []
  | n + 1 => m.read off :: Memory.bufRead m (off + 1) n

/-- `BufWrite(buf, off, n, bytes)` (R16), `n` being the number of bytes given. -/
def Memory.bufWrite (m : Memory) (off : Nat) : List Byte → Memory
  | [] => m
  | b :: bs => Memory.bufWrite (m.write off b) (off + 1) bs

/-- Canonical form above a lower bound. -/
def Memory.wfFrom : Nat → Memory → Bool
  | _, [] => true
  | lo, (a, b) :: rest => decide (lo ≤ a) && decide (b ≠ Memory.unlisted) && Memory.wfFrom (a + 1) rest

/-- The canonical form: indices strictly rising, no cell equal to what an unlisted index reads as. -/
def Memory.wf (m : Memory) : Bool := Memory.wfFrom 0 m

/-- Every listed index lies below the buffer's capacity (R76). -/
def Memory.below (cap : Nat) (m : Memory) : Bool := m.all fun c => decide (c.1 < cap)

end Sys2Proof.Machine
end

