-- ==== Sys2Proof/Machine/State.lean ====
section
/-! DEFINITION. The port context of R30 as plain data, with the environment-side state of R49 to R51, the reset of
R330, and the reasons a step can stop. -/

namespace Sys2Proof.Machine

/-- An array indexed by the SOP index (R31). -/
structure PerSop (α : Type) where
  plain : α
  prime : α
  doublePrime : α
  debug : α
  primeDebug : α
  doublePrimeDebug : α
deriving DecidableEq, Repr

/-- The same value for every variant. -/
abbrev PerSop.fill {α : Type} (a : α) : PerSop α := ⟨a, a, a, a, a, a⟩

/-- Error kinds (R301). -/
inductive ErrKind where
  | txFailed | chunkSequence | chunkTimeout | rchOverflow | tchUnexpected | chunkMismatch
deriving DecidableEq, Repr

/-- What `PE.message_received` hands up (R128, R129, R205, D44). -/
inductive Passed where
  /-- A whole message. -/
  | whole (m : Msg)
  /-- A Ping: `{sop, hdr, len = 0}`. -/
  | empty (sop : Sop) (hdr : Half)
  /-- A reassembled extended message: `{sop, hdr of chunk 0, len, bytes}`. -/
  | reassembled (sop : Sop) (hdr : Half) (len : Nat) (bytes : List Byte)
deriving DecidableEq, Repr

/-- The outputs of R15. -/
inductive Emit where
  | peMessageReceived (b : Passed)
  | peMessageSent
  | peReportDiscard
  | peReportError (kind : ErrKind) (sop : Sop)
  | peGotSoftReset
  | peGotHardReset
  | peHardResetSent
  | tpTransmit (sop : Sop) (hdr : Half) (words : List Word)
  | tpTransmitHardReset
  | tpSetRxEnable (b : Bool)
  | tpSetRp (v : SinkTx)
  | tpDequeueMessage
deriving DecidableEq, Repr

/-- Kind of a PE request (R37). -/
inductive ReqKind where
  | ctrl | data | ext
deriving DecidableEq, Repr

/-- The PE request latch `P.pe_req` (R37). -/
structure PeReq where
  kind : ReqKind
  sop : Sop
  typ : BitVec 5
  ndo : Nat
  words : List Word
  bytes : List Byte
  len : Nat
deriving DecidableEq, Repr

/-- The transmit slot `P.tx_slot` (R38). -/
structure TxSlot where
  sop : Sop
  typ : BitVec 5
  ndo : BitVec 3
  ext : Bool
  words : List Word
deriving DecidableEq, Repr

/-- The component whose message PRL-TX sends (R20, R38). -/
inductive Client where
  | tch | rch
deriving DecidableEq, Repr

/-- A timer (R52). -/
structure Timer where
  armed : Bool
  expired : Bool
deriving DecidableEq, Repr

/-- The six timers of the port (R52). -/
structure Timers where
  txResponse : Timer
  srcCa : Timer
  hrComplete : Timer
  chunkResponse : Timer
  chunkRequest : Timer
  wakeCeiling : Timer
deriving DecidableEq, Repr

/-- States of PRL-TX (R41). -/
inductive PrlTxState where
  | phyReset | waitForMessageRequest | layerResetForTransmit | srcCollisionAvoidance | snkCollisionAvoidance
  | waitForPhyResponse | discardMessage
deriving DecidableEq, Repr

/-- PRL-TX: state and flags (R41). -/
structure PrlTx where
  state : PrlTxState
  txRequest : Bool
  txCompleteOk : Bool
  txCompleteFail : Bool
deriving DecidableEq, Repr

/-- States of PRL-HR (R42). -/
inductive PrlHrState where
  | waitForRequest | resetLayer | waitForPhyHardResetComplete | waitForPeHardResetComplete
deriving DecidableEq, Repr

/-- PRL-HR: state and flags (R42). -/
structure PrlHr where
  state : PrlHrState
  peHardReset : Bool
  portPartnerHardReset : Bool
  phyHardResetDone : Bool
  peHardResetDone : Bool
deriving DecidableEq, Repr

/-- States of RCH (R43). -/
inductive RchState where
  | waitForMessage | processingExtendedMessage | requestingChunk | waitingChunk | passUpMessage | reportError
deriving DecidableEq, Repr

/-- RCH: state and flags (R43). -/
structure Rch where
  state : RchState
  msgReceived : Bool
  txDone : Bool
  txError : Bool
  txDiscarded : Bool
  abort : Bool
  passInterrupting : Bool
deriving DecidableEq, Repr

/-- States of TCH (R44). -/
inductive TchState where
  | waitForRequestFromPe | constructChunkedMessage | waitForTransmissionComplete | sendingChunkedMessage
  | waitChunkRequest | messageSent | reportError | messageReceived
deriving DecidableEq, Repr

/-- TCH: state and flags (R44). -/
structure Tch where
  state : TchState
  msgRequest : Bool
  msgReceived : Bool
  txDone : Bool
  txError : Bool
  txDiscarded : Bool
  abort : Bool
deriving DecidableEq, Repr

/-- The sub-steps of a tick in the order of R251; `start` leaves the blocking wait and tests PRL-HR (R253). -/
inductive SubStep where
  | start | prlRx | rch1 | tch1 | prlTx | rch2 | tch2 | prlHr
deriving DecidableEq, Repr

/-- The control point of the task loop: the blocking wait, or a tick whose next sub-step is given (R250, R256). -/
inductive Loop where
  | waiting
  | tick (next : SubStep)
deriving DecidableEq, Repr

/-- An environment event still to come (log 2): its bytes, and after how many sub-steps of a tick in progress it
falls. While the loop waits it falls at once. -/
structure Input where
  after : Nat
  bytes : List Byte
deriving DecidableEq, Repr

/-- The port context (R30), the transport side (R49, R50), the trace (R51), the loop's control point, the
parameters (log 1) and the environment's events to come (log 2). -/
structure State where
  /-- Parameters of R8, written by nothing (R53). -/
  params : Params
  /-- The task loop (R250). -/
  loop : Loop
  /-- The environment's events to come (log 2). -/
  inputs : List Input
  /-- `P.tx_counter` (R32). -/
  txCounter : PerSop (BitVec 3)
  /-- `P.rx_record`, `none` being NONE (R33). -/
  rxRecord : PerSop (Option (BitVec 3))
  /-- `P.rev` (R34). -/
  rev : PerSop (BitVec 2)
  /-- Reassembly buffer and its bookkeeping (R35). -/
  rxBuf : Memory
  bytesReceived : Nat
  nextExpectedChunk : Nat
  rxTotal : Nat
  rxSop : Sop
  rxHdr : Half
  /-- Send buffer and its cursor (R36). -/
  txBuf : Memory
  sendLen : Nat
  sendOffset : Nat
  nextChunkToSend : Nat
  sendChunkLen : Nat
  sendSop : Sop
  sendType : BitVec 5
  /-- PE request latch (R37). -/
  peReq : PeReq
  /-- Transmit slot and client (R38). -/
  txSlot : TxSlot
  txClient : Client
  /-- The variant of the last transmission handed over: the `s` that the entry of WaitForPhyResponse binds and its run
  uses (R150). A field of the model, DESIGN CHOICE (log 17). -/
  txSop : Sop
  /-- The variant of a transmission that the transport has confirmed and that PRL-RX forced PRL-TX off before PRL-TX
  stepped: it is not discarded (R339, D55), and PRL-TX's next step counts it. A field of the model, DESIGN CHOICE
  (log 19). -/
  txOwed : Option Sop
  /-- Received-message latches (R39). -/
  rchMsg : Msg
  tchMsg : Msg
  /-- The machines (R41 to R44). -/
  prlTx : PrlTx
  prlHr : PrlHr
  rch : Rch
  tch : Tch
  /-- Data of RCH and TCH (R43, R44). -/
  rchErr : ErrKind
  rchOut : Passed
  rchCur : Msg
  tchErr : ErrKind
  /-- Type-C inputs (R47). -/
  powerRole : PowerRole
  dataRole : DataRole
  frsActive : Bool
  ccSinkTx : SinkTx
  /-- Port outputs held as state (R48). -/
  rpValue : SinkTx
  rxEnabled : Bool
  /-- Transport receive queue `TP.rxq` (R49). -/
  rxq : List Msg
  /-- `TP.tx_outstanding` (R50). -/
  txOutstanding : Nat
  /-- Timers (R52). -/
  timers : Timers
  /-- Output trace, oldest first (R51). -/
  trace : List Emit
deriving DecidableEq, Repr

/-- Why the machine stops with a fault: the two assertions whose treatment 93_implementation_defined Part 1 gives as
"fault". Both are safe: the machine stops where the condition holds. -/
inductive Fault where
  /-- Raised by RCH entering RequestingChunk while `tx_pending` holds (R198). The spec calls the condition
  unreachable; a run with `PE.abort` reaches it (log 14). Safe. -/
  | rchSubmitWhileTxPending
  /-- Raised by TCH forwarding a message while RCH's latch is full (R233). No state that meets `Inv` raises it. Safe. -/
  | forwardWhileRchLatchFull
deriving DecidableEq, Repr

/-- Why the machine refuses: each reason but the first is an event that is not enabled, which "a model refuses"
(46_external_events, 93 Part 1). All are safe: the run ends where the environment breaks its duty. -/
inductive Refusal where
  /-- Raised by `exec` for an instruction without a meaning yet. Safe. -/
  | notModelled (mnemonic : String)
  /-- Raised by `step` for bytes that are no event: an invalid code, or bad operands (R104). Safe. -/
  | undecodable (e : DecodeError)
  /-- Raised by the three PE sends when `pe_send_enabled` is false (R289). Safe. -/
  | peSendNotEnabled
  /-- Raised by PE.send_data_message for `ndo` outside 1..7 or a different number of words (R271). Safe. -/
  | dataObjectCount
  /-- Raised by PE.send_extended_message for `len` above min(511, MAX_EXT_MSG_BYTES) or a different number of
  bytes (R272). Safe. -/
  | extendedLength
  /-- Raised by PE.hard_reset_complete outside WaitForPeHardResetComplete (R274). Safe. -/
  | hardResetNotAwaitingPe
  /-- Raised by PE.set_revision for the reserved code 3 (R275). Safe. -/
  | reservedRevision
  /-- Raised by PE.set_revision and PE.reset_message_ids during a Hard Reset (R275, R276). Safe. -/
  | hardResetInProgress
  /-- Raised by TP.rx while receive is disabled (R278). Safe. -/
  | receiveDisabled
  /-- Raised by TP.rx when the payload length is not the header's count (R278). Safe. -/
  | payloadLength
  /-- Raised by the completion events when no transmission is outstanding (R279, R280, R282). Safe. -/
  | noTransmissionOutstanding
  /-- Raised by TIMER.expire for a timer that is not armed (R283). Safe. -/
  | timerNotArmed
  /-- Raised by TIMER.expire for a timer that has already expired (R283). Safe. -/
  | timerAlreadyExpired
  /-- Raised by WAKE when the loop is not waiting (R288). Safe. -/
  | loopNotWaiting
  /-- Raised by the product machine for a port index outside 0..N_PORTS-1 (R70). Safe. -/
  | noSuchPort
deriving DecidableEq, Repr

/-- The outcome of an instruction, a sub-step or a step. -/
abbrev Result := Host.Outcome State Fault Refusal

/-- The Type-C inputs at launch (R47, R331). -/
structure Launch where
  powerRole : PowerRole
  dataRole : DataRole
  frsActive : Bool
  ccSinkTx : SinkTx
deriving DecidableEq, Repr

/-- The port defaults of 95_test_vectors section 0. DESIGN CHOICE (log 6). -/
def Launch.default : Launch := ⟨.sink, .ufp, false, .ok⟩

/-- A disarmed timer (R52). -/
abbrev Timer.off : Timer := ⟨false, false⟩

/-- An armed timer that has not expired (R52). -/
abbrev Timer.on : Timer := ⟨true, false⟩

/-- The contents of a message latch at reset, unspecified in R331. DESIGN CHOICE (log 5). -/
abbrev Msg.blank : Msg := ⟨.plain, 0, []⟩

/-- The port after the reset procedure of R330, for any parameters and launch inputs: the values of R55, and the
loop in its first wait with T_WAKE_CEILING armed (log 7). -/
def State.boot (p : Params) (l : Launch) : State where
  params := p
  loop := .waiting
  inputs := []
  txCounter := PerSop.fill 0
  rxRecord := PerSop.fill none
  rev := PerSop.fill p.revDefault
  rxBuf := []
  bytesReceived := 0
  nextExpectedChunk := 0
  rxTotal := 0
  rxSop := .plain
  rxHdr := 0
  txBuf := []
  sendLen := 0
  sendOffset := 0
  nextChunkToSend := 0
  sendChunkLen := 0
  sendSop := .plain
  sendType := 0
  peReq := ⟨.ctrl, .plain, 0, 0, [], [], 0⟩
  txSlot := ⟨.plain, 0, 0, false, []⟩
  txClient := .tch
  txSop := .plain
  txOwed := none
  rchMsg := Msg.blank
  tchMsg := Msg.blank
  prlTx := ⟨.phyReset, false, false, false⟩
  prlHr := ⟨.waitForRequest, false, false, false, false⟩
  rch := ⟨.waitForMessage, false, false, false, false, false, false⟩
  tch := ⟨.waitForRequestFromPe, false, false, false, false, false, false⟩
  rchErr := .txFailed
  rchOut := .whole Msg.blank
  rchCur := Msg.blank
  tchErr := .txFailed
  powerRole := l.powerRole
  dataRole := l.dataRole
  frsActive := l.frsActive
  ccSinkTx := l.ccSinkTx
  rpValue := .ok
  rxEnabled := true
  rxq := []
  txOutstanding := 0
  timers := ⟨Timer.off, Timer.off, Timer.off, Timer.off, Timer.off, Timer.on⟩
  trace := []

/-- The machine right after reset, with the default parameters and launch inputs. -/
def State.reset : State := State.boot Params.default Launch.default

end Sys2Proof.Machine
end

