-- ==== Sys2Proof/Machine/Flags.lean ====
section
/-! DEFINITION. Every condition computed from flags and states: the pending-send predicates of R124, collision
avoidance of R145, the send precondition of R289, PRL-RX's back-pressure of R120, and the bulk clears of flags. -/

namespace Sys2Proof.Machine

/-! ### Per-variant arrays (R31) -/

def PerSop.get {α : Type} (a : PerSop α) : Sop → α
  | .plain => a.plain
  | .prime => a.prime
  | .doublePrime => a.doublePrime
  | .debug => a.debug
  | .primeDebug => a.primeDebug
  | .doublePrimeDebug => a.doublePrimeDebug

def PerSop.set {α : Type} (a : PerSop α) (s : Sop) (v : α) : PerSop α :=
  match s with
  | .plain => { a with plain := v }
  | .prime => { a with prime := v }
  | .doublePrime => { a with doublePrime := v }
  | .debug => { a with debug := v }
  | .primeDebug => { a with primeDebug := v }
  | .doublePrimeDebug => { a with doublePrimeDebug := v }

/-! ### Clearing flags -/

/-- `clear TX_REQUEST, TX_COMPLETE_OK, TX_COMPLETE_FAIL` (R142, R150, R155, R160, R172). -/
def PrlTx.clearFlags (t : PrlTx) : PrlTx := { t with txRequest := false, txCompleteOk := false, txCompleteFail := false }

/-- `clear TX_COMPLETE_OK; clear TX_COMPLETE_FAIL` (R143, R144). -/
def PrlTx.clearCompletions (t : PrlTx) : PrlTx := { t with txCompleteOk := false, txCompleteFail := false }

/-- The four flags of PRL-HR (R171). -/
def PrlHr.clearFlags (h : PrlHr) : PrlHr :=
  { h with peHardReset := false, portPartnerHardReset := false, phyHardResetDone := false, peHardResetDone := false }

/-- Every flag of RCH (R172, R210). -/
def Rch.clearFlags (r : Rch) : Rch :=
  { r with msgReceived := false, txDone := false, txError := false, txDiscarded := false, abort := false,
           passInterrupting := false }

/-- `clear ABORT; clear TX_DONE; clear TX_ERROR; clear TX_DISCARDED` of RCH (R193 run). -/
def Rch.clearStale (r : Rch) : Rch :=
  { r with abort := false, txDone := false, txError := false, txDiscarded := false }

/-- Every flag of TCH (R172, R240). -/
def Tch.clearFlags (t : Tch) : Tch :=
  { t with msgRequest := false, msgReceived := false, txDone := false, txError := false, txDiscarded := false,
           abort := false }

/-- `clear TX_DONE; clear TX_ERROR; clear TX_DISCARDED` of TCH (R233). -/
def Tch.clearOutcomes (t : Tch) : Tch := { t with txDone := false, txError := false, txDiscarded := false }

/-- The stale flags of TCH's idle state: outcomes and `ABORT` (R221). -/
def Tch.clearStale (t : Tch) : Tch :=
  { t with abort := false, txDone := false, txError := false, txDiscarded := false }

/-! ### Predicates -/

/-- `tx_pending(P)` (R124). `TX_REQUEST` alone makes it true, also over a transmission that is confirmed and not yet
counted, which is then not discarded with the request (`keepConfirmation`, log 19). -/
def txPending (s : State) : Bool :=
  s.prlTx.txRequest ||
  match s.prlTx.state with
  | .layerResetForTransmit => true
  | .srcCollisionAvoidance => true
  | .snkCollisionAvoidance => true
  | .waitForPhyResponse => !s.prlTx.txCompleteOk
  | .phyReset => false
  | .waitForMessageRequest => false
  | .discardMessage => false

/-- `send_pending(P)` (R124), as its formula says: true in the states of TCH whose entry has already told the PE the
outcome, where R124's words call no send queued or in flight: DESIGN CHOICE (log 25). -/
def sendPending (s : State) : Bool :=
  s.tch.msgRequest || decide (s.tch.state ≠ .waitForRequestFromPe) || (txPending s && decide (s.txClient = .tch))

/-- `ca_applies(P, s)` (R145). -/
def caApplies (s : State) (v : Sop) : Bool :=
  decide (v = .plain) && decide (s.rev.get .plain = rev30) && decide (s.txClient = .tch) &&
  decide (s.nextChunkToSend = 0)

/-- `pe_send_enabled(P)` (R289). -/
def peSendEnabled (s : State) : Bool :=
  !s.tch.msgRequest &&
  (match s.tch.state with
   | .waitForRequestFromPe => true
   | .messageSent => true
   | .reportError => true
   | .messageReceived => true
   | .constructChunkedMessage => false
   | .waitForTransmissionComplete => false
   | .sendingChunkedMessage => false
   | .waitChunkRequest => false) &&
  decide (s.prlHr.state = .waitForRequest) && !s.prlHr.peHardReset && !s.prlHr.portPartnerHardReset

/-- A message handed to RCH or TCH is still unconsumed: PRL-RX's back-pressure (R120). -/
def latchBusy (s : State) : Bool := s.rch.msgReceived || s.tch.msgReceived

/-- Chunking is engaged on a variant (R129, R222, D10). -/
def chunkingEngaged (s : State) (v : Sop) : Bool := decide (s.rev.get v = rev30)

/-- TCH may take a PE request (R221). -/
def tchMayStart (s : State) : Bool :=
  s.tch.msgRequest && decide (s.rch.state = .waitForMessage) && !s.rch.msgReceived && !txPending s

end Sys2Proof.Machine
end

