-- ==== Sys2Proof/Machine/Operands.lean ====
section
/-! DEFINITION. The forms of data the machines hand to each other: the slot of a PE request (R221, R222, R236), of a
chunk (R223), of RCH's chunk request (R198, R99), the transmitted header (R148) and the bytes one chunk adds to a
reassembly (R195). -/

namespace Sys2Proof.Machine

/-- `whole(m)` (R192): the message with the words its header counts. -/
def whole (m : Msg) : Msg := { m with words := m.words.take (msgNdo m) }

/-- `tx_hdr(P, sl)` (R148). -/
def txHdr (s : State) (sl : TxSlot) : Half :=
  makeHdr sl.ext sl.ndo (s.txCounter.get sl.sop) (decide (s.powerRole = .source)) (s.rev.get sl.sop)
    (decide (s.dataRole = .dfp)) sl.typ

/-- A slot is a Soft Reset message (R144). -/
def TxSlot.isSoftReset (p : Params) (sl : TxSlot) : Bool :=
  !sl.ext && decide (sl.ndo = 0) && decide (sl.typ = p.ctrlSoftReset)

/-- The slot of a control request (R221). -/
def ctrlSlot (r : PeReq) : TxSlot := ⟨r.sop, r.typ, 0, false, []⟩

/-- The slot of a data request (R221). -/
def dataSlot (r : PeReq) : TxSlot := ⟨r.sop, r.typ, BitVec.ofNat 3 r.ndo, false, r.words.take r.ndo⟩

/-- The slot of an extended message: one chunk, or the whole message unchunked (R222, R223), with `len` payload
bytes. -/
def extSlot (p : Params) (v : Sop) (typ : BitVec 5) (total : Nat) (chunked : Bool) (k len : Nat) (payload : List Byte) :
    TxSlot :=
  ⟨v, typ, BitVec.ofNat 3 (ndoOfLen len), true, packExt (xhEncode p.extHdrLayout total chunked false k) payload⟩

/-- The slot of an unchunked extended request (R222, R236). -/
def unchunkedSlot (p : Params) (r : PeReq) : TxSlot :=
  extSlot p r.sop r.typ r.len false 0 r.len (r.bytes.take r.len)

/-- The number of chunks of an extended message of `total` bytes: `max(1, ceil(total / 26))` (R98). -/
def chunkCount (total : Nat) : Nat := max 1 ((total + (maxChunkBytes - 1)) / maxChunkBytes)

/-- Payload bytes of the chunk TCH builds next (R223). -/
def chunkLen (s : State) : Nat := min maxChunkBytes (s.sendLen - s.sendOffset)

/-- The slot of the chunk TCH builds next (R223 to R225). -/
def chunkSlot (s : State) : TxSlot :=
  extSlot s.params s.sendSop s.sendType s.sendLen true s.nextChunkToSend (chunkLen s)
    (s.txBuf.bufRead s.sendOffset (chunkLen s))

/-- The slot of RCH's chunk request (R198, R99): the extended header alone in the low half of one word. -/
def chunkRequestSlot (s : State) : TxSlot :=
  ⟨s.rxSop, hdrType s.rxHdr, 1, true,
    [(xhEncode s.params.extHdrLayout 0 true true s.nextExpectedChunk).setWidth 32]⟩

/-- Bytes taken from one chunk (R195). -/
def chunkTake (rxTotal bytesReceived : Nat) (m : Msg) : Nat :=
  min maxChunkBytes (min (rxTotal - bytesReceived) (4 * msgNdo m - 2))

end Sys2Proof.Machine
end

