-- ==== Sys2Proof/Machine/Ops.lean ====
section
/-! DEFINITION. The operations the machines share: emits (R15), timers (R52), submission and notification (R141),
the entry and exit actions of every state and `goto` (R14), raising an error and returning from it (R300, R306), the
re-arms (R160, R210, R240), and forwarding (R233). -/

namespace Sys2Proof.Machine

/-! ### Outputs (R15, R50, R51) -/

/-- `emit` (R15): appended to the trace. -/
def State.emit (s : State) (e : Emit) : State := { s with trace := s.trace ++ [e] }

/-- `emit TP.transmit` (R150), counted as outstanding (R50). -/
def State.emitTransmit (s : State) (v : Sop) (h : Half) (ws : List Word) : State :=
  { s with txOutstanding := s.txOutstanding + 1, trace := s.trace ++ [.tpTransmit v h ws] }

/-- `emit TP.transmit_hard_reset` (R174), counted as outstanding (R50). -/
def State.emitTransmitHardReset (s : State) : State :=
  { s with txOutstanding := s.txOutstanding + 1, trace := s.trace ++ [.tpTransmitHardReset] }

/-- `P.rp_value <- v; emit TP.set_rp(v)` (R48). -/
def State.setRp (s : State) (v : SinkTx) : State := { s with rpValue := v, trace := s.trace ++ [.tpSetRp v] }

/-- `P.rx_enabled <- b; emit TP.set_rx_enable(b)` (R48). -/
def State.setRxEnable (s : State) (b : Bool) : State :=
  { s with rxEnabled := b, trace := s.trace ++ [.tpSetRxEnable b] }

/-! ### Timers (R52) -/

def Timers.get (t : Timers) : TimerId → Timer
  | .txResponse => t.txResponse
  | .srcCa => t.srcCa
  | .hrComplete => t.hrComplete
  | .chunkResponse => t.chunkResponse
  | .chunkRequest => t.chunkRequest
  | .wakeCeiling => t.wakeCeiling

def Timers.set (t : Timers) (i : TimerId) (v : Timer) : Timers :=
  match i with
  | .txResponse => { t with txResponse := v }
  | .srcCa => { t with srcCa := v }
  | .hrComplete => { t with hrComplete := v }
  | .chunkResponse => { t with chunkResponse := v }
  | .chunkRequest => { t with chunkRequest := v }
  | .wakeCeiling => { t with wakeCeiling := v }

/-- `Timer.arm(t)`. -/
def State.arm (s : State) (i : TimerId) : State := { s with timers := s.timers.set i Timer.on }

/-- `Timer.disarm(t)`. -/
def State.disarm (s : State) (i : TimerId) : State := { s with timers := s.timers.set i Timer.off }

/-- `Timer.expired(t)`. -/
def State.timerExpired (s : State) (i : TimerId) : Bool := (s.timers.get i).expired

/-! ### Submission and notification (R141) -/

/-- `submit(P, client, slot)`. -/
def submit (c : Client) (sl : TxSlot) (s : State) : State :=
  { s with txSlot := sl, txClient := c, prlTx := { s.prlTx with txRequest := true } }

/-- PRL-TX's report to its client (R141). -/
inductive TxOutcome where
  | done | error | discarded
deriving DecidableEq, Repr

/-- `set TCH.X`. -/
def Tch.setOutcome (t : Tch) : TxOutcome → Tch
  | .done => { t with txDone := true }
  | .error => { t with txError := true }
  | .discarded => { t with txDiscarded := true }

/-- `set RCH.X`. -/
def Rch.setOutcome (r : Rch) : TxOutcome → Rch
  | .done => { r with txDone := true }
  | .error => { r with txError := true }
  | .discarded => { r with txDiscarded := true }

/-- `notify(P, X)`. -/
def notify (x : TxOutcome) (s : State) : State :=
  match s.txClient with
  | .tch => { s with tch := s.tch.setOutcome x }
  | .rch => { s with rch := s.rch.setOutcome x }

/-! ### PRL-TX transitions (R142 to R156) -/

/-- Exit actions of PRL-TX's states: the timer the state armed is disarmed (R147, R150). -/
def exitPrlTx (s : State) : State :=
  match s.prlTx.state with
  | .waitForPhyResponse => s.disarm .txResponse
  | .srcCollisionAvoidance => s.disarm .srcCa
  | .phyReset => s
  | .waitForMessageRequest => s
  | .layerResetForTransmit => s
  | .snkCollisionAvoidance => s
  | .discardMessage => s

/-- Restore of Rp (R154). -/
def restoreRp (s : State) : State := if s.rpValue = .ng then s.setRp .ok else s

/-- The message-ID state of one variant as reset leaves it (R123, R146, R276). -/
def resetIds (v : Sop) (s : State) : State :=
  { s with txCounter := s.txCounter.set v 0, rxRecord := s.rxRecord.set v none }

/-- Entry of WaitForPhyResponse (R150). It binds `s`, the variant of the transmission, for the run (log 17). -/
def enterWaitForPhyResponse (s : State) : State :=
  (({ s with prlTx := s.prlTx.clearFlags, txSop := s.txSlot.sop }).emitTransmit s.txSlot.sop (txHdr s s.txSlot)
    (s.txSlot.words.take s.txSlot.ndo.toNat)).arm .txResponse

/-- Entry actions of PRL-TX's states (R142, R143, R146, R147, R149, R150, R155). -/
def enterPrlTx (s : State) : PrlTxState → State
  | .phyReset => { s with prlTx := s.prlTx.clearFlags }
  | .waitForMessageRequest =>
    let s1 := restoreRp s
    { s1 with prlTx := s1.prlTx.clearCompletions }
  | .layerResetForTransmit => resetIds s.txSlot.sop s
  | .srcCollisionAvoidance => (s.setRp .ng).arm .srcCa
  | .snkCollisionAvoidance => s
  | .waitForPhyResponse => enterWaitForPhyResponse s
  | .discardMessage => notify .discarded { s with prlTx := s.prlTx.clearFlags }

/-- The state tag alone. -/
def setPrlTxState (t : PrlTxState) (s : State) : State := { s with prlTx := { s.prlTx with state := t } }

/-- `goto PRLTX t`, and equally `force PRLTX t` (R14). -/
def gotoPrlTx (t : PrlTxState) (s : State) : State := enterPrlTx (setPrlTxState t (exitPrlTx s)) t

/-- A transmission the transport has confirmed and PRL-TX has not yet stepped is not discarded with what PRL-TX is
forced off (R339, D55): its variant is kept for PRL-TX's next step to count. DESIGN CHOICE (log 19): R123 and R155 clear
TX_COMPLETE_OK and do not say where the confirmation goes. -/
def keepConfirmation (s : State) : State :=
  { s with
    txOwed := if s.prlTx.state = .waitForPhyResponse ∧ s.prlTx.txCompleteOk = true then some s.txSop else s.txOwed }

/-! ### PRL-HR transitions (R171 to R175) -/

/-- Exit actions of PRL-HR's states (R174). -/
def exitPrlHr (s : State) : State :=
  match s.prlHr.state with
  | .waitForPhyHardResetComplete => s.disarm .hrComplete
  | .waitForRequest => s
  | .resetLayer => s
  | .waitForPeHardResetComplete => s

/-- Entry of ResetLayer (R172). -/
def enterResetLayer (s : State) : State :=
  ({ s with
      txCounter := PerSop.fill 0
      rxRecord := PerSop.fill none
      rev := PerSop.fill s.params.revDefault
      prlTx := s.prlTx.clearFlags
      rch := s.rch.clearFlags
      tch := s.tch.clearFlags } : State).setRxEnable false

/-- Entry actions of PRL-HR's states (R171, R172, R174, R175). -/
def enterPrlHr (s : State) : PrlHrState → State
  | .waitForRequest => { s with prlHr := s.prlHr.clearFlags }
  | .resetLayer => enterResetLayer s
  | .waitForPhyHardResetComplete => (s.emitTransmitHardReset).arm .hrComplete
  | .waitForPeHardResetComplete => s

def setPrlHrState (t : PrlHrState) (s : State) : State := { s with prlHr := { s.prlHr with state := t } }

/-- `goto PRLHR t` (R14). -/
def gotoPrlHr (t : PrlHrState) (s : State) : State := enterPrlHr (setPrlHrState t (exitPrlHr s)) t

/-! ### RCH transitions (R193 to R207) -/

/-- Exit actions of RCH's states (R201). -/
def exitRch (s : State) : State :=
  match s.rch.state with
  | .waitingChunk => s.disarm .chunkResponse
  | .waitForMessage => s
  | .processingExtendedMessage => s
  | .requestingChunk => s
  | .passUpMessage => s
  | .reportError => s

/-- Entry of RCH's ReportError (R207): an interrupting message first, then the report. -/
def enterRchReportError (s : State) : State :=
  let s1 := if s.rch.passInterrupting then
      ({ s with rch := { s.rch with passInterrupting := false } } : State).emit (.peMessageReceived s.rchOut)
    else s
  s1.emit (.peReportError s1.rchErr s1.rxSop)

/-- Entry actions of RCH's states (R193, R194, R198, R201, R205, R207). -/
def enterRch (s : State) : RchState → State
  | .waitForMessage =>
    { s with
        rch := { s.rch.clearStale with passInterrupting := false }
        bytesReceived := 0
        nextExpectedChunk := 0
        rxTotal := 0 }
  | .processingExtendedMessage => s
  | .requestingChunk => submit .rch (chunkRequestSlot s) s
  | .waitingChunk => s.arm .chunkResponse
  | .passUpMessage => s.emit (.peMessageReceived s.rchOut)
  | .reportError => enterRchReportError s

def setRchState (t : RchState) (s : State) : State := { s with rch := { s.rch with state := t } }

/-- `goto RCH t`, and equally `force RCH t` (R14). -/
def gotoRch (t : RchState) (s : State) : State := enterRch (setRchState t (exitRch s)) t

/-! ### TCH transitions (R221 to R233) -/

/-- Exit actions of TCH's states (R229). -/
def exitTch (s : State) : State :=
  match s.tch.state with
  | .waitChunkRequest => s.disarm .chunkRequest
  | .waitForRequestFromPe => s
  | .constructChunkedMessage => s
  | .waitForTransmissionComplete => s
  | .sendingChunkedMessage => s
  | .messageSent => s
  | .reportError => s
  | .messageReceived => s

/-- `forward(P)` (R233) where RCH's latch is free. -/
def forward (s : State) : State :=
  { s with
      rchMsg := s.tchMsg
      rch := { s.rch with msgReceived := true }
      tch := { s.tch with msgReceived := false } }

/-- Entry actions of TCH's states (R221, R223, R226, R228 to R230, R232, R233). -/
def enterTch (s : State) : TchState → State
  | .waitForRequestFromPe =>
    { s with tch := s.tch.clearStale, sendOffset := 0, nextChunkToSend := 0, sendChunkLen := 0 }
  | .constructChunkedMessage => s
  | .waitForTransmissionComplete => s
  | .sendingChunkedMessage => s
  | .waitChunkRequest => s.arm .chunkRequest
  | .messageSent => s.emit .peMessageSent
  | .reportError => s.emit (.peReportError s.tchErr s.sendSop)
  | .messageReceived => forward (({ s with tch := s.tch.clearOutcomes } : State).emit .peReportDiscard)

def setTchState (t : TchState) (s : State) : State := { s with tch := { s.tch with state := t } }

/-- `goto TCH t`, and equally `force TCH t` (R14). -/
def gotoTch (t : TchState) (s : State) : State := enterTch (setTchState t (exitTch s)) t

/-! ### Errors: raising and returning (R300, R306) -/

/-- The numeric codes of the error kinds (R301). -/
def errCode : ErrKind → Nat
  | .txFailed => 1
  | .chunkSequence => 2
  | .chunkTimeout => 3
  | .rchOverflow => 4
  | .tchUnexpected => 5
  | .chunkMismatch => 6

/-- The machines that raise errors (R300). -/
inductive Raiser where
  | rch | tch
deriving DecidableEq, Repr

/-- `raise Err(kind, sop)` in machine `r` (R300): the kind and the variant are recorded, and the machine goes to
ReportError, whose entry emits the report. -/
def raiseErr (r : Raiser) (kind : ErrKind) (v : Sop) (s : State) : State :=
  match r with
  | .rch => gotoRch .reportError { s with rchErr := kind, rxSop := v }
  | .tch => gotoTch .reportError { s with tchErr := kind, sendSop := v }

/-- The return of a machine to its idle state (R300, R306). -/
def returnToIdle (r : Raiser) (s : State) : State :=
  match r with
  | .rch => gotoRch .waitForMessage s
  | .tch => gotoTch .waitForRequestFromPe s

/-- `interrupt(P, m, kind)` (R192): an ordinary message that ends a reassembly is passed up before the report. -/
def interruptRch (m : Msg) (kind : ErrKind) (s : State) : State :=
  if isChunkProtocol s.params m then raiseErr .rch kind s.rxSop s
  else raiseErr .rch kind s.rxSop { s with rchOut := .whole (whole m), rch := { s.rch with passInterrupting := true } }

/-- `consume(P)` (R192), the state part: RCH's latch is released. -/
def consumeRch (s : State) : State := { s with rch := { s.rch with msgReceived := false } }

/-! ### Re-arms (R160, R210, R240) -/

def rearmPrlTx (s : State) : State := gotoPrlTx .phyReset { s with prlTx := s.prlTx.clearFlags }

def rearmRch (s : State) : State := gotoRch .waitForMessage { s with rch := s.rch.clearFlags }

def rearmTch (s : State) : State :=
  gotoTch .waitForRequestFromPe { s with tch := s.tch.clearFlags, sendLen := 0 }

/-! ### The two assertions (93 Part 1) -/

/-- `forward(P)` with the assertion of R233. -/
def forwardChecked (s : State) : Result :=
  if s.rch.msgReceived then .fault .forwardWhileRchLatchFull else .next (forward s)

/-- `goto TCH MessageReceived` (R231, R233) with the assertion of R233. -/
def preemptTch (s : State) : Result :=
  if s.rch.msgReceived then .fault .forwardWhileRchLatchFull else .next (gotoTch .messageReceived s)

/-- `goto RCH RequestingChunk` with the assertion of R198. -/
def requestChunk (s : State) : Result :=
  if txPending s then .fault .rchSubmitWhileTxPending else .next (gotoRch .requestingChunk s)

end Sys2Proof.Machine
end

