-- ==== Sys2Proof/Machine/Events.lean ====
section
/-! DEFINITION. The meanings of the 24 environment events (R270 to R288). An event whose precondition does not hold
is refused by name and changes nothing (46_external_events, 93 Part 1). -/

namespace Sys2Proof.Machine

/-! ### Policy Engine operations -/

/-- The PE request latch and `TCH.MSG_REQUEST` become visible together (R74). -/
def latchRequest (r : PeReq) (s : State) : State :=
  { s with peReq := r, tch := { s.tch with msgRequest := true } }

/-- PE.send_ctrl_message (R270). R270 gives the record `kind`, `sop`, `type` and `ndo = 0`; that R37's other fields
(`words`, `bytes`, `len`) become empty and 0 is the model's: DESIGN CHOICE (log 20). -/
def execPeSendCtrlMessage (v : Sop) (typ : BitVec 5) (s : State) : Result :=
  if peSendEnabled s then .next (latchRequest ⟨.ctrl, v, typ, 0, [], [], 0⟩ s) else .refused .peSendNotEnabled

/-- PE.send_data_message (R271). R271 names neither `bytes` nor `len`; that they become empty and 0 is the model's:
DESIGN CHOICE (log 20). -/
def execPeSendDataMessage (v : Sop) (typ : BitVec 5) (ndo : Nat) (words : List Word) (s : State) : Result :=
  if 1 ≤ ndo ∧ ndo ≤ maxDataObjects ∧ words.length = ndo then
    if peSendEnabled s then .next (latchRequest ⟨.data, v, typ, ndo, words, [], 0⟩ s) else .refused .peSendNotEnabled
  else .refused .dataObjectCount

/-- PE.send_extended_message (R272). R272 names neither `ndo` nor `words`; that they become 0 and empty is the model's:
DESIGN CHOICE (log 20). -/
def execPeSendExtendedMessage (v : Sop) (typ : BitVec 5) (len : Nat) (bytes : List Byte) (s : State) : Result :=
  if len ≤ s.params.maxSendLen ∧ bytes.length = len then
    if peSendEnabled s then .next (latchRequest ⟨.ext, v, typ, 0, [], bytes, len⟩ s) else .refused .peSendNotEnabled
  else .refused .extendedLength

/-- PE.execute_hard_reset (R273). -/
def execPeExecuteHardReset (s : State) : Result := .next { s with prlHr := { s.prlHr with peHardReset := true } }

/-- PE.hard_reset_complete (R274). -/
def execPeHardResetComplete (s : State) : Result :=
  if s.prlHr.state = .waitForPeHardResetComplete then
    .next { s with prlHr := { s.prlHr with peHardResetDone := true } }
  else .refused .hardResetNotAwaitingPe

/-- PE.set_revision (R275). Its one precondition is that PRL-HR is idle, and R337 forbids it only until then, where R178
derives that the revisions of a Hard Reset stand until the next transmission completes: DESIGN CHOICE (log 23). -/
def execPeSetRevision (v : Sop) (r : BitVec 2) (s : State) : Result :=
  if r = revReserved then .refused .reservedRevision
  else if s.prlHr.state = .waitForRequest then .next { s with rev := s.rev.set v r }
  else .refused .hardResetInProgress

/-- PE.reset_message_ids (R276). A message in flight is not touched, and its confirmation then counts from 0: DESIGN
CHOICE (log 19). -/
def execPeResetMessageIds (v : Sop) (s : State) : Result :=
  if s.prlHr.state = .waitForRequest then .next (resetIds v s) else .refused .hardResetInProgress

/-- PE.abort (R277). -/
def execPeAbort (s : State) : Result :=
  .next { s with rch := { s.rch with abort := true }, tch := { s.tch with abort := true } }

/-! ### Transport events -/

/-- TP.rx (R278). -/
def execTpRx (m : Msg) (s : State) : Result :=
  if msgConsistent m then
    if s.rxEnabled then .next { s with rxq := s.rxq ++ [m] } else .refused .receiveDisabled
  else .refused .payloadLength

/-- A completion is delivered only for an outstanding transmission (R50). Outstanding transmissions are counted without
their kind, as the preconditions of R279, R280 and R282 say; that duty 4 of R289 also pairs `hard_reset_sent` with a Hard
Reset, and the other two with a message, is not enforced: DESIGN CHOICE (log 22). -/
def completion (f : State → State) (s : State) : Result :=
  if 0 < s.txOutstanding then .next (f { s with txOutstanding := s.txOutstanding - 1 })
  else .refused .noTransmissionOutstanding

/-- TP.tx_complete_ok (R279). -/
def execTpTxCompleteOk (s : State) : Result :=
  completion (fun t => { t with prlTx := { t.prlTx with txCompleteOk := true } }) s

/-- TP.tx_complete_fail (R280). -/
def execTpTxCompleteFail (s : State) : Result :=
  completion (fun t => { t with prlTx := { t.prlTx with txCompleteFail := true } }) s

/-- TP.hard_reset_received (R281). -/
def execTpHardResetReceived (s : State) : Result :=
  .next { s with prlHr := { s.prlHr with portPartnerHardReset := true } }

/-- TP.hard_reset_sent (R282). -/
def execTpHardResetSent (s : State) : Result :=
  completion (fun t => { t with prlHr := { t.prlHr with phyHardResetDone := true } }) s

/-! ### Timer expiry (R283, R257) -/

/-- An armed, unexpired timer expires. -/
def expireTimer (i : TimerId) (s : State) : Result :=
  if (s.timers.get i).armed then
    if (s.timers.get i).expired then .refused .timerAlreadyExpired
    else .next { s with timers := s.timers.set i ⟨true, true⟩ }
  else .refused .timerNotArmed

/-- A waiting loop is woken: its next step begins a tick (R250, R258, R288). A loop that is in a tick already stays
there; the tick serves for both where T_WAKE_CEILING expires before its first step: DESIGN CHOICE (log 21). -/
def wakeLoop (s : State) : State :=
  match s.loop with
  | .waiting => { s with loop := .tick .start }
  | .tick _ => s

/-- The state after a successful outcome goes on to `f`. -/
def thenState (r : Result) (f : State → State) : Result :=
  match r with
  | .next s => .next (f s)
  | .fault e => .fault e
  | .refused e => .refused e

/-- TIMER.expire(T_TX_RESPONSE). -/
def execTimerExpireTxResponse (s : State) : Result := expireTimer .txResponse s

/-- TIMER.expire(T_SRC_CA). -/
def execTimerExpireSrcCa (s : State) : Result := expireTimer .srcCa s

/-- TIMER.expire(T_HR_COMPLETE). -/
def execTimerExpireHrComplete (s : State) : Result := expireTimer .hrComplete s

/-- TIMER.expire(T_CHUNK_RESPONSE). -/
def execTimerExpireChunkResponse (s : State) : Result := expireTimer .chunkResponse s

/-- TIMER.expire(T_CHUNK_REQUEST). -/
def execTimerExpireChunkRequest (s : State) : Result := expireTimer .chunkRequest s

/-- TIMER.expire(T_WAKE_CEILING): its expiry is a wake (R258). The timer is still armed between WAKE and the tick's
first step, which disarms it; that it may expire there too, and asks for no second tick, is the model's: DESIGN CHOICE
(log 21). -/
def execTimerExpireWakeCeiling (s : State) : Result := thenState (expireTimer .wakeCeiling s) wakeLoop

/-! ### Type-C inputs -/

/-- TC.set_power_role (R284). -/
def execTcSetPowerRole (r : PowerRole) (s : State) : Result := .next { s with powerRole := r }

/-- TC.set_data_role (R285). -/
def execTcSetDataRole (r : DataRole) (s : State) : Result := .next { s with dataRole := r }

/-- TC.set_frs (R286). -/
def execTcSetFrs (b : Bool) (s : State) : Result := .next { s with frsActive := b }

/-- TC.set_cc_sink_tx (R287). -/
def execTcSetCcSinkTx (v : SinkTx) (s : State) : Result := .next { s with ccSinkTx := v }

/-! ### WAKE -/

/-- WAKE (R288): the waiting loop runs a tick, whose sub-steps are the machine's next steps (R251, R256, log 8). -/
def execWake (s : State) : Result :=
  match s.loop with
  | .waiting => .next (wakeLoop s)
  | .tick _ => .refused .loopNotWaiting

end Sys2Proof.Machine
end

