-- ==== Sys2Proof/Machine/PrlRx.lean ====
section
/-! DEFINITION. PRL-RX (R120 to R130): the meanings of the eleven message-class rows. The instruction is a message
already dequeued; its meaning is the dispatch of R121 for its class. -/

namespace Sys2Proof.Machine

/-- `soft_reset_received(P, s)` (R123). PhyReset is forced and the completions are cleared whatever PRL-TX was doing; a
confirmation on another variant, whose IDs R123 (b) keeps, is left for PRL-TX to count (R158, R339), and one on `v` goes
with `v`'s counter: DESIGN CHOICE (log 19). -/
def softResetReceived (v : Sop) (s : State) : State :=
  let s1 := if sendPending s then s.emit .peReportDiscard else s
  let s2 := resetIds v { s1 with txOwed := if s.txSop = v then s.txOwed else (keepConfirmation s).txOwed }
  let s3 := gotoPrlTx .phyReset { s2 with prlTx := s2.prlTx.clearFlags }
  let s4 := rearmTch (rearmRch s3)
  s4.emit .peGotSoftReset

/-- A duplicate: the ID is the last one accepted on the variant (R126), and none is after the record was set to NONE, where
R131, derived, makes no exception: DESIGN CHOICE (log 25). -/
def isDuplicate (m : Msg) (s : State) : Bool := decide (s.rxRecord.get m.sop = some (hdrId m.hdr))

/-- Acceptance (R127): a pending send is discarded, and the ID recorded. Where a new request is pending over a
transmission that is confirmed and not yet counted, the request is discarded and the confirmed transmission is not
(R339, D55): `keepConfirmation`, DESIGN CHOICE (log 19). The ID is recorded after a Hard Reset too, before the next
transmission completes (R33, V-HR-6), where R178 derives that the record stays NONE until then: DESIGN CHOICE (log 23). -/
def accept (m : Msg) (s : State) : State :=
  let s1 := if txPending s then gotoPrlTx .discardMessage (keepConfirmation s) else s
  { s1 with rxRecord := s1.rxRecord.set m.sop (some (hdrId m.hdr)) }

/-- `route(P, m)` (R129, R130). -/
def route (m : Msg) (s : State) : State :=
  if chunkingEngaged s m.sop then
    if s.tch.state = .waitForRequestFromPe then
      { s with rchMsg := whole m, rch := { s.rch with msgReceived := true } }
    else
      { s with tchMsg := whole m, tch := { s.tch with msgReceived := true } }
  else s.emit (.peMessageReceived (.whole (whole m)))

/-- Dispatch of a message that is neither malformed nor a Soft Reset, up to its delivery (R121, R126, R127). -/
def acceptThen (m : Msg) (deliver : State → State) (s : State) : State :=
  if isDuplicate m s then s else deliver (accept m s)

/-- MALFORMED_EXT (R122). -/
def execMalformedExt (_m : Msg) (s : State) : Result := .next s

/-- SOFT_RESET (R123 to R125). -/
def execSoftReset (m : Msg) (s : State) : Result := .next (softResetReceived m.sop s)

/-- PING (R128): to the PE at once, with an empty payload. -/
def execPing (m : Msg) (s : State) : Result :=
  .next (acceptThen m (fun t => t.emit (.peMessageReceived (.empty m.sop m.hdr))) s)

/-- CONTROL (R129). -/
def execControl (m : Msg) (s : State) : Result := .next (acceptThen m (route m) s)

/-- DATA (R129). -/
def execData (m : Msg) (s : State) : Result := .next (acceptThen m (route m) s)

/-- EXT_CHUNK_REQUEST under DOC (R129; R200, R203 in RCH and R229 in TCH). -/
def execExtChunkRequest (m : Msg) (s : State) : Result := .next (acceptThen m (route m) s)

/-- EXT_CHUNK under DOC (R129; R193, R194, R201 in RCH). -/
def execExtChunk (m : Msg) (s : State) : Result := .next (acceptThen m (route m) s)

/-- EXT_UNCHUNKED under DOC (R129; R193 in RCH). -/
def execExtUnchunked (m : Msg) (s : State) : Result := .next (acceptThen m (route m) s)

/-- EXT_CHUNK_REQUEST under PD30. -/
def execExtChunkRequestPd30 (m : Msg) (s : State) : Result := .next (acceptThen m (route m) s)

/-- EXT_CHUNK under PD30. -/
def execExtChunkPd30 (m : Msg) (s : State) : Result := .next (acceptThen m (route m) s)

/-- EXT_UNCHUNKED under PD30. -/
def execExtUnchunkedPd30 (m : Msg) (s : State) : Result := .next (acceptThen m (route m) s)

end Sys2Proof.Machine
end

