-- ==== Sys2Proof/Machine/Dispatch.lean ====
section
/-! DEFINITION. The dispatch: one arm for each constructor of Instr, each a direct call of its meaning. -/

namespace Sys2Proof.Machine

def exec (i : Instr) (s : State) : Host.Outcome State Fault Refusal :=
  match i with
  | .malformedExt m => Sys2Proof.Machine.execMalformedExt m s
  | .softReset m => Sys2Proof.Machine.execSoftReset m s
  | .ping m => Sys2Proof.Machine.execPing m s
  | .control m => Sys2Proof.Machine.execControl m s
  | .data m => Sys2Proof.Machine.execData m s
  | .extChunkRequest m => Sys2Proof.Machine.execExtChunkRequest m s
  | .extChunk m => Sys2Proof.Machine.execExtChunk m s
  | .extUnchunked m => Sys2Proof.Machine.execExtUnchunked m s
  | .extChunkRequestPd30 m => Sys2Proof.Machine.execExtChunkRequestPd30 m s
  | .extChunkPd30 m => Sys2Proof.Machine.execExtChunkPd30 m s
  | .extUnchunkedPd30 m => Sys2Proof.Machine.execExtUnchunkedPd30 m s
  | .peSendCtrlMessage v typ => Sys2Proof.Machine.execPeSendCtrlMessage v typ s
  | .peSendDataMessage v typ ndo words => Sys2Proof.Machine.execPeSendDataMessage v typ ndo words s
  | .peSendExtendedMessage v typ len bytes => Sys2Proof.Machine.execPeSendExtendedMessage v typ len bytes s
  | .peExecuteHardReset => Sys2Proof.Machine.execPeExecuteHardReset s
  | .peHardResetComplete => Sys2Proof.Machine.execPeHardResetComplete s
  | .peSetRevision v r => Sys2Proof.Machine.execPeSetRevision v r s
  | .peResetMessageIds v => Sys2Proof.Machine.execPeResetMessageIds v s
  | .peAbort => Sys2Proof.Machine.execPeAbort s
  | .tpRx m => Sys2Proof.Machine.execTpRx m s
  | .tpTxCompleteOk => Sys2Proof.Machine.execTpTxCompleteOk s
  | .tpTxCompleteFail => Sys2Proof.Machine.execTpTxCompleteFail s
  | .tpHardResetReceived => Sys2Proof.Machine.execTpHardResetReceived s
  | .tpHardResetSent => Sys2Proof.Machine.execTpHardResetSent s
  | .timerExpireTxResponse => Sys2Proof.Machine.execTimerExpireTxResponse s
  | .timerExpireSrcCa => Sys2Proof.Machine.execTimerExpireSrcCa s
  | .timerExpireHrComplete => Sys2Proof.Machine.execTimerExpireHrComplete s
  | .timerExpireChunkResponse => Sys2Proof.Machine.execTimerExpireChunkResponse s
  | .timerExpireChunkRequest => Sys2Proof.Machine.execTimerExpireChunkRequest s
  | .timerExpireWakeCeiling => Sys2Proof.Machine.execTimerExpireWakeCeiling s
  | .tcSetPowerRole r => Sys2Proof.Machine.execTcSetPowerRole r s
  | .tcSetDataRole r => Sys2Proof.Machine.execTcSetDataRole r s
  | .tcSetFrs b => Sys2Proof.Machine.execTcSetFrs b s
  | .tcSetCcSinkTx v => Sys2Proof.Machine.execTcSetCcSinkTx v s
  | .wake => Sys2Proof.Machine.execWake s

end Sys2Proof.Machine
end

