-- ==== Sys2Proof/Machine/PrlHr.lean ====
section
/-! DEFINITION. PRL-HR: the run actions of its states, one invocation (R170 to R177, R180). -/

namespace Sys2Proof.Machine

/-- `hr_final_exit(P)` (R177). -/
def hrFinalExit (s : State) : State := (rearmTch (rearmRch (rearmPrlTx s))).setRxEnable true

/-- `step(PRLHR)`: the run actions of the current state. -/
def runPrlHr (s : State) : State :=
  match s.prlHr.state with
  | .waitForRequest =>
    if s.prlHr.peHardReset || s.prlHr.portPartnerHardReset then gotoPrlHr .resetLayer s else s
  | .resetLayer =>
    if s.prlHr.portPartnerHardReset then gotoPrlHr .waitForPeHardResetComplete (s.emit .peGotHardReset)
    else gotoPrlHr .waitForPhyHardResetComplete s
  | .waitForPhyHardResetComplete =>
    if s.prlHr.phyHardResetDone || s.timerExpired .hrComplete then
      gotoPrlHr .waitForPeHardResetComplete
        (({ s with prlHr := { s.prlHr with phyHardResetDone := false } } : State).emit .peHardResetSent)
    else s
  | .waitForPeHardResetComplete =>
    if s.prlHr.peHardResetDone then
      gotoPrlHr .waitForRequest (hrFinalExit { s with prlHr := { s.prlHr with peHardResetDone := false } })
    else s

end Sys2Proof.Machine
end

