-- ==== Sys2Proof/Machine/PrlTx.lean ====
section
/-! DEFINITION. PRL-TX: the run actions of its states, one invocation (R140 to R157, R161). -/

namespace Sys2Proof.Machine

/-- WaitForMessageRequest run (R144). -/
def runWaitForMessageRequest (s : State) : State :=
  if s.prlTx.txRequest then
    if s.txSlot.isSoftReset s.params then gotoPrlTx .layerResetForTransmit s
    else if caApplies s s.txSlot.sop then
      match s.powerRole with
      | .source => gotoPrlTx .srcCollisionAvoidance s
      | .sink => gotoPrlTx .snkCollisionAvoidance s
    else gotoPrlTx .waitForPhyResponse s
  else { s with prlTx := s.prlTx.clearCompletions }

/-- The confirmed message's counter advances mod 8 (R32, R150). -/
def countSent (v : Sop) (s : State) : State := { s with txCounter := s.txCounter.set v (s.txCounter.get v + 1) }

/-- WaitForPhyResponse run (R150 to R153). The variant whose counter advances is the one the entry bound, not the one
the slot holds by now: DESIGN CHOICE (log 17), which keeps R158 where the slot has been overwritten. The client told is
the slot's client by now, as R141 reads it (log 14). -/
def runWaitForPhyResponse (s : State) : State :=
  if s.prlTx.txCompleteOk then
    gotoPrlTx .waitForMessageRequest
      (notify .done (countSent s.txSop { s with prlTx := { s.prlTx with txCompleteOk := false } }))
  else if s.prlTx.txCompleteFail then
    gotoPrlTx .waitForMessageRequest (notify .error { s with prlTx := { s.prlTx with txCompleteFail := false } })
  else if s.timerExpired .txResponse then gotoPrlTx .waitForMessageRequest (notify .error s)
  else s

/-- The run actions of the current state (R142 to R157). -/
def runPrlTx (s : State) : State :=
  match s.prlTx.state with
  | .phyReset => gotoPrlTx .waitForMessageRequest s
  | .waitForMessageRequest => runWaitForMessageRequest s
  | .layerResetForTransmit => gotoPrlTx .waitForPhyResponse s
  | .srcCollisionAvoidance => if s.timerExpired .srcCa then gotoPrlTx .waitForPhyResponse s else s
  | .snkCollisionAvoidance => if s.frsActive || decide (s.ccSinkTx = .ok) then gotoPrlTx .waitForPhyResponse s else s
  | .waitForPhyResponse => runWaitForPhyResponse s
  | .discardMessage => gotoPrlTx .waitForMessageRequest s

/-- A confirmed transmission that PRL-TX was forced off is counted (R339, D55, log 19). -/
def countOwed (s : State) : State :=
  { s with
    txCounter :=
      match s.txOwed with
      | none => s.txCounter
      | some v => s.txCounter.set v (s.txCounter.get v + 1)
    txOwed := none }

/-- PRL-TX's sub-step: what is owed is counted, and the state runs. -/
def stepPrlTx (s : State) : State := runPrlTx (countOwed s)

end Sys2Proof.Machine
end

