-- ==== Sys2Proof/Machine/Rch.lean ====
section
/-! DEFINITION. RCH: the run actions of its states, one invocation (R190 to R207, R212). -/

namespace Sys2Proof.Machine

/-- The message RCH takes when idle (R193): by its class and the port's chunking mode. -/
def rchTake (m : Msg) (s : State) : State :=
  match classify s.params m with
  | .extChunkRequest => s
  | .softReset => gotoRch .passUpMessage { s with rchOut := .whole (whole m) }
  | .ping => gotoRch .passUpMessage { s with rchOut := .whole (whole m) }
  | .control => gotoRch .passUpMessage { s with rchOut := .whole (whole m) }
  | .data => gotoRch .passUpMessage { s with rchOut := .whole (whole m) }
  | .extChunk =>
    if s.params.chunking then
      gotoRch .processingExtendedMessage { s with rchCur := m, rxSop := m.sop, rxHdr := m.hdr }
    else raiseErr .rch .chunkMismatch m.sop s
  | .extUnchunked =>
    if s.params.chunking then raiseErr .rch .chunkMismatch m.sop s
    else gotoRch .passUpMessage { s with rchOut := .whole (whole m) }
  | .malformedExt => raiseErr .rch .chunkMismatch m.sop s

/-- WaitForMessage run (R193). -/
def runRchWaitForMessage (s : State) : State :=
  let s1 : State := { s with rch := s.rch.clearStale }
  if s1.rch.msgReceived then rchTake s1.rchMsg (consumeRch s1) else s1

/-- The payload of one chunk appended to the reassembly buffer, and both cursors advanced (R194, R195). -/
def appendChunk (m : Msg) (s : State) : State :=
  let n := chunkTake s.rxTotal s.bytesReceived m
  { s with
      rxBuf := s.rxBuf.bufWrite s.bytesReceived ((msgPayload m).take n)
      bytesReceived := s.bytesReceived + n
      nextExpectedChunk := s.nextExpectedChunk + 1 }

/-- After a chunk was appended: hand the message up if it is complete, else request the next chunk (R194). -/
def finishOrRequest (s : State) : Result :=
  if s.rxTotal ≤ s.bytesReceived then
    .next (gotoRch .passUpMessage
      { s with rchOut := .reassembled s.rxSop s.rxHdr s.rxTotal (s.rxBuf.bufRead 0 s.rxTotal) })
  else requestChunk s

/-- ProcessingExtendedMessage run (R194), `x` being the extended header of the chunk. -/
def processChunk (m : Msg) (x : XHdr) (s : State) : Result :=
  if x.chunkNumber.toNat ≠ s.nextExpectedChunk then .next (raiseErr .rch .chunkSequence s.rxSop s)
  else if x.chunkNumber = 0 then
    let s1 : State := { s with rxTotal := x.dataSize.toNat }
    if s1.params.maxExtMsgBytes < s1.rxTotal then .next (raiseErr .rch .rchOverflow s1.rxSop s1)
    else finishOrRequest (appendChunk m s1)
  else finishOrRequest (appendChunk m s)

/-- `clear ABORT; goto RCH WaitForMessage` (R206). -/
def abortRch (s : State) : State := returnToIdle .rch { s with rch := { s.rch with abort := false } }

/-- RequestingChunk run (R198). A transmit outcome left latched while RCH was in ProcessingExtendedMessage or WaitingChunk
is taken here as this request's: R209 derives that none can be, the pseudocode clears none, and the model follows the
pseudocode. DESIGN CHOICE (log 18). A message latched before the request was confirmed, which R198 says cannot stand here
without an outcome, stays latched too (log 25). -/
def runRequestingChunk (s : State) : State :=
  if s.rch.abort then abortRch s
  else if s.rch.txDone then gotoRch .waitingChunk { s with rch := { s.rch with txDone := false } }
  else if s.rch.txError then
    raiseErr .rch .txFailed s.rxSop { s with rch := { s.rch with txError := false } }
  else if s.rch.txDiscarded then
    let s1 : State := { s with rch := { s.rch with txDiscarded := false } }
    if s1.rch.msgReceived then interruptRch s1.rchMsg .chunkSequence (consumeRch s1)
    else raiseErr .rch .chunkSequence s1.rxSop s1
  else s

/-- WaitingChunk run (R201). It neither reads nor clears a transmit outcome (log 18). -/
def runWaitingChunk (s : State) : State :=
  if s.rch.abort then abortRch s
  else if s.rch.msgReceived then
    if classify s.params s.rchMsg = .extChunk ∧ s.rchMsg.sop = s.rxSop then
      gotoRch .processingExtendedMessage { consumeRch s with rchCur := s.rchMsg }
    else interruptRch s.rchMsg .chunkSequence (consumeRch s)
  else if s.timerExpired .chunkResponse then raiseErr .rch .chunkTimeout s.rxSop s
  else s

/-- `step(RCH)`: the run actions of the current state. -/
def runRch (s : State) : Result :=
  match s.rch.state with
  | .waitForMessage => .next (runRchWaitForMessage s)
  | .processingExtendedMessage =>
    if s.rch.abort then .next (abortRch s) else processChunk s.rchCur (msgXHdr s.params s.rchCur) s
  | .requestingChunk => .next (runRequestingChunk s)
  | .waitingChunk => .next (runWaitingChunk s)
  | .passUpMessage => .next (returnToIdle .rch s)
  | .reportError => .next (returnToIdle .rch s)

end Sys2Proof.Machine
end

