-- ==== Sys2Proof/Machine/Tch.lean ====
section
/-! DEFINITION. TCH: the run actions of its states, one invocation (R220 to R237, R242). -/

namespace Sys2Proof.Machine

/-- `extended_request(P, r)` (R222, R236, R237). -/
def extendedRequest (r : PeReq) (s : State) : State :=
  if chunkingEngaged s r.sop && s.params.chunking then
    gotoTch .constructChunkedMessage
      { s with txBuf := s.txBuf.bufWrite 0 (r.bytes.take r.len), sendLen := r.len, sendOffset := 0 }
  else if r.len ≤ maxChunkBytes then
    gotoTch .waitForTransmissionComplete (submit .tch (unchunkedSlot s.params r) s)
  else raiseErr .tch .txFailed s.sendSop s

/-- TCH takes the latched request (R221). -/
def takeRequest (s : State) : State :=
  let r := s.peReq
  let s1 : State :=
    { s with
        tch := { s.tch with msgRequest := false }
        sendSop := r.sop
        sendType := r.typ
        nextChunkToSend := 0 }
  match r.kind with
  | .ctrl => gotoTch .waitForTransmissionComplete (submit .tch (ctrlSlot r) s1)
  | .data => gotoTch .waitForTransmissionComplete (submit .tch (dataSlot r) s1)
  | .ext => extendedRequest r s1

/-- WaitForRequestFromPe run (R221). -/
def runWaitForRequestFromPe (s : State) : Result :=
  let s1 : State := { s with tch := s.tch.clearStale }
  if s1.tch.msgReceived then forwardChecked s1
  else if tchMayStart s1 then .next (takeRequest s1)
  else .next s1

/-- `clear ABORT; goto TCH WaitForRequestFromPe` (R234). No PE event, where R227 and R238 count one for every send, and no
recall of a chunk that stands at PRL-TX: DESIGN CHOICE (log 24, log 25). -/
def abortTch (s : State) : State := returnToIdle .tch { s with tch := { s.tch with abort := false } }

/-- ConstructChunkedMessage run (R223). As the pseudocode says it submits without a test of PRL-TX and without clearing an
outcome left latched: DESIGN CHOICE (log 24). -/
def runConstructChunkedMessage (s : State) : Result :=
  if s.tch.abort then .next (abortTch s)
  else if s.tch.msgReceived then preemptTch s
  else .next (gotoTch .sendingChunkedMessage (submit .tch (chunkSlot s) { s with sendChunkLen := chunkLen s }))

/-- The send was discarded at PRL-TX (R226, R228): preemption if a message is latched, else a report alone. -/
def tchDiscarded (s : State) : Result :=
  let s1 : State := { s with tch := { s.tch with txDiscarded := false } }
  if s1.tch.msgReceived then preemptTch s1
  else .next (gotoTch .waitForRequestFromPe (s1.emit .peReportDiscard))

/-- The send failed at PRL-TX (R226, R228). -/
def tchFailed (s : State) : State :=
  raiseErr .tch .txFailed s.sendSop { s with tch := { s.tch with txError := false } }

/-- A chunk was confirmed (R226): both cursors advance. -/
def chunkConfirmed (s : State) : State :=
  let s1 : State :=
    { s with
        tch := { s.tch with txDone := false }
        sendOffset := s.sendOffset + s.sendChunkLen
        nextChunkToSend := s.nextChunkToSend + 1 }
  if s1.sendLen ≤ s1.sendOffset then gotoTch .messageSent s1 else gotoTch .waitChunkRequest s1

/-- SendingChunkedMessage run (R226). The outcome it takes may be an earlier one: that of RCH's aborted request, or of a
chunk sent after TCH had gone on to WaitChunkRequest. R234 and R235 derive that neither can be, the pseudocode lets
both, and the model follows the pseudocode: DESIGN CHOICE (log 24). -/
def runSendingChunkedMessage (s : State) : Result :=
  if s.tch.txDone then .next (chunkConfirmed s)
  else if s.tch.txError then .next (tchFailed s)
  else if s.tch.txDiscarded then tchDiscarded s
  else .next s

/-- WaitForTransmissionComplete run (R228). -/
def runWaitForTransmissionComplete (s : State) : Result :=
  if s.tch.txDone then .next (gotoTch .messageSent { s with tch := { s.tch with txDone := false } })
  else if s.tch.txError then .next (tchFailed s)
  else if s.tch.txDiscarded then tchDiscarded s
  else .next s

/-- WaitChunkRequest run (R229). It neither reads nor clears a transmit outcome that reaches it: DESIGN CHOICE
(log 24). -/
def runWaitChunkRequest (s : State) : Result :=
  if s.tch.abort then .next (abortTch s)
  else if s.tch.msgReceived then
    if classify s.params s.tchMsg = .extChunkRequest ∧ s.tchMsg.sop = s.sendSop then
      let s1 : State := { s with tch := { s.tch with msgReceived := false } }
      if (msgXHdr s.params s.tchMsg).chunkNumber.toNat = s.nextChunkToSend then
        .next (gotoTch .constructChunkedMessage s1)
      else .next (raiseErr .tch .tchUnexpected s1.sendSop s1)
    else preemptTch s
  else if s.timerExpired .chunkRequest then .next (gotoTch .messageSent s)
  else .next s

/-- `step(TCH)`: the run actions of the current state. -/
def runTch (s : State) : Result :=
  match s.tch.state with
  | .waitForRequestFromPe => runWaitForRequestFromPe s
  | .constructChunkedMessage => runConstructChunkedMessage s
  | .waitForTransmissionComplete => runWaitForTransmissionComplete s
  | .sendingChunkedMessage => runSendingChunkedMessage s
  | .waitChunkRequest => runWaitChunkRequest s
  | .messageSent => .next (returnToIdle .tch s)
  | .reportError => .next (returnToIdle .tch s)
  | .messageReceived => .next (returnToIdle .tch s)

end Sys2Proof.Machine
end

