-- ==== Sys2Proof/Machine/TaskLoop.lean ====
section
/-! DEFINITION. The task loop (R250 to R258): fetching an event or a message, the sub-steps of a tick in the order of
R251, and the whole tick as one function. -/

namespace Sys2Proof.Machine

/-! ### Fetching -/

/-- Whether the next environment event falls now: at once while the loop waits, and in a tick when the sub-steps
before it have run (R80, R256, log 2). -/
def eventDue (l : Loop) (i : Input) : Bool :=
  match l with
  | .waiting => true
  | .tick _ => i.after == 0

/-- The event that falls now, with the state in which it is taken from `inputs`. -/
def fetchEvent (s : State) : Option (List Byte × State) :=
  match s.inputs with
  | [] => none
  | i :: rest => if eventDue s.loop i then some (i.bytes, { s with inputs := rest }) else none

/-- One sub-step passes before the next event. -/
def countDown (s : State) : State :=
  match s.inputs with
  | [] => s
  | i :: rest => { s with inputs := { i with after := i.after - 1 } :: rest }

/-- PRL-RX's fetch (R120): the head of the receive queue, unless a receive latch is still full; the dequeue is
recorded in the trace. -/
def fetchMsg (s : State) : Option (Msg × State) :=
  if latchBusy s then none
  else
    match s.rxq with
    | [] => none
    | m :: rest => some (m, ({ s with rxq := rest } : State).emit .tpDequeueMessage)

/-! ### Sub-steps (R251) -/

/-- PRL-RX's sub-step: the fetched message is decoded to its class and executed (R120, R121). -/
def runPrlRx (s : State) : Result :=
  match fetchMsg s with
  | none => .next s
  | some (m, s1) => exec (decodeMsg s1.params m) s1

/-- Leaving the blocking wait (R251, R258). -/
def leaveWait (s : State) : State := s.disarm .wakeCeiling

/-- Entering the blocking wait (R251, R258). -/
def enterWait (s : State) : State := { s.arm .wakeCeiling with loop := .waiting }

/-- The first sub-step of a tick: PRL-RX, or PRL-HR alone while it is not idle (R253). -/
def firstSubStep (s : State) : SubStep := if s.prlHr.state = .waitForRequest then .prlRx else .prlHr

/-- One sub-step of a tick. The control point moves on first; nothing a sub-step runs reads or writes it. -/
def runSubStep (p : SubStep) (s : State) : Result :=
  match p with
  | .start => .next { leaveWait s with loop := .tick (firstSubStep s) }
  | .prlRx => runPrlRx { s with loop := .tick .rch1 }
  | .rch1 => runRch { s with loop := .tick .tch1 }
  | .tch1 => runTch { s with loop := .tick .prlTx }
  | .prlTx => .next (stepPrlTx { s with loop := .tick .rch2 })
  | .rch2 => runRch { s with loop := .tick .tch2 }
  | .tch2 => runTch { s with loop := .tick .prlHr }
  | .prlHr => .next (enterWait (runPrlHr s))

/-! ### The tick as one function (R251) -/

/-- Sequencing of outcomes. -/
def andThen (r : Result) (f : State → Result) : Result :=
  match r with
  | .next s => f s
  | .fault e => .fault e
  | .refused e => .refused e

/-- Sub-steps 3 to 8 of `tick(P)`. -/
def tickBody (s : State) : Result :=
  andThen (runPrlRx s) fun s => andThen (runRch s) fun s => andThen (runTch s) fun s =>
    andThen (runRch (stepPrlTx s)) runTch

/-- `tick(P)` (R251), without environment events between its sub-steps. R261's latencies are those that follow from it
(log 25). -/
def tick (s : State) : Result :=
  let s1 := leaveWait s
  let body := if s1.prlHr.state = .waitForRequest then tickBody s1 else .next s1
  thenState body fun s2 => enterWait (runPrlHr s2)

end Sys2Proof.Machine
end

