-- ==== Sys2Proof/Machine/Step.lean ====
section
/-! DEFINITION. One step of the port: the environment event that falls now, or else the next sub-step of the tick in
progress, or else nothing while the loop waits (R250, R256, log 9). -/

namespace Sys2Proof.Machine

/-- The event's bytes are decoded and executed; bytes that are no event are refused by name (R104). -/
def deliverEvent (bytes : List Byte) (s : State) : Result :=
  match decodeLoneEvent bytes with
  | .ok i => exec i s
  | .error e => .refused (.undecodable e)

/-- What the loop itself does when no event falls. -/
def loopStep (s : State) : Result :=
  match s.loop with
  | .waiting => .next s
  | .tick p => runSubStep p (countDown s)

/-- One step. -/
def step (s : State) : Host.Outcome State Fault Refusal :=
  match fetchEvent s with
  | some (bytes, s1) => deliverEvent bytes s1
  | none => loopStep s

/-- An event whose turn has come in a tick is put off by one sub-step. -/
def holdInputs : List Input → List Input
  | [] => []
  | i :: rest => { i with after := i.after + 1 } :: rest

/-- A table word stored where `step` fetches next (log 4, log 16): an event becomes the next input, falling at once;
a message becomes the head of the receive queue, with the tick at PRL-RX's sub-step, both receive latches free and
no event falling before it. -/
def State.withFetchWord (s : State) (nbits w : Nat) : State :=
  match tableCode nbits w with
  | .event bytes => { s with inputs := ⟨0, bytes⟩ :: s.inputs }
  | .message v bytes =>
    match readMsg v bytes with
    | .ok (m, _) =>
      { s with
          loop := .tick .prlRx
          rxq := m :: s.rxq
          inputs := holdInputs s.inputs
          rch := { s.rch with msgReceived := false }
          tch := { s.tch with msgReceived := false } }
    | .error _ => s

end Sys2Proof.Machine
end

