-- ==== Sys2Proof/Machine/Ports.lean ====
section
/-! DEFINITION. N_PORTS ports (R8, R11, R70, R316): the product of single-port machines, which share no state. -/

namespace Sys2Proof.Machine

/-- The contexts of all ports, by port index. -/
abbrev Ports := List State

/-- One step of port `p`: only its context changes; a port index outside the array is refused by name. -/
def stepPort (p : Nat) (ps : Ports) : Host.Outcome Ports Fault Refusal :=
  match ps[p]? with
  | none => .refused .noSuchPort
  | some s =>
    match step s with
    | .next t => .next (ps.set p t)
    | .fault e => .fault e
    | .refused e => .refused e

/-- Every port after reset, each with its own parameters and launch inputs (R333: ports are reset independently). -/
def bootPorts (cfg : List (Params × Launch)) : Ports := cfg.map fun c => State.boot c.1 c.2

end Sys2Proof.Machine
end

