-- ==== Sys2Proof/Safety.lean ====
section
/-! DEFINITION. What holds of a port in every run: the data-model invariants of R54, the ranges of R35 and R36, timer
ownership (R259), the Hard Reset conditions (R172, R178, R310) and the sharing of the receive latches (R54, R233).
Every predicate is decidable, so that a concrete state can be checked. -/

namespace Sys2Proof.Machine

/-- A timer is armed exactly while its owner is in the state that armed it, and expires only while armed (R52,
R257, R259). -/
abbrev timerOwned (t : Timer) (owner : Bool) : Prop := t.armed = owner ∧ (t.expired = true → t.armed = true)

/-- The loop is in its blocking wait, or has been woken and has not begun the tick (R251, R258). -/
def beforeTick : Loop → Bool
  | .waiting => true
  | .tick .start => true
  | .tick .prlRx => false
  | .tick .rch1 => false
  | .tick .tch1 => false
  | .tick .prlTx => false
  | .tick .rch2 => false
  | .tick .tch2 => false
  | .tick .prlHr => false

/-- The tick is between PRL-RX and the second pass: sub-steps 3 to 8 of R251 are still to run. -/
def inBody : Loop → Bool
  | .waiting => false
  | .tick .start => false
  | .tick .prlRx => true
  | .tick .rch1 => true
  | .tick .tch1 => true
  | .tick .prlTx => true
  | .tick .rch2 => true
  | .tick .tch2 => true
  | .tick .prlHr => false

/-- Timer ownership (R259). -/
abbrev TimersOwned (s : State) : Prop :=
  timerOwned s.timers.txResponse (decide (s.prlTx.state = .waitForPhyResponse)) ∧
  timerOwned s.timers.srcCa (decide (s.prlTx.state = .srcCollisionAvoidance)) ∧
  timerOwned s.timers.hrComplete (decide (s.prlHr.state = .waitForPhyHardResetComplete)) ∧
  timerOwned s.timers.chunkResponse (decide (s.rch.state = .waitingChunk)) ∧
  timerOwned s.timers.chunkRequest (decide (s.tch.state = .waitChunkRequest)) ∧
  timerOwned s.timers.wakeCeiling (beforeTick s.loop)

/-- While a Hard Reset is in progress: receive is disabled, sub-steps 3 to 8 do not run, IDs and revisions of every
variant stand at their reset values, and no request, message or transmit request is held (R172, R178, R253, R310). -/
abbrev HardResetHeld (s : State) : Prop :=
  (s.rxEnabled = decide (s.prlHr.state = .waitForRequest)) ∧
  (inBody s.loop = true → s.prlHr.state = .waitForRequest) ∧
  (s.prlHr.state ≠ .waitForRequest →
    s.txCounter = PerSop.fill 0 ∧ s.rxRecord = PerSop.fill none ∧ s.rev = PerSop.fill s.params.revDefault ∧
    s.prlTx.txRequest = false ∧ s.tch.msgRequest = false ∧ s.tch.msgReceived = false ∧ s.rch.msgReceived = false)

/-- Revision codes are legal: the reserved code is never stored (R34, R102 b). -/
abbrev RevisionsLegal (s : State) : Prop :=
  s.rev.plain ≠ revReserved ∧ s.rev.prime ≠ revReserved ∧ s.rev.doublePrime ≠ revReserved ∧
  s.rev.debug ≠ revReserved ∧ s.rev.primeDebug ≠ revReserved ∧ s.rev.doublePrimeDebug ≠ revReserved

/-- At most one received message is latched (R54), PASS_INTERRUPTING is clear between sub-steps (R192, R207), and TCH
works on a send only while RCH is idle with an empty latch (R221). -/
abbrev LatchesShared (s : State) : Prop :=
  ¬(s.rch.msgReceived = true ∧ s.tch.msgReceived = true) ∧
  s.rch.passInterrupting = false ∧
  (s.tch.state ≠ .waitForRequestFromPe → s.tch.state ≠ .messageReceived →
    s.rch.state = .waitForMessage ∧ s.rch.msgReceived = false)

/-- Rp stands at SinkTxOk whenever PRL-TX waits for a request (R154). -/
abbrev RpRestored (s : State) : Prop := s.prlTx.state = .waitForMessageRequest → s.rpValue = .ok

/-- Payload length agrees with the data-object count in every message the port holds (R54). -/
abbrev MessagesConsistent (s : State) : Prop :=
  (∀ m ∈ s.rxq, msgConsistent m) ∧ msgConsistent s.rchMsg ∧ msgConsistent s.tchMsg ∧ msgConsistent s.rchCur ∧
  s.txSlot.words.length = s.txSlot.ndo.toNat ∧
  (s.rch.state = .processingExtendedMessage → classify s.params s.rchCur = .extChunk)

/-- The PE request latch is within the bounds of R271 and R272. -/
abbrev RequestBounded (s : State) : Prop :=
  s.peReq.words.length = s.peReq.ndo ∧ s.peReq.ndo ≤ maxDataObjects ∧
  s.peReq.bytes.length = s.peReq.len ∧ s.peReq.len ≤ s.params.maxSendLen

/-- Ranges of the reassembly bookkeeping (R35, R196). -/
abbrev ReassemblyBounded (s : State) : Prop :=
  s.rxBuf.wf = true ∧ s.rxBuf.below s.params.maxExtMsgBytes = true ∧
  s.bytesReceived ≤ s.rxTotal ∧ s.rxTotal ≤ maxDataSize ∧ s.nextExpectedChunk ≤ 16 ∧
  (s.nextExpectedChunk = 0 → s.bytesReceived = 0) ∧
  (s.nextExpectedChunk ≠ 0 → s.rxTotal ≤ s.params.maxExtMsgBytes)

/-- Ranges of the send cursor (R36, R225). -/
abbrev SendBounded (s : State) : Prop :=
  s.txBuf.wf = true ∧ s.txBuf.below s.params.maxExtMsgBytes = true ∧
  s.sendLen ≤ s.params.maxSendLen ∧ s.sendOffset ≤ s.sendLen ∧ s.sendChunkLen ≤ maxChunkBytes ∧
  s.nextChunkToSend ≤ 16 ∧
  (s.tch.state = .constructChunkedMessage ∨ s.tch.state = .sendingChunkedMessage → s.nextChunkToSend ≤ 15) ∧
  (s.tch.state = .constructChunkedMessage ∨ s.tch.state = .sendingChunkedMessage ∨ s.tch.state = .waitChunkRequest →
    s.sendOffset = maxChunkBytes * s.nextChunkToSend) ∧
  (s.tch.state = .sendingChunkedMessage → s.sendChunkLen = chunkLen s)

/-- A confirmation is owed only from PRL-RX's sub-step to PRL-TX's in the same tick, and PRL-TX is then where PRL-RX forced
it (R339, log 19). -/
abbrev OwedUntilStepped (s : State) : Prop :=
  s.txOwed ≠ none →
    (s.loop = .tick .rch1 ∨ s.loop = .tick .tch1 ∨ s.loop = .tick .prlTx) ∧
    (s.prlTx.state = .phyReset ∨ s.prlTx.state = .discardMessage)

/-- The invariant of a port. -/
structure Inv (s : State) : Prop where
  params : s.params.WellFormed
  timers : TimersOwned s
  hardReset : HardResetHeld s
  revisions : RevisionsLegal s
  latches : LatchesShared s
  rp : RpRestored s
  messages : MessagesConsistent s
  request : RequestBounded s
  reassembly : ReassemblyBounded s
  send : SendBounded s

/-- An event of R104, as opposed to a message class of R100. -/
def isEvent : Instr → Bool
  | .malformedExt _ => false
  | .softReset _ => false
  | .ping _ => false
  | .control _ => false
  | .data _ => false
  | .extChunkRequest _ => false
  | .extChunk _ => false
  | .extUnchunked _ => false
  | .extChunkRequestPd30 _ => false
  | .extChunkPd30 _ => false
  | .extUnchunkedPd30 _ => false
  | .peSendCtrlMessage _ _ => true
  | .peSendDataMessage _ _ _ _ => true
  | .peSendExtendedMessage _ _ _ _ => true
  | .peExecuteHardReset => true
  | .peHardResetComplete => true
  | .peSetRevision _ _ => true
  | .peResetMessageIds _ => true
  | .peAbort => true
  | .tpRx _ => true
  | .tpTxCompleteOk => true
  | .tpTxCompleteFail => true
  | .tpHardResetReceived => true
  | .tpHardResetSent => true
  | .timerExpireTxResponse => true
  | .timerExpireSrcCa => true
  | .timerExpireHrComplete => true
  | .timerExpireChunkResponse => true
  | .timerExpireChunkRequest => true
  | .timerExpireWakeCeiling => true
  | .tcSetPowerRole _ => true
  | .tcSetDataRole _ => true
  | .tcSetFrs _ => true
  | .tcSetCcSinkTx _ => true
  | .wake => true

/-- The number of entries of the trace that a predicate picks. -/
def countEmits (p : Emit → Bool) (l : List Emit) : Nat := (l.filter p).length

/-- `PE.report_error` (R300). -/
def isErrorReport : Emit → Bool
  | .peReportError _ _ => true
  | .peMessageReceived _ => false
  | .peMessageSent => false
  | .peReportDiscard => false
  | .peGotSoftReset => false
  | .peGotHardReset => false
  | .peHardResetSent => false
  | .tpTransmit _ _ _ => false
  | .tpTransmitHardReset => false
  | .tpSetRxEnable _ => false
  | .tpSetRp _ => false
  | .tpDequeueMessage => false

/-- The emits of a Hard Reset (R172 to R177). -/
def isHardResetEmit : Emit → Bool
  | .peGotHardReset => true
  | .peHardResetSent => true
  | .tpTransmitHardReset => true
  | .tpSetRxEnable _ => true
  | .peReportError _ _ => false
  | .peMessageReceived _ => false
  | .peMessageSent => false
  | .peReportDiscard => false
  | .peGotSoftReset => false
  | .tpTransmit _ _ _ => false
  | .tpSetRp _ => false
  | .tpDequeueMessage => false

/-- The 8-bit event code an event is encoded with (R104). -/
def eventCode (i : Instr) : Option Byte :=
  match encode i with
  | .event (c :: _) => some c
  | .event [] => none
  | .message _ _ => none

/-- A PE send is allowed (R289): no request is latched, TCH is idle or has already emitted the outcome of the last
send, and no Hard Reset is requested or in progress. -/
abbrev PeSendAllowed (s : State) : Prop :=
  s.tch.msgRequest = false ∧
  (s.tch.state = .waitForRequestFromPe ∨ s.tch.state = .messageSent ∨ s.tch.state = .reportError ∨
    s.tch.state = .messageReceived) ∧
  s.prlHr.state = .waitForRequest ∧ s.prlHr.peHardReset = false ∧ s.prlHr.portPartnerHardReset = false

/-! ### The message classes by how PRL-RX treats them (R121) -/

/-- The classes that are routed once accepted (R129). -/
def routedClasses (m : Msg) : List Instr :=
  [.control m, .data m, .extChunkRequest m, .extChunk m, .extUnchunked m, .extChunkRequestPd30 m, .extChunkPd30 m,
    .extUnchunkedPd30 m]

/-- The classes subject to duplicate suppression (R126). -/
def dedupClasses (m : Msg) : List Instr := .ping m :: routedClasses m

/-- Every class of R100. -/
def allClasses (m : Msg) : List Instr := .malformedExt m :: .softReset m :: dedupClasses m

/-! ### What the rules say the port is after an action, as one update of the state -/

/-- The timers with the one that PRL-TX's state armed disarmed (R147, R150). -/
def prlTxTimersOff (s : State) : Timers :=
  { s.timers with
    txResponse := if s.prlTx.state = .waitForPhyResponse then Timer.off else s.timers.txResponse
    srcCa := if s.prlTx.state = .srcCollisionAvoidance then Timer.off else s.timers.srcCa }

/-- What PRL-TX owes once it is forced off its state: the transmission that was confirmed and not yet counted (R339, D55,
log 19). -/
def owedBy (s : State) : Option Sop :=
  if s.prlTx.state = .waitForPhyResponse ∧ s.prlTx.txCompleteOk = true then some s.txSop else s.txOwed

/-- A pending send is discarded at PRL-TX and its client told (R127, R155). -/
def afterDiscard (s : State) : State :=
  if txPending s then
    { s with
      txOwed := owedBy s
      prlTx := ⟨.discardMessage, false, false, false⟩
      tch := if s.txClient = .tch then { s.tch with txDiscarded := true } else s.tch
      rch := if s.txClient = .rch then { s.rch with txDiscarded := true } else s.rch
      timers := prlTxTimersOff s }
  else s

/-- A message is accepted: a pending send is discarded and the message's ID recorded (R127). -/
def afterAccept (m : Msg) (s : State) : State :=
  { afterDiscard s with rxRecord := s.rxRecord.set m.sop (some (hdrId m.hdr)) }

/-- The slot's message is handed to the transport with the header of R148 (R150, entry), its variant bound for the run
(log 17). -/
def afterTransmit (s : State) : State :=
  { s with
    prlTx := ⟨.waitForPhyResponse, false, false, false⟩
    txSop := s.txSlot.sop
    txOutstanding := s.txOutstanding + 1
    trace := s.trace ++
      [.tpTransmit s.txSlot.sop
        (makeHdr s.txSlot.ext s.txSlot.ndo (s.txCounter.get s.txSlot.sop) (decide (s.powerRole = .source))
          (s.rev.get s.txSlot.sop) (decide (s.dataRole = .dfp)) s.txSlot.typ)
        (s.txSlot.words.take s.txSlot.ndo.toNat)]
    timers := { s.timers with txResponse := Timer.on } }

/-- PRL-TX is back in WaitForMessageRequest: completions cleared, Rp restored (R143, R154). -/
def afterPrlTxIdle (s : State) : State :=
  { s with
    prlTx := { s.prlTx with state := .waitForMessageRequest, txCompleteOk := false, txCompleteFail := false }
    rpValue := .ok
    trace := s.trace ++ (if s.rpValue = .ng then [.tpSetRp .ok] else []) }

/-- As `afterPrlTxIdle`, T_TX_RESPONSE disarmed (R150, exit). -/
def afterResponse (s : State) : State :=
  afterPrlTxIdle { s with timers := { s.timers with txResponse := Timer.off } }

/-- RCH idle: stale flags and cursors cleared (R193, entry). -/
def afterRchIdle (s : State) : State :=
  { s with
    rch := ⟨.waitForMessage, s.rch.msgReceived, false, false, false, false, false⟩
    bytesReceived := 0
    nextExpectedChunk := 0
    rxTotal := 0 }

/-- RCH hands a buffer up (R205, entry). -/
def afterPassUp (b : Passed) (s : State) : State :=
  { s with
    rch := { s.rch with state := .passUpMessage }
    rchOut := b
    trace := s.trace ++ [.peMessageReceived b] }

/-- RCH reports an error (R207, entry, R300). -/
def afterRchError (kind : ErrKind) (v : Sop) (s : State) : State :=
  { s with
    rch := { s.rch with state := .reportError }
    rchErr := kind
    rxSop := v
    trace := s.trace ++ [.peReportError kind v] }

/-- A message ends a reassembly (R192, R207): an ordinary one, that is neither a chunk nor a chunk request (R101), is
passed up, then the error is reported. -/
def afterInterrupt (m : Msg) (s : State) : State :=
  if classify s.params m = .extChunk ∨ classify s.params m = .extChunkRequest then
    afterRchError .chunkSequence s.rxSop s
  else
    afterRchError .chunkSequence s.rxSop
      { s with rchOut := .whole (whole m), trace := s.trace ++ [.peMessageReceived (.whole (whole m))] }

/-- TCH idle: stale flags and cursors cleared (R221, entry). -/
def afterTchIdle (s : State) : State :=
  { s with
    tch := ⟨.waitForRequestFromPe, s.tch.msgRequest, s.tch.msgReceived, false, false, false, false⟩
    sendOffset := 0
    nextChunkToSend := 0
    sendChunkLen := 0 }

/-- TCH tells the PE that the message was sent (R230, entry). -/
def afterSent (s : State) : State :=
  { s with tch := { s.tch with state := .messageSent }, trace := s.trace ++ [.peMessageSent] }

/-- TCH reports an error (R232, entry, R300). -/
def afterTchError (kind : ErrKind) (v : Sop) (s : State) : State :=
  { s with
    tch := { s.tch with state := .reportError }
    tchErr := kind
    sendSop := v
    trace := s.trace ++ [.peReportError kind v] }

/-- TCH is preempted: the send is reported discarded and the message forwarded to RCH (R233, entry). -/
def afterPreempted (s : State) : State :=
  { s with
    tch := { s.tch with state := .messageReceived, msgReceived := false, txDone := false, txError := false,
                        txDiscarded := false }
    rchMsg := s.tchMsg
    rch := { s.rch with msgReceived := true }
    trace := s.trace ++ [.peReportDiscard] }

/-- TCH submits a slot and waits in state `t` (R141, R221, R223). -/
def afterTchSubmit (t : TchState) (sl : TxSlot) (s : State) : State :=
  { s with
    tch := { s.tch with state := t }
    txSlot := sl
    txClient := .tch
    prlTx := { s.prlTx with txRequest := true } }

/-! ### Runs -/

/-- No environment event falls at the next `n` steps of a tick, and `later` is what is still to come after them: the
first event's count is `n` less, and nothing else of the list changes (R80, R256, log 2). -/
abbrev NoEventFor (n : Nat) (s : State) (later : List Input) : Prop :=
  (s.inputs = [] ∧ later = []) ∨
  ∃ a bytes rest, s.inputs = ⟨a + n, bytes⟩ :: rest ∧ later = ⟨a, bytes⟩ :: rest

/-- `k` steps. -/
def steps : Nat → State → Result
  | 0, s => .next s
  | k + 1, s => andThen (step s) (steps k)

/-! ### The receiving side of the round-trip law (R211) -/

/-- A chunk reaches RCH's latch and RCH is invoked twice: it takes the chunk and processes it. -/
def deliverChunk (m : Msg) (s : State) : Result :=
  andThen (runRch { s with rchMsg := m, rch := { s.rch with msgReceived := true } }) runRch

/-- RCH's chunk request was transmitted and confirmed, and RCH is invoked. -/
def confirmRequest (s : State) : Result :=
  runRch { s with prlTx := { s.prlTx with txRequest := false }, rch := { s.rch with txDone := true } }

/-- The chunks of a message delivered in order without interruption. -/
def receiveChunks : List Msg → State → Result
  | [], s => .next s
  | [m], s => deliverChunk m s
  | m :: n :: ms, s => andThen (andThen (deliverChunk m s) confirmRequest) (receiveChunks (n :: ms))

end Sys2Proof.Machine
end

