-- ==== Sys2Proof/Certificates/Slice0/Obligations.lean ====
section
/-! DEFINITION. The statements for the provers. Each docstring names the rules of spec/ it formalises; a statement
about a choice of the model says so and names the log entry. -/

section

open Sys2Proof Sys2Proof.Machine

/-! ### Encoding -/

/-- Decoding the encoding of a well-formed instruction gives it back, with no byte left over. The code bytes are
R104's, the message bytes R71's and R90's; the operand bytes of events are this model's (log 3). -/
def Obligations.DecodeInvertsEncode : Prop :=
  ∀ (p : Params) (i : Instr), i.WellFormed p → decode p (encode i) = .ok (i, [])

/-- The bytes a decoding consumes are exactly the encoding of the instruction it gives: no bit of an event or of a
message is dropped (R90, R104, log 3). -/
def Obligations.EncodeInvertsDecode : Prop :=
  ∀ (p : Params) (i : Instr) (rest : List Byte),
    (∀ bytes, decode p (.event bytes) = .ok (i, rest) →
      ∃ code, encode i = .event code ∧ bytes = code ++ rest) ∧
    (∀ v bytes, decode p (.message v bytes) = .ok (i, rest) →
      ∃ code, encode i = .message v code ∧ bytes = code ++ rest)

/-- Words written out from the encodings of R91, R95, R71 and R104 decode to the instructions they stand for. -/
def Obligations.SampleWordsDecode : Prop :=
  decode Params.default (.message .plain [0xAD, 0x07]) = .ok (.softReset ⟨.plain, 0x07AD, []⟩, []) ∧
  decode Params.default (.message .plain [0x85, 0x02]) = .ok (.ping ⟨.plain, 0x0285, []⟩, []) ∧
  decode Params.default (.message .prime [0xA1, 0x15, 0x01, 0x00, 0x00, 0x00]) =
    .ok (.data ⟨.prime, 0x15A1, [1]⟩, []) ∧
  decode Params.default (.message .plain [0x91, 0x90, 0x00, 0x1C, 0x00, 0x00]) =
    .ok (.extChunkRequest ⟨.plain, 0x9091, [0x1C00]⟩, []) ∧
  decode Params.default (.event [0x06, 0x01, 0x02]) = .ok (.peSetRevision .prime 2, []) ∧
  decode Params.default (.event [0x25]) = .ok (.timerExpireWakeCeiling, [])

/-- R93: the header word is the sum of its shifted fields; each field is read back from its bits (R92). -/
def Obligations.HeaderFormat : Prop :=
  (∀ (ext : Bool) (ndo id : BitVec 3) (pr : Bool) (rev : BitVec 2) (dr : Bool) (typ : BitVec 5),
    (makeHdr ext ndo id pr rev dr typ).toNat =
      ext.toNat * 2 ^ 15 + ndo.toNat * 2 ^ 12 + id.toNat * 2 ^ 9 + pr.toNat * 2 ^ 8 + rev.toNat * 2 ^ 6 +
        dr.toNat * 2 ^ 5 + typ.toNat) ∧
  (∀ h : Half,
    (hdrType h).toNat = h.toNat % 32 ∧ (hdrDr h).toNat = h.toNat / 2 ^ 5 % 2 ∧
    (hdrRev h).toNat = h.toNat / 2 ^ 6 % 4 ∧ (hdrPr h).toNat = h.toNat / 2 ^ 8 % 2 ∧
    (hdrId h).toNat = h.toNat / 2 ^ 9 % 8 ∧ (hdrNdo h).toNat = h.toNat / 2 ^ 12 % 8 ∧
    (hdrExt h).toNat = h.toNat / 2 ^ 15) ∧
  makeHdr false 1 2 true 2 true 0x01 = 0x15A1

/-- R96: both layouts of the extended header, decoded and encoded; bit 9 is ignored and written 0. -/
def Obligations.ExtendedHeaderFormat : Prop :=
  (∀ x : Half,
    (xhDecode .doc x).dataSize.toNat = x.toNat % 512 ∧
    (xhDecode .doc x).chunked.toNat = x.toNat / 2 ^ 10 % 2 ∧
    (xhDecode .doc x).requestChunk.toNat = x.toNat / 2 ^ 11 % 2 ∧
    (xhDecode .doc x).chunkNumber.toNat = x.toNat / 2 ^ 12 ∧
    (xhDecode .pd30 x).dataSize.toNat = x.toNat % 512 ∧
    (xhDecode .pd30 x).chunked.toNat = x.toNat / 2 ^ 15 ∧
    (xhDecode .pd30 x).requestChunk.toNat = x.toNat / 2 ^ 10 % 2 ∧
    (xhDecode .pd30 x).chunkNumber.toNat = x.toNat / 2 ^ 11 % 16) ∧
  (∀ (size n : Nat) (chunked req : Bool),
    (xhEncode .doc size chunked req n).toNat =
      n % 16 * 2 ^ 12 + req.toNat * 2 ^ 11 + chunked.toNat * 2 ^ 10 + size % 512 ∧
    (xhEncode .pd30 size chunked req n).toNat =
      chunked.toNat * 2 ^ 15 + n % 16 * 2 ^ 11 + req.toNat * 2 ^ 10 + size % 512) ∧
  xhEncode .doc 30 true false 1 = 0x141E ∧ xhEncode .pd30 30 true false 1 = 0x881E

/-- R100: the condition of each class, the earlier rows excluded. -/
def Obligations.MessageClasses : Prop :=
  ∀ (p : Params) (m : Msg),
    (classify p m = .malformedExt ↔ hdrExt m.hdr = true ∧ hdrNdo m.hdr = 0) ∧
    (classify p m = .softReset ↔ hdrExt m.hdr = false ∧ hdrNdo m.hdr = 0 ∧ hdrType m.hdr = p.ctrlSoftReset) ∧
    (classify p m = .ping ↔ hdrExt m.hdr = false ∧ hdrNdo m.hdr = 0 ∧ hdrType m.hdr = p.ctrlPing ∧
      hdrType m.hdr ≠ p.ctrlSoftReset) ∧
    (classify p m = .control ↔ hdrExt m.hdr = false ∧ hdrNdo m.hdr = 0 ∧ hdrType m.hdr ≠ p.ctrlSoftReset ∧
      hdrType m.hdr ≠ p.ctrlPing) ∧
    (classify p m = .data ↔ hdrExt m.hdr = false ∧ hdrNdo m.hdr ≠ 0) ∧
    (classify p m = .extChunkRequest ↔ hdrExt m.hdr = true ∧ hdrNdo m.hdr ≠ 0 ∧
      (msgXHdr p m).requestChunk = true) ∧
    (classify p m = .extChunk ↔ hdrExt m.hdr = true ∧ hdrNdo m.hdr ≠ 0 ∧
      (msgXHdr p m).requestChunk = false ∧ (msgXHdr p m).chunked = true) ∧
    (classify p m = .extUnchunked ↔ hdrExt m.hdr = true ∧ hdrNdo m.hdr ≠ 0 ∧
      (msgXHdr p m).requestChunk = false ∧ (msgXHdr p m).chunked = false)

/-- R104: the code of every event; a decoded event has the code it was read from; every other code is refused by
name. -/
def Obligations.EventCodes : Prop :=
  (∀ v typ, eventCode (.peSendCtrlMessage v typ) = some 0x01) ∧
  (∀ v typ ndo ws, eventCode (.peSendDataMessage v typ ndo ws) = some 0x02) ∧
  (∀ v typ len bs, eventCode (.peSendExtendedMessage v typ len bs) = some 0x03) ∧
  eventCode .peExecuteHardReset = some 0x04 ∧ eventCode .peHardResetComplete = some 0x05 ∧
  (∀ v r, eventCode (.peSetRevision v r) = some 0x06) ∧ (∀ v, eventCode (.peResetMessageIds v) = some 0x07) ∧
  eventCode .peAbort = some 0x08 ∧ (∀ m, eventCode (.tpRx m) = some 0x10) ∧
  eventCode .tpTxCompleteOk = some 0x11 ∧ eventCode .tpTxCompleteFail = some 0x12 ∧
  eventCode .tpHardResetReceived = some 0x13 ∧ eventCode .tpHardResetSent = some 0x14 ∧
  eventCode .timerExpireTxResponse = some 0x20 ∧ eventCode .timerExpireSrcCa = some 0x21 ∧
  eventCode .timerExpireHrComplete = some 0x22 ∧ eventCode .timerExpireChunkResponse = some 0x23 ∧
  eventCode .timerExpireChunkRequest = some 0x24 ∧ eventCode .timerExpireWakeCeiling = some 0x25 ∧
  (∀ r, eventCode (.tcSetPowerRole r) = some 0x30) ∧ (∀ r, eventCode (.tcSetDataRole r) = some 0x31) ∧
  (∀ b, eventCode (.tcSetFrs b) = some 0x32) ∧ (∀ v, eventCode (.tcSetCcSinkTx v) = some 0x33) ∧
  eventCode .wake = some 0x40 ∧
  (∀ c ops i rest, decodeEvent (c :: ops) = .ok (i, rest) → eventCode i = some c) ∧
  (∀ c ops, c ∉ ([0x01, 0x02, 0x03, 0x04, 0x05, 0x06, 0x07, 0x08, 0x10, 0x11, 0x12, 0x13, 0x14, 0x20, 0x21, 0x22,
      0x23, 0x24, 0x25, 0x30, 0x31, 0x32, 0x33, 0x40] : List Byte) →
    decodeLoneEvent (c :: ops) = .error (.invalidEventCode c))

/-! ### Reset -/

/-- R330: the reset values, and the loop in its first wait with T_WAKE_CEILING armed, for every choice of the
parameters and launch inputs. The values R331 leaves unspecified are not mentioned. -/
def Obligations.ResetLeaves : Prop :=
  ∀ (p : Params) (l : Launch),
    let s := State.boot p l
    s.prlTx = ⟨.phyReset, false, false, false⟩ ∧
    s.prlHr = ⟨.waitForRequest, false, false, false, false⟩ ∧
    s.rch = ⟨.waitForMessage, false, false, false, false, false, false⟩ ∧
    s.tch = ⟨.waitForRequestFromPe, false, false, false, false, false, false⟩ ∧
    (∀ v, s.txCounter.get v = 0 ∧ s.rxRecord.get v = none ∧ s.rev.get v = p.revDefault) ∧
    s.bytesReceived = 0 ∧ s.nextExpectedChunk = 0 ∧ s.rxTotal = 0 ∧
    s.sendLen = 0 ∧ s.sendOffset = 0 ∧ s.nextChunkToSend = 0 ∧ s.sendChunkLen = 0 ∧
    s.rpValue = .ok ∧ s.rxEnabled = true ∧ s.rxq = [] ∧ s.txOutstanding = 0 ∧ s.trace = [] ∧
    s.timers = ⟨Timer.off, Timer.off, Timer.off, Timer.off, Timer.off, Timer.on⟩ ∧ s.loop = .waiting ∧
    tick s = .next { s with prlTx := { s.prlTx with state := .waitForMessageRequest } }

/-- The invariant holds of the reset state, for every legal choice of the parameters; and the core's reset state is the
one with the defaults of R8 (log 1, log 11) and of the launch inputs (log 6). -/
def Obligations.ResetMeetsInvariant : Prop :=
  (∀ (p : Params) (l : Launch), p.WellFormed → Inv (State.boot p l) ∧ OwedUntilStepped (State.boot p l)) ∧
  State.reset = State.boot ⟨260, 0x0D, 0x05, 2, true, .doc⟩ ⟨.sink, .ufp, false, .ok⟩

/-! ### The step and the tick -/

/-- A step runs the decoded event: where an event falls due (the loop waits, or its count is 0) its bytes are decoded
and the instruction executed on the state without that input; bytes that are no event, or have a nonzero byte after it,
are refused by name (log 3). In a tick an event whose count is above 0 does not fall yet: the step leaves it to come with
its count one less, and the rest of the list as it is (R80, R256). Where events fall is this model's `inputs` (log 2). -/
def Obligations.StepRunsDueEvent : Prop :=
  (∀ (s : State) (a : Nat) (bytes : List Byte) (rest : List Input),
    s.inputs = ⟨a, bytes⟩ :: rest → (s.loop = .waiting ∨ a = 0) →
    (∀ i more, decode s.params (.event bytes) = .ok (i, more) →
      ((∀ b ∈ more, b = 0) → step s = exec i { s with inputs := rest }) ∧
      ((∃ b ∈ more, b ≠ 0) → step s = .refused (.undecodable .trailingBytes))) ∧
    (∀ e, decode s.params (.event bytes) = .error e → step s = .refused (.undecodable e))) ∧
  (∀ (s t : State) (p : SubStep) (later : List Input), s.loop = .tick p →
    NoEventFor 1 s later →
    step s = .next t → t.inputs = later)

/-- A step runs the received message: at PRL-RX's sub-step the head of the queue is dequeued and executed as the
instruction of its class, unless a receive latch is full or the queue is empty (R120). `later` are the events still to
come, the first of them one sub-step nearer (log 2). -/
def Obligations.StepRunsQueuedMessage : Prop :=
  ∀ (s : State) (later : List Input), s.loop = .tick .prlRx → NoEventFor 1 s later →
    (∀ m rest, s.rxq = m :: rest → s.rch.msgReceived = false → s.tch.msgReceived = false →
      step s = exec (decodeMsg s.params m)
        { s with
          inputs := later
          loop := .tick .rch1
          rxq := rest
          trace := s.trace ++ [.tpDequeueMessage] } ∧
      (msgConsistent m → (decodeMsg s.params m).WellFormed s.params)) ∧
    (s.rxq = [] ∨ s.rch.msgReceived = true ∨ s.tch.msgReceived = true →
      step s = .next { s with inputs := later, loop := .tick .rch1 })

/-- What every sub-step of every tick runs, whatever events fell before it or are still to come (R251, R253, R256); WAKE,
executed exactly while the loop waits (R288); and the whole tick: a run of it in which no event falls is `tick`, the
sub-steps in their order, PRL-HR alone while it is not idle, T_WAKE_CEILING disarmed before and armed after. That a
sub-step is one step is this model's (log 8), and so is the list of events to come (log 2). -/
def Obligations.WakeRunsOneTick : Prop :=
  ∀ s : State,
    (s.loop = .waiting → exec .wake s = .next { s with loop := .tick .start }) ∧
    (s.loop ≠ .waiting → exec .wake s = .refused .loopNotWaiting) ∧
    (∀ later, NoEventFor 1 s later →
      (s.loop = .tick .start →
        step s = .next
          { s with
            inputs := later
            timers := { s.timers with wakeCeiling := Timer.off }
            loop := if s.prlHr.state = .waitForRequest then .tick .prlRx else .tick .prlHr }) ∧
      (s.loop = .tick .prlRx → step s = runPrlRx { s with inputs := later, loop := .tick .rch1 }) ∧
      (s.loop = .tick .rch1 → step s = runRch { s with inputs := later, loop := .tick .tch1 }) ∧
      (s.loop = .tick .tch1 → step s = runTch { s with inputs := later, loop := .tick .prlTx }) ∧
      (s.loop = .tick .prlTx → step s = .next (stepPrlTx { s with inputs := later, loop := .tick .rch2 })) ∧
      (s.loop = .tick .rch2 → step s = runRch { s with inputs := later, loop := .tick .tch2 }) ∧
      (s.loop = .tick .tch2 → step s = runTch { s with inputs := later, loop := .tick .prlHr }) ∧
      (s.loop = .tick .prlHr →
        let v := runPrlHr { s with inputs := later }
        step s = .next { v with timers := { v.timers with wakeCeiling := Timer.on }, loop := .waiting })) ∧
    (s.loop = .waiting →
      let s1 : State := { s with timers := { s.timers with wakeCeiling := Timer.off } }
      tick s =
        thenState
          (if s.prlHr.state = .waitForRequest then
            andThen (runPrlRx s1) fun a => andThen (runRch a) fun b => andThen (runTch b) fun c =>
              andThen (runRch (stepPrlTx c)) runTch
          else .next s1)
          (fun u =>
            let v := runPrlHr u
            { v with timers := { v.timers with wakeCeiling := Timer.on } }) ∧
      ∀ later, NoEventFor (if s.prlHr.state = .waitForRequest then 8 else 2) s later →
        steps (if s.prlHr.state = .waitForRequest then 8 else 2) { s with loop := .tick .start } =
          thenState (tick s) fun u => { u with inputs := later })

/-- Between events the machine goes on: no sub-step refuses, and the one fault left is the assertion of R198, where RCH
would submit while a transmission is pending (log 14). -/
def Obligations.LoopStepsComplete : Prop :=
  ∀ s : State, Inv s →
    ((s.loop = .waiting ∧ s.inputs = []) ∨ (s.loop ≠ .waiting ∧ ∃ later, NoEventFor 1 s later)) →
    (∃ t, step s = .next t) ∨
    (s.rch.state = .processingExtendedMessage ∧ txPending s = true ∧ step s = .fault .rchSubmitWhileTxPending)

/-- A waiting loop with no event to come stays as it is (log 9), and a tick with nothing to do changes nothing but
T_WAKE_CEILING (R252). -/
def Obligations.IdleLoopChangesNothing : Prop :=
  ∀ s : State,
    (s.loop = .waiting → s.inputs = [] → step s = .next s) ∧
    (s.prlTx = ⟨.waitForMessageRequest, false, false, false⟩ →
      s.prlHr.state = .waitForRequest → s.prlHr.peHardReset = false → s.prlHr.portPartnerHardReset = false →
      s.rch = ⟨.waitForMessage, false, false, false, false, false, false⟩ →
      s.tch = ⟨.waitForRequestFromPe, false, false, false, false, false, false⟩ →
      s.rxq = [] → s.loop = .waiting → OwedUntilStepped s →
      tick s = .next { s with timers := { s.timers with wakeCeiling := Timer.on } })

/-! ### PRL-RX: the message classes -/

/-- R122: a malformed extended message is dropped. -/
def Obligations.MalformedMessageDropped : Prop :=
  (∀ (m : Msg) (s : State), exec (.malformedExt m) s = .next s) ∧
  (∀ (p : Params) (m : Msg), hdrExt m.hdr = true → hdrNdo m.hdr = 0 → decodeMsg p m = .malformedExt m)

/-- R123, R125: a received Soft Reset. The timers are those of the states PRL-TX, RCH and TCH are forced out of. That a
confirmed and uncounted transmission of another variant stays to be counted (R339, D55) is this model's `txOwed`
(log 19). -/
def Obligations.SoftResetReceived : Prop :=
  (∀ (m : Msg) (s : State),
    exec (.softReset m) s = .next
      { s with
        txCounter := s.txCounter.set m.sop 0
        rxRecord := s.rxRecord.set m.sop none
        txOwed :=
          if s.txSop ≠ m.sop ∧ s.prlTx.state = .waitForPhyResponse ∧ s.prlTx.txCompleteOk = true then some s.txSop
          else s.txOwed
        prlTx := ⟨.phyReset, false, false, false⟩
        rch := ⟨.waitForMessage, false, false, false, false, false, false⟩
        tch := ⟨.waitForRequestFromPe, false, false, false, false, false, false⟩
        bytesReceived := 0
        nextExpectedChunk := 0
        rxTotal := 0
        sendLen := 0
        sendOffset := 0
        nextChunkToSend := 0
        sendChunkLen := 0
        timers :=
          { prlTxTimersOff s with
            chunkResponse := if s.rch.state = .waitingChunk then Timer.off else s.timers.chunkResponse
            chunkRequest := if s.tch.state = .waitChunkRequest then Timer.off else s.timers.chunkRequest }
        trace := s.trace ++ (if sendPending s then [.peReportDiscard, .peGotSoftReset] else [.peGotSoftReset]) }) ∧
  (∀ (p : Params) (m : Msg), hdrExt m.hdr = false → hdrNdo m.hdr = 0 → hdrType m.hdr = p.ctrlSoftReset →
    decodeMsg p m = .softReset m)

/-- R124: the two pending-send predicates. -/
def Obligations.PendingSendPredicates : Prop :=
  ∀ s : State,
    (txPending s = true ↔
      s.prlTx.txRequest = true ∨ s.prlTx.state = .layerResetForTransmit ∨ s.prlTx.state = .srcCollisionAvoidance ∨
      s.prlTx.state = .snkCollisionAvoidance ∨
      (s.prlTx.state = .waitForPhyResponse ∧ s.prlTx.txCompleteOk = false)) ∧
    (sendPending s = true ↔
      s.tch.msgRequest = true ∨ s.tch.state ≠ .waitForRequestFromPe ∨ (txPending s = true ∧ s.txClient = .tch))

/-- R126: a duplicate changes nothing, whatever its class. -/
def Obligations.DuplicateDropped : Prop :=
  ∀ (m : Msg) (s : State) (i : Instr), i ∈ dedupClasses m → s.rxRecord.get m.sop = some (hdrId m.hdr) →
    exec i s = .next s

/-- R127, R128: an accepted Ping discards a pending send, records its ID and is handed to the PE at once. `afterAccept`
keeps a confirmed transmission from being discarded (R339, D55), which is this model's `txOwed` (log 19). -/
def Obligations.PingDelivered : Prop :=
  ∀ (m : Msg) (s : State), s.rxRecord.get m.sop ≠ some (hdrId m.hdr) →
    exec (.ping m) s = .next
      { afterAccept m s with trace := s.trace ++ [.peMessageReceived (.empty m.sop m.hdr)] }

/-- R129, R130: an accepted message of any other class goes to RCH, to TCH or straight to the PE. `afterAccept` is as in
PingDelivered (log 19). -/
def Obligations.MessageRouted : Prop :=
  ∀ (m : Msg) (s : State) (i : Instr), i ∈ routedClasses m → s.rxRecord.get m.sop ≠ some (hdrId m.hdr) →
    let a := afterAccept m s
    let w : Msg := { m with words := m.words.take (hdrNdo m.hdr).toNat }
    exec i s = .next
      (if s.rev.get m.sop = rev30 then
        if s.tch.state = .waitForRequestFromPe then
          { a with rchMsg := w, rch := { a.rch with msgReceived := true } }
        else { a with tchMsg := w, tch := { a.tch with msgReceived := true } }
      else { a with trace := s.trace ++ [.peMessageReceived (.whole w)] })

/-- R131: after a message on a variant, a second one with the same ID on that variant changes nothing. -/
def Obligations.SecondDeliveryDropped : Prop :=
  ∀ (m n : Msg) (i j : Instr) (s t : State), i ∈ dedupClasses m → j ∈ dedupClasses n →
    n.sop = m.sop → hdrId n.hdr = hdrId m.hdr → exec i s = .next t → exec j t = .next t

/-- R132: PRL-RX never reports an error, never blocks, and never changes a revision, another variant's counter or
PRL-HR. -/
def Obligations.PrlRxNeverBlocksOrReports : Prop :=
  ∀ (m : Msg) (s : State) (i : Instr), i ∈ allClasses m →
    ∃ t, exec i s = .next t ∧ t.rev = s.rev ∧ t.prlHr = s.prlHr ∧
      (∀ v, v ≠ m.sop → t.txCounter.get v = s.txCounter.get v) ∧
      countEmits isErrorReport t.trace = countEmits isErrorReport s.trace

/-! ### Environment events -/

/-- R270, R271, R272: a PE send latches its request and sets MSG_REQUEST; R289's condition and the bounds of the
operands are its precondition. That the operands are tested first, where both fail, is this model's (log 13), and so
are the empty lists and zeros in the fields of the latch that R270 to R272 do not name (log 20). -/
def Obligations.PeSendsLatchRequest : Prop :=
  ∀ (s : State) (v : Sop) (typ : BitVec 5),
    (PeSendAllowed s →
      exec (.peSendCtrlMessage v typ) s = .next
        { s with peReq := ⟨.ctrl, v, typ, 0, [], [], 0⟩, tch := { s.tch with msgRequest := true } }) ∧
    (∀ ndo words, PeSendAllowed s → 1 ≤ ndo → ndo ≤ 7 → words.length = ndo →
      exec (.peSendDataMessage v typ ndo words) s = .next
        { s with peReq := ⟨.data, v, typ, ndo, words, [], 0⟩, tch := { s.tch with msgRequest := true } }) ∧
    (∀ len bytes, PeSendAllowed s → len ≤ min 511 s.params.maxExtMsgBytes → bytes.length = len →
      exec (.peSendExtendedMessage v typ len bytes) s = .next
        { s with peReq := ⟨.ext, v, typ, 0, [], bytes, len⟩, tch := { s.tch with msgRequest := true } }) ∧
    (¬PeSendAllowed s → exec (.peSendCtrlMessage v typ) s = .refused .peSendNotEnabled) ∧
    (∀ ndo words, ¬(1 ≤ ndo ∧ ndo ≤ 7 ∧ words.length = ndo) →
      exec (.peSendDataMessage v typ ndo words) s = .refused .dataObjectCount) ∧
    (∀ ndo words, ¬PeSendAllowed s → 1 ≤ ndo → ndo ≤ 7 → words.length = ndo →
      exec (.peSendDataMessage v typ ndo words) s = .refused .peSendNotEnabled) ∧
    (∀ len bytes, ¬(len ≤ min 511 s.params.maxExtMsgBytes ∧ bytes.length = len) →
      exec (.peSendExtendedMessage v typ len bytes) s = .refused .extendedLength) ∧
    (∀ len bytes, ¬PeSendAllowed s → len ≤ min 511 s.params.maxExtMsgBytes → bytes.length = len →
      exec (.peSendExtendedMessage v typ len bytes) s = .refused .peSendNotEnabled)

/-- R273, R281: the two requests for a Hard Reset set a flag each, in every state. -/
def Obligations.HardResetRequestEvents : Prop :=
  ∀ s : State,
    exec .peExecuteHardReset s = .next { s with prlHr := { s.prlHr with peHardReset := true } } ∧
    exec .tpHardResetReceived s = .next { s with prlHr := { s.prlHr with portPartnerHardReset := true } }

/-- R274: PE.hard_reset_complete is enabled exactly in WaitForPeHardResetComplete. -/
def Obligations.HardResetCompleteEvent : Prop :=
  ∀ s : State,
    (s.prlHr.state = .waitForPeHardResetComplete →
      exec .peHardResetComplete s = .next { s with prlHr := { s.prlHr with peHardResetDone := true } }) ∧
    (s.prlHr.state ≠ .waitForPeHardResetComplete →
      exec .peHardResetComplete s = .refused .hardResetNotAwaitingPe)

/-- R275, R276: the revision of one variant, and the message-ID state of one variant, outside a Hard Reset only; and
what "one variant" means: writing an entry of a per-variant array changes that entry alone (R31). The revision codes are
those of R34 (log 11). That code 3 is refused as such also during a Hard Reset is this model's (log 13). -/
def Obligations.RevisionAndIdEvents : Prop :=
  (∀ (s : State) (v : Sop) (r : BitVec 2),
    (s.prlHr.state = .waitForRequest → r ≠ 3 →
      exec (.peSetRevision v r) s = .next { s with rev := s.rev.set v r }) ∧
    (s.prlHr.state = .waitForRequest →
      exec (.peResetMessageIds v) s = .next
        { s with txCounter := s.txCounter.set v 0, rxRecord := s.rxRecord.set v none }) ∧
    exec (.peSetRevision v 3) s = .refused .reservedRevision ∧
    (s.prlHr.state ≠ .waitForRequest → r ≠ 3 → exec (.peSetRevision v r) s = .refused .hardResetInProgress) ∧
    (s.prlHr.state ≠ .waitForRequest → exec (.peResetMessageIds v) s = .refused .hardResetInProgress)) ∧
  (∀ (α : Type) (a : PerSop α) (v w : Sop) (x : α), (a.set v x).get w = if w = v then x else a.get w) ∧
  rev10 = 0 ∧ rev20 = 1 ∧ rev30 = 2 ∧ revReserved = 3

/-- R277: PE.abort sets both ABORT flags, in every state. -/
def Obligations.AbortSetsBothFlags : Prop :=
  ∀ s : State,
    exec .peAbort s = .next
      { s with rch := { s.rch with abort := true }, tch := { s.tch with abort := true } }

/-- R278: a consistent message is queued while receive is enabled. That the length is tested first, where both
conditions fail, is this model's (log 13). -/
def Obligations.ReceiveEventQueues : Prop :=
  ∀ (m : Msg) (s : State),
    (m.words.length = (hdrNdo m.hdr).toNat → s.rxEnabled = true →
      exec (.tpRx m) s = .next { s with rxq := s.rxq ++ [m] }) ∧
    (m.words.length = (hdrNdo m.hdr).toNat → s.rxEnabled = false →
      exec (.tpRx m) s = .refused .receiveDisabled) ∧
    (m.words.length ≠ (hdrNdo m.hdr).toNat → exec (.tpRx m) s = .refused .payloadLength)

/-- R279, R280, R282: a completion is delivered for an outstanding transmission only, and sets its flag. The kind of
transmission is no part of those preconditions (log 22). -/
def Obligations.CompletionEvents : Prop :=
  ∀ s : State,
    (0 < s.txOutstanding →
      exec .tpTxCompleteOk s = .next
        { s with txOutstanding := s.txOutstanding - 1, prlTx := { s.prlTx with txCompleteOk := true } } ∧
      exec .tpTxCompleteFail s = .next
        { s with txOutstanding := s.txOutstanding - 1, prlTx := { s.prlTx with txCompleteFail := true } } ∧
      exec .tpHardResetSent s = .next
        { s with txOutstanding := s.txOutstanding - 1, prlHr := { s.prlHr with phyHardResetDone := true } }) ∧
    (s.txOutstanding = 0 →
      exec .tpTxCompleteOk s = .refused .noTransmissionOutstanding ∧
      exec .tpTxCompleteFail s = .refused .noTransmissionOutstanding ∧
      exec .tpHardResetSent s = .refused .noTransmissionOutstanding)

/-- R283: an armed, unexpired timer expires; T_WAKE_CEILING's expiry also wakes a waiting loop (R258), whose tick is
`WakeRunsOneTick`'s. That an expiry of T_WAKE_CEILING between WAKE and the tick's first step is accepted, and leaves that
tick to serve for both, is this model's (log 21). -/
def Obligations.TimerExpiryEvents : Prop :=
  ∀ s : State,
    (s.timers.txResponse = Timer.on →
      exec .timerExpireTxResponse s = .next { s with timers := { s.timers with txResponse := ⟨true, true⟩ } }) ∧
    (s.timers.srcCa = Timer.on →
      exec .timerExpireSrcCa s = .next { s with timers := { s.timers with srcCa := ⟨true, true⟩ } }) ∧
    (s.timers.hrComplete = Timer.on →
      exec .timerExpireHrComplete s = .next { s with timers := { s.timers with hrComplete := ⟨true, true⟩ } }) ∧
    (s.timers.chunkResponse = Timer.on →
      exec .timerExpireChunkResponse s = .next
        { s with timers := { s.timers with chunkResponse := ⟨true, true⟩ } }) ∧
    (s.timers.chunkRequest = Timer.on →
      exec .timerExpireChunkRequest s = .next
        { s with timers := { s.timers with chunkRequest := ⟨true, true⟩ } }) ∧
    (s.timers.wakeCeiling = Timer.on →
      exec .timerExpireWakeCeiling s = .next
        { s with
          timers := { s.timers with wakeCeiling := ⟨true, true⟩ }
          loop := if s.loop = .waiting then .tick .start else s.loop }) ∧
    (∀ i t, (i, t) ∈ [(Instr.timerExpireTxResponse, s.timers.txResponse), (.timerExpireSrcCa, s.timers.srcCa),
        (.timerExpireHrComplete, s.timers.hrComplete), (.timerExpireChunkResponse, s.timers.chunkResponse),
        (.timerExpireChunkRequest, s.timers.chunkRequest), (.timerExpireWakeCeiling, s.timers.wakeCeiling)] →
      (t.armed = false → exec i s = .refused .timerNotArmed) ∧
      (t.armed = true → t.expired = true → exec i s = .refused .timerAlreadyExpired))

/-- R284 to R287: the Type-C inputs, in every state. -/
def Obligations.TypeCInputEvents : Prop :=
  ∀ s : State,
    (∀ r, exec (.tcSetPowerRole r) s = .next { s with powerRole := r }) ∧
    (∀ r, exec (.tcSetDataRole r) s = .next { s with dataRole := r }) ∧
    (∀ b, exec (.tcSetFrs b) s = .next { s with frsActive := b }) ∧
    (∀ v, exec (.tcSetCcSinkTx v) s = .next { s with ccSinkTx := v })

/-- "An event only writes flags, latches, input fields or transport-side state; all behaviour happens in ticks": no
event emits anything, moves a machine, or writes a buffer, a cursor or the transmit slot; only the two PE operations
on a variant's revision and IDs write those. -/
def Obligations.EventsOnlySetInputs : Prop :=
  ∀ (i : Instr) (s t : State), isEvent i = true → exec i s = .next t →
    t.trace = s.trace ∧ t.prlTx.state = s.prlTx.state ∧ t.prlHr.state = s.prlHr.state ∧
    t.rch.state = s.rch.state ∧ t.tch.state = s.tch.state ∧
    t.rxBuf = s.rxBuf ∧ t.txBuf = s.txBuf ∧ t.txSlot = s.txSlot ∧ t.txClient = s.txClient ∧ t.txSop = s.txSop ∧
    t.txOwed = s.txOwed ∧
    t.bytesReceived = s.bytesReceived ∧ t.nextExpectedChunk = s.nextExpectedChunk ∧ t.rxTotal = s.rxTotal ∧
    t.sendLen = s.sendLen ∧ t.sendOffset = s.sendOffset ∧ t.nextChunkToSend = s.nextChunkToSend ∧
    t.rpValue = s.rpValue ∧ t.rxEnabled = s.rxEnabled ∧
    ((∀ v r, i ≠ .peSetRevision v r) → t.rev = s.rev) ∧
    ((∀ v, i ≠ .peResetMessageIds v) → t.txCounter = s.txCounter ∧ t.rxRecord = s.rxRecord)

/-! ### PRL-TX -/

/-- R141: submission is one update of the slot, its client and TX_REQUEST; an outcome goes to the client's flag. -/
def Obligations.SubmissionAndReport : Prop :=
  ∀ s : State,
    (∀ c sl, submit c sl s = { s with txSlot := sl, txClient := c, prlTx := { s.prlTx with txRequest := true } }) ∧
    (s.txClient = .tch →
      notify .done s = { s with tch := { s.tch with txDone := true } } ∧
      notify .error s = { s with tch := { s.tch with txError := true } } ∧
      notify .discarded s = { s with tch := { s.tch with txDiscarded := true } }) ∧
    (s.txClient = .rch →
      notify .done s = { s with rch := { s.rch with txDone := true } } ∧
      notify .error s = { s with rch := { s.rch with txError := true } } ∧
      notify .discarded s = { s with rch := { s.rch with txDiscarded := true } })

/-- R143, R144, R145, R154: WaitForMessageRequest, its entry and its run. -/
def Obligations.PrlTxTakesMessage : Prop :=
  ∀ s : State,
    gotoPrlTx .waitForMessageRequest s = afterPrlTxIdle { s with timers := prlTxTimersOff s } ∧
    (s.prlTx.state = .waitForMessageRequest →
      runPrlTx s =
        if s.prlTx.txRequest then
          if s.txSlot.ext = false ∧ s.txSlot.ndo = 0 ∧ s.txSlot.typ = s.params.ctrlSoftReset then
            { s with
              prlTx := { s.prlTx with state := .layerResetForTransmit }
              txCounter := s.txCounter.set s.txSlot.sop 0
              rxRecord := s.rxRecord.set s.txSlot.sop none }
          else if s.txSlot.sop = .plain ∧ s.rev.get .plain = rev30 ∧ s.txClient = .tch ∧ s.nextChunkToSend = 0 then
            if s.powerRole = .source then
              { s with
                prlTx := { s.prlTx with state := .srcCollisionAvoidance }
                rpValue := .ng
                timers := { s.timers with srcCa := Timer.on }
                trace := s.trace ++ [.tpSetRp .ng] }
            else { s with prlTx := { s.prlTx with state := .snkCollisionAvoidance } }
          else afterTransmit s
        else { s with prlTx := { s.prlTx with txCompleteOk := false, txCompleteFail := false } })

/-- R146: a Soft Reset sent by the PE resets its variant's IDs and leaves with message ID 0. -/
def Obligations.SoftResetSentWithIdZero : Prop :=
  ∀ s : State,
    (s.prlTx.state = .layerResetForTransmit → runPrlTx s = afterTransmit s) ∧
    (s.prlTx.state = .waitForMessageRequest → s.prlTx.txRequest = true →
      s.txSlot.ext = false → s.txSlot.ndo = 0 → s.txSlot.typ = s.params.ctrlSoftReset →
      (runPrlTx s).prlTx.state = .layerResetForTransmit ∧
      (runPrlTx s).txCounter.get s.txSlot.sop = 0 ∧
      (runPrlTx s).rxRecord.get s.txSlot.sop = none ∧
      ∃ h ws, (runPrlTx (runPrlTx s)).trace = s.trace ++ [.tpTransmit s.txSlot.sop h ws] ∧ hdrId h = 0 ∧
        hdrType h = s.params.ctrlSoftReset)

/-- R147, R149: collision avoidance, as Source and as Sink. -/
def Obligations.CollisionAvoidance : Prop :=
  ∀ s : State,
    gotoPrlTx .srcCollisionAvoidance s =
      { s with
        prlTx := { s.prlTx with state := .srcCollisionAvoidance }
        rpValue := .ng
        trace := s.trace ++ [.tpSetRp .ng]
        timers := { prlTxTimersOff s with srcCa := Timer.on } } ∧
    (s.prlTx.state = .srcCollisionAvoidance →
      runPrlTx s =
        if s.timers.srcCa.expired then afterTransmit { s with timers := { s.timers with srcCa := Timer.off } } else s) ∧
    (s.prlTx.state = .snkCollisionAvoidance →
      runPrlTx s = if s.frsActive = true ∨ s.ccSinkTx = .ok then afterTransmit s else s)

/-- R150 to R153: WaitForPhyResponse, its entry and its run, in the order of R153. That the run counts for the variant
the entry bound, `txSop`, whatever the slot holds by then, is this model's (log 17), and so is PRL-TX's sub-step counting
what it is owed before its state runs (R339, D55, log 19). -/
def Obligations.TransmissionOutcome : Prop :=
  ∀ s : State,
    gotoPrlTx .waitForPhyResponse s = afterTransmit { s with timers := prlTxTimersOff s } ∧
    (s.prlTx.state = .waitForPhyResponse →
      runPrlTx s =
        if s.prlTx.txCompleteOk then
          notify .done
            { afterResponse s with
              txCounter := s.txCounter.set s.txSop (s.txCounter.get s.txSop + 1) }
        else if s.prlTx.txCompleteFail then notify .error (afterResponse s)
        else if s.timers.txResponse.expired then notify .error (afterResponse s)
        else s) ∧
    (s.txOwed = none → stepPrlTx s = runPrlTx s) ∧
    (∀ v, s.txOwed = some v →
      stepPrlTx s = runPrlTx { s with txCounter := s.txCounter.set v (s.txCounter.get v + 1), txOwed := none })

/-- R142, R155, R156, R160: PhyReset and DiscardMessage, their entries and runs, and the re-arm. -/
def Obligations.PrlTxTransientStates : Prop :=
  ∀ s : State,
    gotoPrlTx .phyReset s = { s with prlTx := ⟨.phyReset, false, false, false⟩, timers := prlTxTimersOff s } ∧
    gotoPrlTx .discardMessage s =
      notify .discarded
        { s with prlTx := ⟨.discardMessage, false, false, false⟩, timers := prlTxTimersOff s } ∧
    rearmPrlTx s = { s with prlTx := ⟨.phyReset, false, false, false⟩, timers := prlTxTimersOff s } ∧
    (s.prlTx.state = .phyReset ∨ s.prlTx.state = .discardMessage → runPrlTx s = afterPrlTxIdle s)

/-- R159, R32: over the whole machine a variant's counter moves only by 1, modulo 8, in PRL-TX's sub-step on a transmission
the transport confirmed, or to 0 by one of the four resets: PE.reset_message_ids on the variant (R276), a Soft Reset
received on it (R123), LayerResetForTransmit entered for it (R146), ResetLayer entered (R172). The variant counted is the
one WaitForPhyResponse's entry bound (log 17). R339, D55: a transmission that is confirmed and not yet stepped is not
discarded: whatever PRL-RX dequeues, PRL-TX's sub-step of the same tick counts it, unless a Soft Reset on its variant
restarts the counter (log 19). -/
def Obligations.CounterOnlyCountsConfirmed : Prop :=
  (∀ (s t : State) (v : Sop), OwedUntilStepped s → step s = .next t →
    t.txCounter.get v = s.txCounter.get v ∨
    (t.txCounter.get v = 0 ∧
      ∃ a bytes rest more, s.inputs = ⟨a, bytes⟩ :: rest ∧ (s.loop = .waiting ∨ a = 0) ∧
        decode s.params (.event bytes) = .ok (.peResetMessageIds v, more)) ∨
    ((∃ later, NoEventFor 1 s later) ∧
      ((s.loop = .tick .prlTx ∧ t.txCounter.get v = s.txCounter.get v + 1 ∧
          ((s.prlTx.state = .waitForPhyResponse ∧ s.prlTx.txCompleteOk = true ∧ v = s.txSop) ∨ s.txOwed = some v)) ∨
        (t.txCounter.get v = 0 ∧
          ((s.loop = .tick .prlRx ∧ s.rch.msgReceived = false ∧ s.tch.msgReceived = false ∧
              ∃ m rest, s.rxq = m :: rest ∧ classify s.params m = .softReset ∧ m.sop = v) ∨
            (s.loop = .tick .prlTx ∧ s.prlTx.state = .waitForMessageRequest ∧ s.prlTx.txRequest = true ∧
              t.prlTx.state = .layerResetForTransmit ∧ s.txSlot.sop = v) ∨
            (s.loop = .tick .prlHr ∧ s.prlHr.state = .waitForRequest ∧ t.prlHr.state = .resetLayer)))))) ∧
  (∀ (s t : State) later, OwedUntilStepped s → s.loop = .tick .prlRx → s.prlTx.state = .waitForPhyResponse →
    s.prlTx.txCompleteOk = true → NoEventFor 4 s later → steps 4 s = .next t →
    t.txCounter.get s.txSop = s.txCounter.get s.txSop + 1 ∨
    (t.txCounter.get s.txSop = 0 ∧ s.rch.msgReceived = false ∧ s.tch.msgReceived = false ∧
      ∃ m rest, s.rxq = m :: rest ∧ classify s.params m = .softReset ∧ m.sop = s.txSop))

/-! ### PRL-HR -/

/-- R171, R172: a Hard Reset request is seen and everything R172 lists is reset; the entry of WaitForRequest clears
the four flags. -/
def Obligations.HardResetEntered : Prop :=
  ∀ s : State,
    (s.prlHr.state = .waitForRequest →
      runPrlHr s =
        if s.prlHr.peHardReset = true ∨ s.prlHr.portPartnerHardReset = true then
          { s with
            prlHr := { s.prlHr with state := .resetLayer }
            txCounter := PerSop.fill 0
            rxRecord := PerSop.fill none
            rev := PerSop.fill s.params.revDefault
            prlTx := ⟨s.prlTx.state, false, false, false⟩
            rch := ⟨s.rch.state, false, false, false, false, false, false⟩
            tch := ⟨s.tch.state, false, false, false, false, false, false⟩
            rxEnabled := false
            trace := s.trace ++ [.tpSetRxEnable false] }
        else s) ∧
    (s.prlHr.state ≠ .waitForPhyHardResetComplete →
      gotoPrlHr .waitForRequest s = { s with prlHr := ⟨.waitForRequest, false, false, false, false⟩ })

/-- R173, R174: the partner's and the local path, and the end of the wait for the transport. -/
def Obligations.HardResetPaths : Prop :=
  ∀ s : State,
    (s.prlHr.state = .resetLayer →
      runPrlHr s =
        if s.prlHr.portPartnerHardReset then
          { s with
            prlHr := { s.prlHr with state := .waitForPeHardResetComplete }
            trace := s.trace ++ [.peGotHardReset] }
        else
          { s with
            prlHr := { s.prlHr with state := .waitForPhyHardResetComplete }
            txOutstanding := s.txOutstanding + 1
            trace := s.trace ++ [.tpTransmitHardReset]
            timers := { s.timers with hrComplete := Timer.on } }) ∧
    (s.prlHr.state = .waitForPhyHardResetComplete →
      runPrlHr s =
        if s.prlHr.phyHardResetDone = true ∨ s.timers.hrComplete.expired = true then
          { s with
            prlHr := { s.prlHr with state := .waitForPeHardResetComplete, phyHardResetDone := false }
            trace := s.trace ++ [.peHardResetSent]
            timers := { s.timers with hrComplete := Timer.off } }
        else s)

/-- R175, R177: the PE's answer ends the Hard Reset: PRL-TX, RCH and TCH are re-armed (R160, R210, R240) and receive
is enabled. -/
def Obligations.HardResetFinalExit : Prop :=
  ∀ s : State, s.prlHr.state = .waitForPeHardResetComplete →
    runPrlHr s =
      if s.prlHr.peHardResetDone then
        { s with
          prlHr := ⟨.waitForRequest, false, false, false, false⟩
          prlTx := ⟨.phyReset, false, false, false⟩
          rch := ⟨.waitForMessage, false, false, false, false, false, false⟩
          tch := ⟨.waitForRequestFromPe, false, false, false, false, false, false⟩
          bytesReceived := 0
          nextExpectedChunk := 0
          rxTotal := 0
          sendLen := 0
          sendOffset := 0
          nextChunkToSend := 0
          sendChunkLen := 0
          rxEnabled := true
          timers :=
            { prlTxTimersOff s with
              chunkResponse := if s.rch.state = .waitingChunk then Timer.off else s.timers.chunkResponse
              chunkRequest := if s.tch.state = .waitChunkRequest then Timer.off else s.timers.chunkRequest }
          trace := s.trace ++ [.tpSetRxEnable true] }
      else s

/-- R253, R310: while PRL-HR is not idle no message is queued or dequeued, nothing but PRL-HR's own emits appears, and
IDs and revisions stand at their reset values. R178, after the final exit too: a counter that is 0 stays 0 until a
transmission completes, and a record that is NONE and a revision that is REV_DEFAULT stay so, no component and no event
writing them, but for the two writes that R33 and R34 name: the ID of a message accepted on the variant (R127; V-HR-6 has
it before any transmission) and PE.set_revision, enabled once PRL-HR is idle (R275), where R178's derived sentence makes
no exception for them: the model's choice (log 23). -/
def Obligations.HardResetPreempts : Prop :=
  (∀ s t : State, Inv s → s.prlHr.state ≠ .waitForRequest → step s = .next t →
    t.rxq = s.rxq ∧
    countEmits (fun e => !isHardResetEmit e) t.trace = countEmits (fun e => !isHardResetEmit e) s.trace ∧
    ∀ v, t.txCounter.get v = 0 ∧ t.rxRecord.get v = none ∧ t.rev.get v = s.params.revDefault) ∧
  (∀ (s t : State) (v : Sop), OwedUntilStepped s → step s = .next t →
    (s.txCounter.get v = 0 →
      t.txCounter.get v = 0 ∨
      ((∃ later, NoEventFor 1 s later) ∧ s.loop = .tick .prlTx ∧ t.txCounter.get v = 1 ∧
        ((s.prlTx.state = .waitForPhyResponse ∧ s.prlTx.txCompleteOk = true ∧ v = s.txSop) ∨ s.txOwed = some v))) ∧
    (s.rxRecord.get v = none →
      t.rxRecord.get v = none ∨
      ((∃ later, NoEventFor 1 s later) ∧ s.loop = .tick .prlRx ∧ s.rch.msgReceived = false ∧ s.tch.msgReceived = false ∧
        ∃ m rest, s.rxq = m :: rest ∧ m.sop = v ∧ classify s.params m ≠ .malformedExt ∧
          classify s.params m ≠ .softReset ∧ t.rxRecord.get v = some (hdrId m.hdr))) ∧
    (s.rev.get v = s.params.revDefault →
      t.rev.get v = s.params.revDefault ∨
      (s.prlHr.state = .waitForRequest ∧
        ∃ a bytes rest more r, s.inputs = ⟨a, bytes⟩ :: rest ∧ (s.loop = .waiting ∨ a = 0) ∧
          decode s.params (.event bytes) = .ok (.peSetRevision v r, more) ∧ t.rev.get v = r)))

/-! ### RCH -/

/-- R193, R200, R202, R205: WaitForMessage, its entry and its run: what becomes of a latched message. -/
def Obligations.RchTakesMessage : Prop :=
  ∀ s : State,
    gotoRch .waitForMessage s =
      afterRchIdle
        { s with
          timers :=
            { s.timers with
              chunkResponse := if s.rch.state = .waitingChunk then Timer.off else s.timers.chunkResponse } } ∧
    (s.rch.state = .waitForMessage → s.rch.passInterrupting = false →
      let s0 : State := { s with rch := ⟨.waitForMessage, false, false, false, false, false, false⟩ }
      let m := s.rchMsg
      runRch s = .next
        (if s.rch.msgReceived = false then s0
        else if classify s.params m = .extChunkRequest then s0
        else if hdrExt m.hdr = false then afterPassUp (.whole (whole m)) s0
        else if classify s.params m = .extChunk ∧ s.params.chunking = true then
          { s0 with
            rch := { s0.rch with state := .processingExtendedMessage }
            rchCur := m
            rxSop := m.sop
            rxHdr := m.hdr }
        else if classify s.params m = .extUnchunked ∧ s.params.chunking = false then
          afterPassUp (.whole (whole m)) s0
        else afterRchError .chunkMismatch m.sop s0))

/-- R194, R195, R206: ProcessingExtendedMessage: abort, sequence error, overflow, or the chunk appended and the message
handed up or the next chunk requested (R198, entry). The fault where a transmission is pending is the treatment that
93_implementation_defined Part 1 gives R198's assertion (log 14). -/
def Obligations.RchProcessesChunk : Prop :=
  ∀ s : State, s.rch.state = .processingExtendedMessage → s.rch.passInterrupting = false →
    let x := xhDecode s.params.extHdrLayout ((s.rchCur.words.headD 0).extractLsb' 0 16)
    let total := if x.chunkNumber = 0 then x.dataSize.toNat else s.rxTotal
    let n := min 26 (min (total - s.bytesReceived) (4 * (hdrNdo s.rchCur.hdr).toNat - 2))
    let s1 : State :=
      { s with
        rxTotal := total
        rxBuf := s.rxBuf.bufWrite s.bytesReceived (((dataArea s.rchCur.words).drop 2).take n)
        bytesReceived := s.bytesReceived + n
        nextExpectedChunk := s.nextExpectedChunk + 1 }
    runRch s =
      if s.rch.abort then .next (afterRchIdle s)
      else if x.chunkNumber.toNat ≠ s.nextExpectedChunk then .next (afterRchError .chunkSequence s.rxSop s)
      else if x.chunkNumber = 0 ∧ s.params.maxExtMsgBytes < total then
        .next (afterRchError .rchOverflow s.rxSop { s with rxTotal := total })
      else if total ≤ s.bytesReceived + n then
        .next (afterPassUp (.reassembled s.rxSop s.rxHdr total (s1.rxBuf.bufRead 0 total)) s1)
      else if txPending s then .fault .rchSubmitWhileTxPending
      else .next
        { s1 with
          rch := { s.rch with state := .requestingChunk }
          txSlot := ⟨s.rxSop, hdrType s.rxHdr, 1, true,
            [(xhEncode s.params.extHdrLayout 0 true true (s.nextExpectedChunk + 1)).setWidth 32]⟩
          txClient := .rch
          prlTx := { s.prlTx with txRequest := true } }

/-- R195, R71: the bytes of a chunk land in the reassembly buffer at the offset reached so far; every other byte of
the buffer is unchanged. -/
def Obligations.ChunkBytesStored : Prop :=
  ∀ (m : Msg) (s : State), m.words.length = (hdrNdo m.hdr).toNat → s.rxBuf.wf = true →
    let n := min 26 (min (s.rxTotal - s.bytesReceived) (4 * (hdrNdo m.hdr).toNat - 2))
    let t := appendChunk m s
    t.rxBuf.wf = true ∧ t.bytesReceived = s.bytesReceived + n ∧
    ∀ i, t.rxBuf.read i =
      if s.bytesReceived ≤ i ∧ i < s.bytesReceived + n then
        (dataArea m.words).getD (2 + (i - s.bytesReceived)) 0
      else s.rxBuf.read i

/-- R192, R198 (run), R206: RequestingChunk. An outcome left latched from an earlier request is taken as this one's
(log 18). -/
def Obligations.RchRequestsChunk : Prop :=
  ∀ s : State, s.rch.state = .requestingChunk → s.rch.passInterrupting = false →
    let rejected : State := { s with rch := { s.rch with txDiscarded := false, msgReceived := false } }
    runRch s = .next
      (if s.rch.abort then afterRchIdle s
      else if s.rch.txDone then
        { s with
          rch := { s.rch with state := .waitingChunk, txDone := false }
          timers := { s.timers with chunkResponse := Timer.on } }
      else if s.rch.txError then
        afterRchError .txFailed s.rxSop { s with rch := { s.rch with txError := false } }
      else if s.rch.txDiscarded then
        if s.rch.msgReceived then afterInterrupt s.rchMsg rejected
        else afterRchError .chunkSequence s.rxSop rejected
      else s)

/-- R201, R203, R204, R206, R207: WaitingChunk, its entry and its run: a chunk on the variant is processed, any other
message ends the reassembly (an ordinary one passed up first), and so does the timeout. -/
def Obligations.RchWaitsForChunk : Prop :=
  ∀ s : State,
    gotoRch .waitingChunk s =
      { s with
        rch := { s.rch with state := .waitingChunk }
        timers := { s.timers with chunkResponse := Timer.on } } ∧
    (s.rch.state = .waitingChunk → s.rch.passInterrupting = false →
      let quiet : State := { s with timers := { s.timers with chunkResponse := Timer.off } }
      let taken : State := { quiet with rch := { s.rch with msgReceived := false } }
      runRch s = .next
        (if s.rch.abort then afterRchIdle quiet
        else if s.rch.msgReceived then
          if classify s.params s.rchMsg = .extChunk ∧ s.rchMsg.sop = s.rxSop then
            { taken with rch := { taken.rch with state := .processingExtendedMessage }, rchCur := s.rchMsg }
          else afterInterrupt s.rchMsg taken
        else if s.timers.chunkResponse.expired then afterRchError .chunkTimeout s.rxSop quiet
        else s))

/-- R211: the chunks a sender builds from its buffer, delivered in order, are handed up as exactly the sender's
bytes. -/
def Obligations.ChunkRoundTrip : Prop :=
  ∀ (a s : State) (v : Sop) (hdr : Nat → Half),
    a.params.extHdrLayout = s.params.extHdrLayout → a.sendLen ≤ 416 → a.sendLen ≤ s.params.maxExtMsgBytes →
    s.params.chunking = true → s.rxBuf.wf = true →
    s.rch = ⟨.waitForMessage, false, false, false, false, false, false⟩ →
    s.bytesReceived = 0 → s.nextExpectedChunk = 0 →
    s.prlTx = ⟨.waitForMessageRequest, false, false, false⟩ →
    let chunk (k : Nat) : TxSlot := chunkSlot { a with sendOffset := 26 * k, nextChunkToSend := k }
    (∀ k, hdrExt (hdr k) = true ∧ hdrNdo (hdr k) = (chunk k).ndo) →
    ∃ t, receiveChunks ((List.range (chunkCount a.sendLen)).map fun k => ⟨v, hdr k, (chunk k).words⟩) s = .next t ∧
      t.rch.state = .passUpMessage ∧
      t.trace = s.trace ++
        [.peMessageReceived (.reassembled v (hdr 0) a.sendLen (a.txBuf.bufRead 0 a.sendLen))]

/-! ### TCH -/

/-- R221, R222, R233 (forward), R236, R237: WaitForRequestFromPe, its entry and its run. `s0` has the stale flags
cleared, `s1` the request taken. The fault where RCH's latch is full is the treatment that 93_implementation_defined
Part 1 gives R233's assertion (log 14). -/
def Obligations.TchTakesRequest : Prop :=
  ∀ s : State,
    gotoTch .waitForRequestFromPe s =
      afterTchIdle
        { s with
          timers :=
            { s.timers with
              chunkRequest := if s.tch.state = .waitChunkRequest then Timer.off else s.timers.chunkRequest } } ∧
    (s.tch.state = .waitForRequestFromPe →
      let s0 : State :=
        { s with tch := ⟨.waitForRequestFromPe, s.tch.msgRequest, s.tch.msgReceived, false, false, false, false⟩ }
      let r := s.peReq
      let s1 : State :=
        { s0 with
          tch := { s0.tch with msgRequest := false }
          sendSop := r.sop
          sendType := r.typ
          nextChunkToSend := 0 }
      runTch s =
        if s.tch.msgReceived then
          if s.rch.msgReceived then .fault .forwardWhileRchLatchFull
          else .next
            { s0 with
              rchMsg := s.tchMsg
              rch := { s.rch with msgReceived := true }
              tch := { s0.tch with msgReceived := false } }
        else if s.tch.msgRequest = true ∧ s.rch.state = .waitForMessage ∧ s.rch.msgReceived = false ∧
            txPending s = false then
          .next
            (match r.kind with
            | .ctrl => afterTchSubmit .waitForTransmissionComplete ⟨r.sop, r.typ, 0, false, []⟩ s1
            | .data =>
              afterTchSubmit .waitForTransmissionComplete
                ⟨r.sop, r.typ, BitVec.ofNat 3 r.ndo, false, r.words.take r.ndo⟩ s1
            | .ext =>
              if s.rev.get r.sop = rev30 ∧ s.params.chunking = true then
                { s1 with
                  tch := { s1.tch with state := .constructChunkedMessage }
                  txBuf := s.txBuf.bufWrite 0 (r.bytes.take r.len)
                  sendLen := r.len
                  sendOffset := 0 }
              else if r.len ≤ 26 then
                afterTchSubmit .waitForTransmissionComplete
                  ⟨r.sop, r.typ, BitVec.ofNat 3 ((2 + r.len + 3) / 4), true,
                    packExt (xhEncode s.params.extHdrLayout r.len false false 0) (r.bytes.take r.len)⟩ s1
              else afterTchError .txFailed r.sop s1)
        else .next s0)

/-- R223, R231, R233 (entry), R234: ConstructChunkedMessage: abort, preemption, or the next chunk submitted. The fault
where RCH's latch is full is the treatment that 93_implementation_defined Part 1 gives R233's assertion (log 14). -/
def Obligations.TchBuildsChunk : Prop :=
  ∀ s : State, s.tch.state = .constructChunkedMessage →
    let len := min 26 (s.sendLen - s.sendOffset)
    runTch s =
      if s.tch.abort then .next (afterTchIdle s)
      else if s.tch.msgReceived then
        if s.rch.msgReceived then .fault .forwardWhileRchLatchFull else .next (afterPreempted s)
      else .next
        (afterTchSubmit .sendingChunkedMessage
          ⟨s.sendSop, s.sendType, BitVec.ofNat 3 ((2 + len + 3) / 4), true,
            packExt (xhEncode s.params.extHdrLayout s.sendLen true false s.nextChunkToSend)
              (s.txBuf.bufRead s.sendOffset len)⟩
          { s with sendChunkLen := len })

/-- R98, R224, R225: chunk k of a message of S bytes carries S, its own number and the bytes from 26k on, in as many
words as its header counts, at most 7; the padding is zero. -/
def Obligations.ChunkCarriesItsSlice : Prop :=
  ∀ (s : State) (k : Nat), s.nextChunkToSend = k → k ≤ 15 → s.sendOffset = 26 * k → s.sendLen ≤ 511 →
    let sl := chunkSlot s
    let len := min 26 (s.sendLen - 26 * k)
    let x := xhDecode s.params.extHdrLayout ((sl.words.headD 0).extractLsb' 0 16)
    sl.sop = s.sendSop ∧ sl.typ = s.sendType ∧ sl.ext = true ∧
    sl.words.length = sl.ndo.toNat ∧ sl.ndo.toNat = (2 + len + 3) / 4 ∧ 1 ≤ sl.ndo.toNat ∧ sl.ndo.toNat ≤ 7 ∧
    x = ⟨BitVec.ofNat 9 s.sendLen, true, false, BitVec.ofNat 4 k⟩ ∧
    ∃ pad, (dataArea sl.words).drop 2 =
      (List.range len).map (fun i => s.txBuf.read (26 * k + i)) ++ List.replicate pad 0

/-- R226, R228, R230, R232: the two states that wait for PRL-TX's outcome. An outcome left latched from an earlier
message is taken as this one's (log 24). The fault where RCH's latch is full is the
treatment that 93_implementation_defined Part 1 gives R233's assertion (log 14). -/
def Obligations.TchRelaysOutcome : Prop :=
  ∀ s : State, s.tch.state = .sendingChunkedMessage ∨ s.tch.state = .waitForTransmissionComplete →
    let confirmed : State := { s with tch := { s.tch with txDone := false } }
    let advanced : State :=
      { confirmed with sendOffset := s.sendOffset + s.sendChunkLen, nextChunkToSend := s.nextChunkToSend + 1 }
    let failed : State := { s with tch := { s.tch with txError := false } }
    runTch s =
      if s.tch.txDone then
        .next
          (if s.tch.state = .waitForTransmissionComplete then afterSent confirmed
          else if s.sendLen ≤ s.sendOffset + s.sendChunkLen then afterSent advanced
          else
            { advanced with
              tch := { advanced.tch with state := .waitChunkRequest }
              timers := { s.timers with chunkRequest := Timer.on } })
      else if s.tch.txError then .next (afterTchError .txFailed s.sendSop failed)
      else if s.tch.txDiscarded then
        if s.tch.msgReceived then
          if s.rch.msgReceived then .fault .forwardWhileRchLatchFull else .next (afterPreempted s)
        else .next (afterTchIdle { s with trace := s.trace ++ [.peReportDiscard] })
      else .next s

/-- R229, R230, R231, R234: WaitChunkRequest, its entry and its run: the expected request, a wrong one, any other
message, the timeout. A transmit outcome that reaches it stays latched (log 24). The fault where RCH's latch is full is
the treatment that 93_implementation_defined Part 1 gives R233's assertion (log 14). -/
def Obligations.TchAnswersChunkRequest : Prop :=
  ∀ s : State,
    gotoTch .waitChunkRequest s =
      { s with
        tch := { s.tch with state := .waitChunkRequest }
        timers := { s.timers with chunkRequest := Timer.on } } ∧
    (s.tch.state = .waitChunkRequest →
      let quiet : State := { s with timers := { s.timers with chunkRequest := Timer.off } }
      let taken : State := { quiet with tch := { s.tch with msgReceived := false } }
      runTch s =
        if s.tch.abort then .next (afterTchIdle quiet)
        else if s.tch.msgReceived then
          if classify s.params s.tchMsg = .extChunkRequest ∧ s.tchMsg.sop = s.sendSop then
            .next
              (if (msgXHdr s.params s.tchMsg).chunkNumber.toNat = s.nextChunkToSend then
                { taken with tch := { taken.tch with state := .constructChunkedMessage } }
              else afterTchError .tchUnexpected s.sendSop taken)
          else if s.rch.msgReceived then .fault .forwardWhileRchLatchFull
          else .next (afterPreempted quiet)
        else if s.timers.chunkRequest.expired then .next (afterSent quiet)
        else .next s)

/-! ### Errors -/

/-- R300, R303, R306, R207: raising an error records the kind and the variant and emits exactly one report, after the
interrupting message if one is to be passed up; the machine's next run returns it to idle and emits nothing. -/
def Obligations.ErrorReportedOnce : Prop :=
  ∀ (kind : ErrKind) (v : Sop) (s : State),
    (let t := raiseErr .rch kind v s
     t.rchErr = kind ∧ t.rxSop = v ∧ t.rch.state = .reportError ∧ t.rch.passInterrupting = false ∧
     t.trace = s.trace ++
       (if s.rch.passInterrupting then [.peMessageReceived s.rchOut, .peReportError kind v]
        else [.peReportError kind v]) ∧
     runRch t = .next (afterRchIdle t)) ∧
    (let t := raiseErr .tch kind v s
     t.tchErr = kind ∧ t.sendSop = v ∧ t.tch.state = .reportError ∧
     t.trace = s.trace ++ [.peReportError kind v] ∧
     runTch t = .next (afterTchIdle t))

/-- R205, R230, R233, R306: the one-invocation states return to idle and emit nothing. -/
def Obligations.TransientStatesReturnToIdle : Prop :=
  ∀ s : State,
    (s.rch.state = .passUpMessage ∨ s.rch.state = .reportError → runRch s = .next (afterRchIdle s)) ∧
    (s.tch.state = .messageSent ∨ s.tch.state = .reportError ∨ s.tch.state = .messageReceived →
      runTch s = .next (afterTchIdle s))

/-! ### The whole machine -/

/-- Every step keeps the invariant: R54, the ranges of R35, R36, R196 and R225, timer ownership (R259), the Hard Reset
conditions (R172, R178, R253), the sharing of the latches, and the canonical form of both buffers. Every step also keeps
a confirmation owed only until PRL-TX's sub-step of the tick in which PRL-RX forced PRL-TX off it (R339, log 19). -/
def Obligations.InvariantKept : Prop :=
  (∀ s t : State, Inv s → step s = .next t → Inv t) ∧
  (∀ s t : State, OwedUntilStepped s → step s = .next t → OwedUntilStepped t)

/-- Parameters never change (R53), and the trace only grows (R51). -/
def Obligations.ParametersFixedTraceGrows : Prop :=
  ∀ s t : State, step s = .next t → t.params = s.params ∧ ∃ l, t.trace = s.trace ++ l

/-- R11, R264: a port's step changes that port alone, and the steps of two ports commute. -/
def Obligations.PortsIndependent : Prop :=
  ∀ (p : Nat) (ps qs : Ports), stepPort p ps = .next qs →
    qs.length = ps.length ∧ (∀ q, q ≠ p → qs[q]? = ps[q]?) ∧
    (∃ s t, ps[p]? = some s ∧ step s = .next t ∧ qs[p]? = some t) ∧
    (∀ q rs, q ≠ p → stepPort q qs = .next rs → ∃ us, stepPort q ps = .next us ∧ stepPort p us = .next rs)

/-- R158, R148, R150: over the whole machine, a message is transmitted only by entering WaitForPhyResponse, with the
ID its variant's counter holds; and the variant whose counter a confirmation will count (log 17) changes only with a
transmission, whatever becomes of the slot. This and `CounterOnlyCountsConfirmed` are what the model says of R158, not
the whole of it: PE.reset_message_ids while a message is in flight lets its confirmation count from 0 (log 19), and a
completion misattributed by R342 is counted for the transmission it is taken for. -/
def Obligations.TransmittedIdFollowsCounter : Prop :=
  ∀ s t : State, OwedUntilStepped s → step s = .next t →
    ∃ l, t.trace = s.trace ++ l ∧
      (∀ v h ws, .tpTransmit v h ws ∈ l →
        s.prlTx.state ≠ .waitForPhyResponse ∧ t.prlTx.state = .waitForPhyResponse ∧ t.txSop = v ∧
        hdrId h = s.txCounter.get v ∧ t.txCounter = s.txCounter) ∧
      ((∀ v h ws, .tpTransmit v h ws ∉ l) → t.txSop = s.txSop)

end
end

