-- ==== Sys2Proof/Laws/Bytes.lean ====
section
/-! SUPPORT. Laws of the formats: bytes and words (R71), the extended header (R96), chunk geometry (R98), classes
(R100). -/

namespace Sys2Proof.Machine

/-! ### Words, halves and bytes -/

theorem shiftLeft_or (a n b : Nat) (h : b < 2 ^ n) : a <<< n ||| b = a * 2 ^ n + b := by
  rw [Nat.shiftLeft_eq, Nat.mul_comm, ← Nat.two_pow_add_eq_or_of_lt h]

theorem halfOfBytes_toNat (b0 b1 : Byte) : (halfOfBytes b0 b1).toNat = b1.toNat * 256 + b0.toNat := by
  rw [halfOfBytes, BitVec.toNat_append, shiftLeft_or _ _ _ b0.isLt]; rfl

theorem wordOfBytes_toNat (b0 b1 b2 b3 : Byte) :
    (wordOfBytes b0 b1 b2 b3).toNat = b3.toNat * 2 ^ 24 + b2.toNat * 2 ^ 16 + b1.toNat * 2 ^ 8 + b0.toNat := by
  have h0 := b0.isLt
  have h1 := b1.isLt
  have h2 := b2.isLt
  simp only [wordOfBytes, BitVec.toNat_append]
  repeat rw [shiftLeft_or _ _ _ (by omega)]
  omega

@[simp] theorem extractByte_toNat {n : Nat} (w : BitVec n) (i : Nat) :
    (w.extractLsb' i 8).toNat = w.toNat / 2 ^ i % 256 := by
  simp [BitVec.extractLsb'_toNat, Nat.shiftRight_eq_div_pow]

/-- A half from its own two bytes. -/
@[simp] theorem halfOfBytes_extract (h : Half) : halfOfBytes (h.extractLsb' 0 8) (h.extractLsb' 8 8) = h := by
  apply BitVec.eq_of_toNat_eq
  have := h.isLt
  rw [halfOfBytes_toNat, extractByte_toNat, extractByte_toNat]
  omega

/-- A word from its own four bytes. -/
@[simp] theorem wordOfBytes_extract (w : Word) :
    wordOfBytes (w.extractLsb' 0 8) (w.extractLsb' 8 8) (w.extractLsb' 16 8) (w.extractLsb' 24 8) = w := by
  apply BitVec.eq_of_toNat_eq
  have := w.isLt
  rw [wordOfBytes_toNat]
  simp only [extractByte_toNat]
  omega

/-- The bytes of a half made of two bytes. -/
@[simp] theorem halfBytes_halfOfBytes (b0 b1 : Byte) : halfBytes (halfOfBytes b0 b1) = [b0, b1] := by
  have h0 := b0.isLt
  have h1 := b1.isLt
  simp only [halfBytes, List.cons.injEq, and_true]
  constructor <;> apply BitVec.eq_of_toNat_eq <;> rw [extractByte_toNat, halfOfBytes_toNat] <;> omega

/-- The bytes of a word made of four bytes. -/
@[simp] theorem wordBytes_wordOfBytes (b0 b1 b2 b3 : Byte) : wordBytes (wordOfBytes b0 b1 b2 b3) = [b0, b1, b2, b3] := by
  have h0 := b0.isLt
  have h1 := b1.isLt
  have h2 := b2.isLt
  have h3 := b3.isLt
  simp only [wordBytes, List.cons.injEq, and_true]
  refine ⟨?_, ?_, ?_, ?_⟩ <;> apply BitVec.eq_of_toNat_eq <;> rw [extractByte_toNat, wordOfBytes_toNat] <;> omega

@[simp] theorem dataArea_nil : dataArea [] = [] := rfl

@[simp] theorem dataArea_cons (w : Word) (ws : List Word) : dataArea (w :: ws) = wordBytes w ++ dataArea ws := rfl

@[simp] theorem length_wordBytes (w : Word) : (wordBytes w).length = 4 := rfl

@[simp] theorem length_halfBytes (h : Half) : (halfBytes h).length = 2 := rfl

/-- A data area has four bytes a word. -/
@[simp] theorem length_dataArea (ws : List Word) : (dataArea ws).length = 4 * ws.length := by
  induction ws with
  | nil => rfl
  | cons w ws ih => rw [dataArea_cons, List.length_append, ih, length_wordBytes, List.length_cons]; omega

/-- The words of a data area are the words it was made of. -/
@[simp] theorem wordsOfArea_dataArea (ws : List Word) : wordsOfArea (dataArea ws) = ws := by
  induction ws with
  | nil => rfl
  | cons w ws ih => rw [dataArea_cons, wordBytes]; simp only [List.cons_append, List.nil_append, wordsOfArea, ih,
      wordOfBytes_extract]

/-- As many words as the bytes need. -/
@[simp] theorem length_wordsOfArea : ∀ bs : List Byte, (wordsOfArea bs).length = (bs.length + 3) / 4
  | [] => rfl
  | [_] => by simp [wordsOfArea]
  | [_, _] => by simp [wordsOfArea]
  | [_, _, _] => by simp [wordsOfArea]
  | _ :: _ :: _ :: _ :: rest => by
    simp only [wordsOfArea, List.length_cons, length_wordsOfArea rest]
    omega

/-- The data area of packed bytes is the bytes, then zeros up to a whole word (R98). -/
theorem dataArea_wordsOfArea : ∀ bs : List Byte,
    dataArea (wordsOfArea bs) = bs ++ List.replicate (4 * ((bs.length + 3) / 4) - bs.length) 0
  | [] => rfl
  | [b0] => by simp [wordsOfArea, List.replicate]
  | [b0, b1] => by simp [wordsOfArea, List.replicate]
  | [b0, b1, b2] => by simp [wordsOfArea]
  | b0 :: b1 :: b2 :: b3 :: rest => by
    have ih := dataArea_wordsOfArea rest
    have : 4 * ((rest.length + 1 + 1 + 1 + 1 + 3) / 4) - (rest.length + 1 + 1 + 1 + 1) =
        4 * ((rest.length + 3) / 4) - rest.length := by omega
    simp only [wordsOfArea, dataArea_cons, wordBytes_wordOfBytes, ih, List.length_cons, this, List.cons_append,
      List.nil_append]

/-! ### Packed extended messages (R222) -/

/-- The number of words of a packed extended message. -/
@[simp] theorem length_packExt (x : Half) (bs : List Byte) : (packExt x bs).length = ndoOfLen bs.length := by
  simp only [packExt, ndoOfLen, length_wordsOfArea, List.length_append, length_halfBytes]

/-- The extended header stands in the low half of the first word. -/
theorem packExt_xh (x : Half) (bs : List Byte) : ((packExt x bs).headD 0).extractLsb' 0 16 = x := by
  have hx : ∀ c d : Byte, (wordOfBytes (x.extractLsb' 0 8) (x.extractLsb' 8 8) c d).extractLsb' 0 16 = x := by
    intro c d
    apply BitVec.eq_of_toNat_eq
    have := x.isLt
    rw [BitVec.extractLsb'_toNat, Nat.shiftRight_eq_div_pow, wordOfBytes_toNat, extractByte_toNat, extractByte_toNat]
    omega
  unfold packExt halfBytes
  match bs with
  | [] => exact hx _ _
  | [_] => exact hx _ _
  | _ :: _ :: _ => exact hx _ _

/-- The payload of a packed extended message: its bytes, then zeros. -/
theorem packExt_payload (x : Half) (bs : List Byte) :
    (dataArea (packExt x bs)).drop 2 = bs ++ List.replicate (4 * ndoOfLen bs.length - (2 + bs.length)) 0 := by
  unfold packExt
  rw [dataArea_wordsOfArea, List.append_assoc, List.drop_left' (length_halfBytes x)]
  simp only [List.length_append, length_halfBytes, ndoOfLen]

/-- A chunk's data-object count fits the header's three bits (R98). -/
theorem ndoOfLen_le (n : Nat) (h : n ≤ maxChunkBytes) : 1 ≤ ndoOfLen n ∧ ndoOfLen n ≤ 7 := by
  unfold ndoOfLen maxChunkBytes at *
  omega

/-! ### The extended header (R96) -/

/-- A bit of a vector as arithmetic on its number. -/
theorem getLsbD_eq_decide {w : Nat} (x : BitVec w) (i : Nat) : x.getLsbD i = decide (x.toNat / 2 ^ i % 2 = 1) := by
  rw [← BitVec.testBit_toNat, Nat.testBit_eq_decide_div_mod_eq]

/-- An encoded extended header as a number: its fields at the places of its layout. -/
theorem xhEncode_toNat (l : ExtHdrLayout) (size n : Nat) (c r : Bool) :
    (xhEncode l size c r n).toNat =
      match l with
      | .doc => n % 16 * 2 ^ 12 + r.toNat * 2 ^ 11 + c.toNat * 2 ^ 10 + size % 512
      | .pd30 => c.toNat * 2 ^ 15 + n % 16 * 2 ^ 11 + r.toNat * 2 ^ 10 + size % 512 := by
  have hc : c.toNat < 2 := by cases c <;> decide
  have hr : r.toNat < 2 := by cases r <;> decide
  cases l <;> simp only [xhEncode, BitVec.toNat_append, BitVec.toNat_ofNat, BitVec.toNat_ofBool] <;>
    (repeat rw [shiftLeft_or _ _ _ (by omega)]) <;> omega

/-- Decoding an encoded extended header gives the fields back, cut to their widths. -/
theorem xhDecode_xhEncode (l : ExtHdrLayout) (size n : Nat) (c r : Bool) :
    xhDecode l (xhEncode l size c r n) = ⟨BitVec.ofNat 9 size, c, r, BitVec.ofNat 4 n⟩ := by
  have e := xhEncode_toNat l size n c r
  have hc : c = decide (c.toNat = 1) := by cases c <;> decide
  have hr : r = decide (r.toNat = 1) := by cases r <;> decide
  have hc2 : c.toNat < 2 := by cases c <;> decide
  have hr2 : r.toNat < 2 := by cases r <;> decide
  cases l <;> simp only at e <;> simp only [xhDecode, XHdr.mk.injEq, getLsbD_eq_decide, e] <;>
    refine ⟨BitVec.eq_of_toNat_eq ?_, ?_, ?_, BitVec.eq_of_toNat_eq ?_⟩
  case doc.refine_2 | pd30.refine_2 =>
    conv_rhs => rw [hc]
    simp only [decide_eq_decide]
    omega
  case doc.refine_3 | pd30.refine_3 =>
    conv_rhs => rw [hr]
    simp only [decide_eq_decide]
    omega
  all_goals
    simp only [BitVec.extractLsb'_toNat, BitVec.toNat_ofNat, e, Nat.shiftRight_eq_div_pow]
    omega

/-! ### Classes (R100) -/

/-- The extended bit of a message, read off its class. -/
theorem classify_ext (p : Params) (m : Msg) :
    hdrExt m.hdr = true ↔ classify p m = .malformedExt ∨ classify p m = .extChunkRequest ∨
      classify p m = .extChunk ∨ classify p m = .extUnchunked := by
  unfold classify
  split_ifs <;> simp_all

/-- A chunk carries at least one data word. -/
theorem classify_extChunk_ndo (p : Params) (m : Msg) (h : classify p m = .extChunk) : 1 ≤ msgNdo m := by
  unfold classify at h
  split_ifs at h with h1 h2
  rw [msgNdo]
  have : (hdrNdo m.hdr).toNat ≠ 0 := fun h0 => h2 (BitVec.eq_of_toNat_eq h0)
  omega

end Sys2Proof.Machine
end

