-- ==== Sys2Proof/Laws/Memory.lean ====
section
/-! SUPPORT. Laws of the byte buffers: read after write, the frame of a write, and the canonical form kept by every
memory operation. -/

namespace Sys2Proof.Machine

@[simp] theorem Memory.read_nil (x : Nat) : Memory.read [] x = Memory.unlisted := rfl

@[simp] theorem Memory.bufRead_zero (m : Memory) (off : Nat) : m.bufRead off 0 = [] := rfl

@[simp] theorem Memory.bufRead_succ (m : Memory) (off n : Nat) :
    m.bufRead off (n + 1) = m.read off :: m.bufRead (off + 1) n := rfl

@[simp] theorem Memory.bufWrite_nil (m : Memory) (off : Nat) : m.bufWrite off [] = m := rfl

@[simp] theorem Memory.bufWrite_cons (m : Memory) (off : Nat) (b : Byte) (bs : List Byte) :
    m.bufWrite off (b :: bs) = (m.write off b).bufWrite (off + 1) bs := rfl

@[simp] theorem Memory.length_bufRead (m : Memory) (off n : Nat) : (m.bufRead off n).length = n := by
  induction n generalizing off with
  | zero => rfl
  | succ n ih => simp [ih]

/-- Above the lower bound of a canonical tail nothing below it is listed. -/
theorem Memory.read_of_lt : ∀ (m : Memory) (lo x : Nat), Memory.wfFrom lo m = true → x < lo →
    m.read x = Memory.unlisted
  | [], _, _, _, _ => rfl
  | (a, b) :: rest, lo, x, h, hx => by
    simp only [Memory.wfFrom, Bool.and_eq_true, decide_eq_true_eq] at h
    rw [Memory.read, if_neg (by omega)]
    exact Memory.read_of_lt rest (a + 1) x h.2 (by omega)

theorem Memory.wfFrom_mono : ∀ (m : Memory) (lo lo' : Nat), Memory.wfFrom lo m = true → lo' ≤ lo →
    Memory.wfFrom lo' m = true
  | [], _, _, _, _ => rfl
  | (a, b) :: rest, lo, lo', h, hl => by
    simp only [Memory.wfFrom, Bool.and_eq_true, decide_eq_true_eq] at h ⊢
    exact ⟨⟨by omega, h.1.2⟩, h.2⟩

/-- Reading after a write: the written value at its index, every other index as before. -/
theorem Memory.read_write : ∀ (m : Memory) (lo x : Nat) (v : Byte) (y : Nat), Memory.wfFrom lo m = true →
    (m.write x v).read y = if y = x then v else m.read y
  | [], _, x, v, y, _ => by
    unfold Memory.write
    split <;> simp_all [Memory.read]
  | (a, b) :: rest, lo, x, v, y, h => by
    simp only [Memory.wfFrom, Bool.and_eq_true, decide_eq_true_eq] at h
    have hlow : ∀ z, z ≤ a → Memory.read rest z = Memory.unlisted := fun z hz =>
      Memory.read_of_lt rest (a + 1) z h.2 (by omega)
    have ih := Memory.read_write rest (a + 1) x v y h.2
    unfold Memory.write
    split
    · rename_i hxa
      have hx : Memory.read rest x = Memory.unlisted := hlow x (by omega)
      have hne : ¬ x = a := by omega
      split <;> by_cases hy : y = x <;> simp_all [Memory.read]
    · split
      · rename_i hxa
        subst hxa
        have hx : Memory.read rest x = Memory.unlisted := hlow x (by omega)
        split <;> by_cases hy : y = x <;> simp_all [Memory.read]
      · rename_i h1 h2
        rw [Memory.read, Memory.read, ih]
        by_cases hy : y = a
        · subst hy
          rw [if_pos rfl, if_neg (by omega), if_pos rfl]
        · simp [hy]

/-- Every write keeps the canonical form. -/
theorem Memory.wfFrom_write : ∀ (m : Memory) (lo x : Nat) (v : Byte), Memory.wfFrom lo m = true → lo ≤ x →
    Memory.wfFrom lo (m.write x v) = true
  | [], lo, x, v, _, hx => by
    unfold Memory.write
    split <;> simp_all [Memory.wfFrom]
  | (a, b) :: rest, lo, x, v, h, hx => by
    simp only [Memory.wfFrom, Bool.and_eq_true, decide_eq_true_eq] at h
    obtain ⟨⟨hlo, hb⟩, hr⟩ := h
    unfold Memory.write
    split
    · split
      · simp only [Memory.wfFrom, Bool.and_eq_true, decide_eq_true_eq]
        exact ⟨⟨hlo, hb⟩, hr⟩
      · simp only [Memory.wfFrom, Bool.and_eq_true, decide_eq_true_eq]
        exact ⟨⟨hx, by assumption⟩, ⟨by omega, hb⟩, hr⟩
    · split
      · split
        · exact Memory.wfFrom_mono rest (a + 1) lo hr (by omega)
        · simp only [Memory.wfFrom, Bool.and_eq_true, decide_eq_true_eq]
          exact ⟨⟨hlo, by assumption⟩, hr⟩
      · simp only [Memory.wfFrom, Bool.and_eq_true, decide_eq_true_eq]
        exact ⟨⟨hlo, hb⟩, Memory.wfFrom_write rest (a + 1) x v hr (by omega)⟩

theorem Memory.wf_write (m : Memory) (x : Nat) (v : Byte) (h : m.wf = true) : (m.write x v).wf = true :=
  Memory.wfFrom_write m 0 x v h (by omega)

theorem Memory.read_write_same (m : Memory) (x : Nat) (v : Byte) (h : m.wf = true) : (m.write x v).read x = v := by
  simp [Memory.read_write m 0 x v x h]

theorem Memory.read_write_other (m : Memory) (x : Nat) (v : Byte) (y : Nat) (h : m.wf = true) (hy : y ≠ x) :
    (m.write x v).read y = m.read y := by
  simp [Memory.read_write m 0 x v y h, hy]

/-- `BufWrite` keeps the canonical form. -/
theorem Memory.wf_bufWrite (bs : List Byte) : ∀ (m : Memory) (off : Nat), m.wf = true → (m.bufWrite off bs).wf = true := by
  induction bs with
  | nil => intro m off h; exact h
  | cons b bs ih => intro m off h; exact ih _ _ (m.wf_write off b h)

/-- Reading after `BufWrite`: the written bytes in their range, every other index as before. -/
theorem Memory.read_bufWrite (bs : List Byte) : ∀ (m : Memory) (off y : Nat), m.wf = true →
    (m.bufWrite off bs).read y = if h : off ≤ y ∧ y < off + bs.length then bs[y - off]'(by omega) else m.read y := by
  induction bs with
  | nil => intro m off y h; rw [dif_neg (by simp)]; rfl
  | cons b bs ih =>
    intro m off y h
    rw [Memory.bufWrite_cons, ih _ _ _ (m.wf_write off b h)]
    by_cases h1 : off + 1 ≤ y ∧ y < off + 1 + bs.length
    · rw [dif_pos h1, dif_pos (by simp only [List.length_cons]; omega)]
      have : y - off = (y - (off + 1)) + 1 := by omega
      simp [this]
    · rw [dif_neg h1]
      by_cases h2 : y = off
      · subst h2
        rw [Memory.read_write_same _ _ _ h, dif_pos (by simp only [List.length_cons]; omega)]
        simp
      · rw [Memory.read_write_other _ _ _ _ h h2, dif_neg (by simp only [List.length_cons]; omega)]

/-- A write below the capacity keeps the buffer below it. -/
theorem Memory.below_write (cap : Nat) : ∀ (m : Memory) (x : Nat) (v : Byte), m.below cap = true → x < cap →
    (m.write x v).below cap = true
  | [], x, v, _, hx => by
    unfold Memory.write
    split <;> simp_all [Memory.below]
  | (a, b) :: rest, x, v, h, hx => by
    have hr : Memory.below cap rest = true := by
      simp only [Memory.below, List.all_cons, Bool.and_eq_true] at h ⊢
      exact h.2
    have ih := Memory.below_write cap rest x v hr hx
    simp only [Memory.below, List.all_cons, Bool.and_eq_true, decide_eq_true_eq] at h hr ih
    unfold Memory.write
    split_ifs <;> simp only [Memory.below, List.all_cons, Bool.and_eq_true, decide_eq_true_eq]
    · exact ⟨h.1, hr⟩
    · exact ⟨hx, h.1, hr⟩
    · exact hr
    · exact ⟨h.1, hr⟩
    · exact ⟨h.1, ih⟩

theorem Memory.below_bufWrite (cap : Nat) (bs : List Byte) : ∀ (m : Memory) (off : Nat), m.below cap = true →
    off + bs.length ≤ cap → (m.bufWrite off bs).below cap = true := by
  induction bs with
  | nil => intro m off h _; exact h
  | cons b bs ih =>
    intro m off h hc
    simp only [List.length_cons] at hc
    exact ih _ _ (m.below_write cap off b h (by omega)) (by omega)

/-- `BufRead` byte by byte. -/
theorem Memory.getElem_bufRead (m : Memory) (off n i : Nat) (h : i < (m.bufRead off n).length) :
    (m.bufRead off n)[i] = m.read (off + i) := by
  induction n generalizing off i with
  | zero => simp at h
  | succ n ih =>
    cases i with
    | zero => simp
    | succ i => simp [ih]; congr 1; omega

/-- `BufRead` after `BufWrite` of the same range. -/
theorem Memory.bufRead_bufWrite_same (m : Memory) (off : Nat) (bs : List Byte) (h : m.wf = true) :
    (m.bufWrite off bs).bufRead off bs.length = bs := by
  apply List.ext_getElem
  · simp
  · intro i h1 h2
    rw [Memory.getElem_bufRead, Memory.read_bufWrite bs m off _ h, dif_pos (by omega)]
    simp

/-- A longer `BufRead` in two parts. -/
theorem Memory.bufRead_add (m : Memory) (off a b : Nat) :
    m.bufRead off (a + b) = m.bufRead off a ++ m.bufRead (off + a) b := by
  apply List.ext_getElem
  · simp
  · intro i h1 h2
    rw [Memory.getElem_bufRead, List.getElem_append]
    split
    · rw [Memory.getElem_bufRead]
    · rw [Memory.getElem_bufRead]
      rename_i h
      simp at h
      congr 1
      simp
      omega

/-- `BufRead` below a written range is as before. -/
theorem Memory.bufRead_bufWrite_below (m : Memory) (off n : Nat) (bs : List Byte) (lo : Nat) (h : m.wf = true)
    (hn : lo + n ≤ off) : (m.bufWrite off bs).bufRead lo n = m.bufRead lo n := by
  apply List.ext_getElem
  · simp
  · intro i h1 h2
    simp at h1
    rw [Memory.getElem_bufRead, Memory.getElem_bufRead, Memory.read_bufWrite bs m off _ h, dif_neg (by omega)]

end Sys2Proof.Machine
end

