-- ==== Sys2Proof/Laws/State.lean ====
section
/-! SUPPORT. What each shared update of the state leaves in each field, one lemma for each field of each update. -/

namespace Sys2Proof.Machine

/-! ### State.emit -/

@[simp] theorem State.emit_params (s : State) (e : Emit) : (s.emit e).params = s.params := rfl
@[simp] theorem State.emit_loop (s : State) (e : Emit) : (s.emit e).loop = s.loop := rfl
@[simp] theorem State.emit_inputs (s : State) (e : Emit) : (s.emit e).inputs = s.inputs := rfl
@[simp] theorem State.emit_txCounter (s : State) (e : Emit) : (s.emit e).txCounter = s.txCounter := rfl
@[simp] theorem State.emit_rxRecord (s : State) (e : Emit) : (s.emit e).rxRecord = s.rxRecord := rfl
@[simp] theorem State.emit_rev (s : State) (e : Emit) : (s.emit e).rev = s.rev := rfl
@[simp] theorem State.emit_rxBuf (s : State) (e : Emit) : (s.emit e).rxBuf = s.rxBuf := rfl
@[simp] theorem State.emit_bytesReceived (s : State) (e : Emit) : (s.emit e).bytesReceived = s.bytesReceived := rfl
@[simp] theorem State.emit_nextExpectedChunk (s : State) (e : Emit) :
    (s.emit e).nextExpectedChunk = s.nextExpectedChunk := rfl
@[simp] theorem State.emit_rxTotal (s : State) (e : Emit) : (s.emit e).rxTotal = s.rxTotal := rfl
@[simp] theorem State.emit_rxSop (s : State) (e : Emit) : (s.emit e).rxSop = s.rxSop := rfl
@[simp] theorem State.emit_rxHdr (s : State) (e : Emit) : (s.emit e).rxHdr = s.rxHdr := rfl
@[simp] theorem State.emit_txBuf (s : State) (e : Emit) : (s.emit e).txBuf = s.txBuf := rfl
@[simp] theorem State.emit_sendLen (s : State) (e : Emit) : (s.emit e).sendLen = s.sendLen := rfl
@[simp] theorem State.emit_sendOffset (s : State) (e : Emit) : (s.emit e).sendOffset = s.sendOffset := rfl
@[simp] theorem State.emit_nextChunkToSend (s : State) (e : Emit) :
    (s.emit e).nextChunkToSend = s.nextChunkToSend := rfl
@[simp] theorem State.emit_sendChunkLen (s : State) (e : Emit) : (s.emit e).sendChunkLen = s.sendChunkLen := rfl
@[simp] theorem State.emit_sendSop (s : State) (e : Emit) : (s.emit e).sendSop = s.sendSop := rfl
@[simp] theorem State.emit_sendType (s : State) (e : Emit) : (s.emit e).sendType = s.sendType := rfl
@[simp] theorem State.emit_peReq (s : State) (e : Emit) : (s.emit e).peReq = s.peReq := rfl
@[simp] theorem State.emit_txSlot (s : State) (e : Emit) : (s.emit e).txSlot = s.txSlot := rfl
@[simp] theorem State.emit_txClient (s : State) (e : Emit) : (s.emit e).txClient = s.txClient := rfl
@[simp] theorem State.emit_txSop (s : State) (e : Emit) : (s.emit e).txSop = s.txSop := rfl
@[simp] theorem State.emit_txOwed (s : State) (e : Emit) : (s.emit e).txOwed = s.txOwed := rfl
@[simp] theorem State.emit_rchMsg (s : State) (e : Emit) : (s.emit e).rchMsg = s.rchMsg := rfl
@[simp] theorem State.emit_tchMsg (s : State) (e : Emit) : (s.emit e).tchMsg = s.tchMsg := rfl
@[simp] theorem State.emit_prlTx (s : State) (e : Emit) : (s.emit e).prlTx = s.prlTx := rfl
@[simp] theorem State.emit_prlHr (s : State) (e : Emit) : (s.emit e).prlHr = s.prlHr := rfl
@[simp] theorem State.emit_rch (s : State) (e : Emit) : (s.emit e).rch = s.rch := rfl
@[simp] theorem State.emit_tch (s : State) (e : Emit) : (s.emit e).tch = s.tch := rfl
@[simp] theorem State.emit_rchErr (s : State) (e : Emit) : (s.emit e).rchErr = s.rchErr := rfl
@[simp] theorem State.emit_rchOut (s : State) (e : Emit) : (s.emit e).rchOut = s.rchOut := rfl
@[simp] theorem State.emit_rchCur (s : State) (e : Emit) : (s.emit e).rchCur = s.rchCur := rfl
@[simp] theorem State.emit_tchErr (s : State) (e : Emit) : (s.emit e).tchErr = s.tchErr := rfl
@[simp] theorem State.emit_powerRole (s : State) (e : Emit) : (s.emit e).powerRole = s.powerRole := rfl
@[simp] theorem State.emit_dataRole (s : State) (e : Emit) : (s.emit e).dataRole = s.dataRole := rfl
@[simp] theorem State.emit_frsActive (s : State) (e : Emit) : (s.emit e).frsActive = s.frsActive := rfl
@[simp] theorem State.emit_ccSinkTx (s : State) (e : Emit) : (s.emit e).ccSinkTx = s.ccSinkTx := rfl
@[simp] theorem State.emit_rpValue (s : State) (e : Emit) : (s.emit e).rpValue = s.rpValue := rfl
@[simp] theorem State.emit_rxEnabled (s : State) (e : Emit) : (s.emit e).rxEnabled = s.rxEnabled := rfl
@[simp] theorem State.emit_rxq (s : State) (e : Emit) : (s.emit e).rxq = s.rxq := rfl
@[simp] theorem State.emit_txOutstanding (s : State) (e : Emit) : (s.emit e).txOutstanding = s.txOutstanding := rfl
@[simp] theorem State.emit_timers (s : State) (e : Emit) : (s.emit e).timers = s.timers := rfl
@[simp] theorem State.emit_trace (s : State) (e : Emit) : (s.emit e).trace = s.trace ++ [e] := rfl

/-! ### State.emitTransmit -/

@[simp] theorem State.emitTransmit_params (s : State) (v : Sop) (h : Half) (ws : List Word) :
    (s.emitTransmit v h ws).params = s.params := rfl
@[simp] theorem State.emitTransmit_loop (s : State) (v : Sop) (h : Half) (ws : List Word) :
    (s.emitTransmit v h ws).loop = s.loop := rfl
@[simp] theorem State.emitTransmit_inputs (s : State) (v : Sop) (h : Half) (ws : List Word) :
    (s.emitTransmit v h ws).inputs = s.inputs := rfl
@[simp] theorem State.emitTransmit_txCounter (s : State) (v : Sop) (h : Half) (ws : List Word) :
    (s.emitTransmit v h ws).txCounter = s.txCounter := rfl
@[simp] theorem State.emitTransmit_rxRecord (s : State) (v : Sop) (h : Half) (ws : List Word) :
    (s.emitTransmit v h ws).rxRecord = s.rxRecord := rfl
@[simp] theorem State.emitTransmit_rev (s : State) (v : Sop) (h : Half) (ws : List Word) :
    (s.emitTransmit v h ws).rev = s.rev := rfl
@[simp] theorem State.emitTransmit_rxBuf (s : State) (v : Sop) (h : Half) (ws : List Word) :
    (s.emitTransmit v h ws).rxBuf = s.rxBuf := rfl
@[simp] theorem State.emitTransmit_bytesReceived (s : State) (v : Sop) (h : Half) (ws : List Word) :
    (s.emitTransmit v h ws).bytesReceived = s.bytesReceived := rfl
@[simp] theorem State.emitTransmit_nextExpectedChunk (s : State) (v : Sop) (h : Half) (ws : List Word) :
    (s.emitTransmit v h ws).nextExpectedChunk = s.nextExpectedChunk := rfl
@[simp] theorem State.emitTransmit_rxTotal (s : State) (v : Sop) (h : Half) (ws : List Word) :
    (s.emitTransmit v h ws).rxTotal = s.rxTotal := rfl
@[simp] theorem State.emitTransmit_rxSop (s : State) (v : Sop) (h : Half) (ws : List Word) :
    (s.emitTransmit v h ws).rxSop = s.rxSop := rfl
@[simp] theorem State.emitTransmit_rxHdr (s : State) (v : Sop) (h : Half) (ws : List Word) :
    (s.emitTransmit v h ws).rxHdr = s.rxHdr := rfl
@[simp] theorem State.emitTransmit_txBuf (s : State) (v : Sop) (h : Half) (ws : List Word) :
    (s.emitTransmit v h ws).txBuf = s.txBuf := rfl
@[simp] theorem State.emitTransmit_sendLen (s : State) (v : Sop) (h : Half) (ws : List Word) :
    (s.emitTransmit v h ws).sendLen = s.sendLen := rfl
@[simp] theorem State.emitTransmit_sendOffset (s : State) (v : Sop) (h : Half) (ws : List Word) :
    (s.emitTransmit v h ws).sendOffset = s.sendOffset := rfl
@[simp] theorem State.emitTransmit_nextChunkToSend (s : State) (v : Sop) (h : Half) (ws : List Word) :
    (s.emitTransmit v h ws).nextChunkToSend = s.nextChunkToSend := rfl
@[simp] theorem State.emitTransmit_sendChunkLen (s : State) (v : Sop) (h : Half) (ws : List Word) :
    (s.emitTransmit v h ws).sendChunkLen = s.sendChunkLen := rfl
@[simp] theorem State.emitTransmit_sendSop (s : State) (v : Sop) (h : Half) (ws : List Word) :
    (s.emitTransmit v h ws).sendSop = s.sendSop := rfl
@[simp] theorem State.emitTransmit_sendType (s : State) (v : Sop) (h : Half) (ws : List Word) :
    (s.emitTransmit v h ws).sendType = s.sendType := rfl
@[simp] theorem State.emitTransmit_peReq (s : State) (v : Sop) (h : Half) (ws : List Word) :
    (s.emitTransmit v h ws).peReq = s.peReq := rfl
@[simp] theorem State.emitTransmit_txSlot (s : State) (v : Sop) (h : Half) (ws : List Word) :
    (s.emitTransmit v h ws).txSlot = s.txSlot := rfl
@[simp] theorem State.emitTransmit_txClient (s : State) (v : Sop) (h : Half) (ws : List Word) :
    (s.emitTransmit v h ws).txClient = s.txClient := rfl
@[simp] theorem State.emitTransmit_txSop (s : State) (v : Sop) (h : Half) (ws : List Word) :
    (s.emitTransmit v h ws).txSop = s.txSop := rfl
@[simp] theorem State.emitTransmit_txOwed (s : State) (v : Sop) (h : Half) (ws : List Word) :
    (s.emitTransmit v h ws).txOwed = s.txOwed := rfl
@[simp] theorem State.emitTransmit_rchMsg (s : State) (v : Sop) (h : Half) (ws : List Word) :
    (s.emitTransmit v h ws).rchMsg = s.rchMsg := rfl
@[simp] theorem State.emitTransmit_tchMsg (s : State) (v : Sop) (h : Half) (ws : List Word) :
    (s.emitTransmit v h ws).tchMsg = s.tchMsg := rfl
@[simp] theorem State.emitTransmit_prlTx (s : State) (v : Sop) (h : Half) (ws : List Word) :
    (s.emitTransmit v h ws).prlTx = s.prlTx := rfl
@[simp] theorem State.emitTransmit_prlHr (s : State) (v : Sop) (h : Half) (ws : List Word) :
    (s.emitTransmit v h ws).prlHr = s.prlHr := rfl
@[simp] theorem State.emitTransmit_rch (s : State) (v : Sop) (h : Half) (ws : List Word) :
    (s.emitTransmit v h ws).rch = s.rch := rfl
@[simp] theorem State.emitTransmit_tch (s : State) (v : Sop) (h : Half) (ws : List Word) :
    (s.emitTransmit v h ws).tch = s.tch := rfl
@[simp] theorem State.emitTransmit_rchErr (s : State) (v : Sop) (h : Half) (ws : List Word) :
    (s.emitTransmit v h ws).rchErr = s.rchErr := rfl
@[simp] theorem State.emitTransmit_rchOut (s : State) (v : Sop) (h : Half) (ws : List Word) :
    (s.emitTransmit v h ws).rchOut = s.rchOut := rfl
@[simp] theorem State.emitTransmit_rchCur (s : State) (v : Sop) (h : Half) (ws : List Word) :
    (s.emitTransmit v h ws).rchCur = s.rchCur := rfl
@[simp] theorem State.emitTransmit_tchErr (s : State) (v : Sop) (h : Half) (ws : List Word) :
    (s.emitTransmit v h ws).tchErr = s.tchErr := rfl
@[simp] theorem State.emitTransmit_powerRole (s : State) (v : Sop) (h : Half) (ws : List Word) :
    (s.emitTransmit v h ws).powerRole = s.powerRole := rfl
@[simp] theorem State.emitTransmit_dataRole (s : State) (v : Sop) (h : Half) (ws : List Word) :
    (s.emitTransmit v h ws).dataRole = s.dataRole := rfl
@[simp] theorem State.emitTransmit_frsActive (s : State) (v : Sop) (h : Half) (ws : List Word) :
    (s.emitTransmit v h ws).frsActive = s.frsActive := rfl
@[simp] theorem State.emitTransmit_ccSinkTx (s : State) (v : Sop) (h : Half) (ws : List Word) :
    (s.emitTransmit v h ws).ccSinkTx = s.ccSinkTx := rfl
@[simp] theorem State.emitTransmit_rpValue (s : State) (v : Sop) (h : Half) (ws : List Word) :
    (s.emitTransmit v h ws).rpValue = s.rpValue := rfl
@[simp] theorem State.emitTransmit_rxEnabled (s : State) (v : Sop) (h : Half) (ws : List Word) :
    (s.emitTransmit v h ws).rxEnabled = s.rxEnabled := rfl
@[simp] theorem State.emitTransmit_rxq (s : State) (v : Sop) (h : Half) (ws : List Word) :
    (s.emitTransmit v h ws).rxq = s.rxq := rfl
@[simp] theorem State.emitTransmit_txOutstanding (s : State) (v : Sop) (h : Half) (ws : List Word) :
    (s.emitTransmit v h ws).txOutstanding = s.txOutstanding + 1 := rfl
@[simp] theorem State.emitTransmit_timers (s : State) (v : Sop) (h : Half) (ws : List Word) :
    (s.emitTransmit v h ws).timers = s.timers := rfl
@[simp] theorem State.emitTransmit_trace (s : State) (v : Sop) (h : Half) (ws : List Word) :
    (s.emitTransmit v h ws).trace = s.trace ++ [.tpTransmit v h ws] := rfl

/-! ### State.emitTransmitHardReset -/

@[simp] theorem State.emitTransmitHardReset_params (s : State) : (s.emitTransmitHardReset).params = s.params := rfl
@[simp] theorem State.emitTransmitHardReset_loop (s : State) : (s.emitTransmitHardReset).loop = s.loop := rfl
@[simp] theorem State.emitTransmitHardReset_inputs (s : State) : (s.emitTransmitHardReset).inputs = s.inputs := rfl
@[simp] theorem State.emitTransmitHardReset_txCounter (s : State) :
    (s.emitTransmitHardReset).txCounter = s.txCounter := rfl
@[simp] theorem State.emitTransmitHardReset_rxRecord (s : State) :
    (s.emitTransmitHardReset).rxRecord = s.rxRecord := rfl
@[simp] theorem State.emitTransmitHardReset_rev (s : State) : (s.emitTransmitHardReset).rev = s.rev := rfl
@[simp] theorem State.emitTransmitHardReset_rxBuf (s : State) : (s.emitTransmitHardReset).rxBuf = s.rxBuf := rfl
@[simp] theorem State.emitTransmitHardReset_bytesReceived (s : State) :
    (s.emitTransmitHardReset).bytesReceived = s.bytesReceived := rfl
@[simp] theorem State.emitTransmitHardReset_nextExpectedChunk (s : State) :
    (s.emitTransmitHardReset).nextExpectedChunk = s.nextExpectedChunk := rfl
@[simp] theorem State.emitTransmitHardReset_rxTotal (s : State) : (s.emitTransmitHardReset).rxTotal = s.rxTotal := rfl
@[simp] theorem State.emitTransmitHardReset_rxSop (s : State) : (s.emitTransmitHardReset).rxSop = s.rxSop := rfl
@[simp] theorem State.emitTransmitHardReset_rxHdr (s : State) : (s.emitTransmitHardReset).rxHdr = s.rxHdr := rfl
@[simp] theorem State.emitTransmitHardReset_txBuf (s : State) : (s.emitTransmitHardReset).txBuf = s.txBuf := rfl
@[simp] theorem State.emitTransmitHardReset_sendLen (s : State) : (s.emitTransmitHardReset).sendLen = s.sendLen := rfl
@[simp] theorem State.emitTransmitHardReset_sendOffset (s : State) :
    (s.emitTransmitHardReset).sendOffset = s.sendOffset := rfl
@[simp] theorem State.emitTransmitHardReset_nextChunkToSend (s : State) :
    (s.emitTransmitHardReset).nextChunkToSend = s.nextChunkToSend := rfl
@[simp] theorem State.emitTransmitHardReset_sendChunkLen (s : State) :
    (s.emitTransmitHardReset).sendChunkLen = s.sendChunkLen := rfl
@[simp] theorem State.emitTransmitHardReset_sendSop (s : State) : (s.emitTransmitHardReset).sendSop = s.sendSop := rfl
@[simp] theorem State.emitTransmitHardReset_sendType (s : State) :
    (s.emitTransmitHardReset).sendType = s.sendType := rfl
@[simp] theorem State.emitTransmitHardReset_peReq (s : State) : (s.emitTransmitHardReset).peReq = s.peReq := rfl
@[simp] theorem State.emitTransmitHardReset_txSlot (s : State) : (s.emitTransmitHardReset).txSlot = s.txSlot := rfl
@[simp] theorem State.emitTransmitHardReset_txClient (s : State) :
    (s.emitTransmitHardReset).txClient = s.txClient := rfl
@[simp] theorem State.emitTransmitHardReset_txSop (s : State) : (s.emitTransmitHardReset).txSop = s.txSop := rfl
@[simp] theorem State.emitTransmitHardReset_txOwed (s : State) : (s.emitTransmitHardReset).txOwed = s.txOwed := rfl
@[simp] theorem State.emitTransmitHardReset_rchMsg (s : State) : (s.emitTransmitHardReset).rchMsg = s.rchMsg := rfl
@[simp] theorem State.emitTransmitHardReset_tchMsg (s : State) : (s.emitTransmitHardReset).tchMsg = s.tchMsg := rfl
@[simp] theorem State.emitTransmitHardReset_prlTx (s : State) : (s.emitTransmitHardReset).prlTx = s.prlTx := rfl
@[simp] theorem State.emitTransmitHardReset_prlHr (s : State) : (s.emitTransmitHardReset).prlHr = s.prlHr := rfl
@[simp] theorem State.emitTransmitHardReset_rch (s : State) : (s.emitTransmitHardReset).rch = s.rch := rfl
@[simp] theorem State.emitTransmitHardReset_tch (s : State) : (s.emitTransmitHardReset).tch = s.tch := rfl
@[simp] theorem State.emitTransmitHardReset_rchErr (s : State) : (s.emitTransmitHardReset).rchErr = s.rchErr := rfl
@[simp] theorem State.emitTransmitHardReset_rchOut (s : State) : (s.emitTransmitHardReset).rchOut = s.rchOut := rfl
@[simp] theorem State.emitTransmitHardReset_rchCur (s : State) : (s.emitTransmitHardReset).rchCur = s.rchCur := rfl
@[simp] theorem State.emitTransmitHardReset_tchErr (s : State) : (s.emitTransmitHardReset).tchErr = s.tchErr := rfl
@[simp] theorem State.emitTransmitHardReset_powerRole (s : State) :
    (s.emitTransmitHardReset).powerRole = s.powerRole := rfl
@[simp] theorem State.emitTransmitHardReset_dataRole (s : State) :
    (s.emitTransmitHardReset).dataRole = s.dataRole := rfl
@[simp] theorem State.emitTransmitHardReset_frsActive (s : State) :
    (s.emitTransmitHardReset).frsActive = s.frsActive := rfl
@[simp] theorem State.emitTransmitHardReset_ccSinkTx (s : State) :
    (s.emitTransmitHardReset).ccSinkTx = s.ccSinkTx := rfl
@[simp] theorem State.emitTransmitHardReset_rpValue (s : State) : (s.emitTransmitHardReset).rpValue = s.rpValue := rfl
@[simp] theorem State.emitTransmitHardReset_rxEnabled (s : State) :
    (s.emitTransmitHardReset).rxEnabled = s.rxEnabled := rfl
@[simp] theorem State.emitTransmitHardReset_rxq (s : State) : (s.emitTransmitHardReset).rxq = s.rxq := rfl
@[simp] theorem State.emitTransmitHardReset_txOutstanding (s : State) :
    (s.emitTransmitHardReset).txOutstanding = s.txOutstanding + 1 := rfl
@[simp] theorem State.emitTransmitHardReset_timers (s : State) : (s.emitTransmitHardReset).timers = s.timers := rfl
@[simp] theorem State.emitTransmitHardReset_trace (s : State) :
    (s.emitTransmitHardReset).trace = s.trace ++ [.tpTransmitHardReset] := rfl

/-! ### State.setRp -/

@[simp] theorem State.setRp_params (s : State) (v : SinkTx) : (s.setRp v).params = s.params := rfl
@[simp] theorem State.setRp_loop (s : State) (v : SinkTx) : (s.setRp v).loop = s.loop := rfl
@[simp] theorem State.setRp_inputs (s : State) (v : SinkTx) : (s.setRp v).inputs = s.inputs := rfl
@[simp] theorem State.setRp_txCounter (s : State) (v : SinkTx) : (s.setRp v).txCounter = s.txCounter := rfl
@[simp] theorem State.setRp_rxRecord (s : State) (v : SinkTx) : (s.setRp v).rxRecord = s.rxRecord := rfl
@[simp] theorem State.setRp_rev (s : State) (v : SinkTx) : (s.setRp v).rev = s.rev := rfl
@[simp] theorem State.setRp_rxBuf (s : State) (v : SinkTx) : (s.setRp v).rxBuf = s.rxBuf := rfl
@[simp] theorem State.setRp_bytesReceived (s : State) (v : SinkTx) : (s.setRp v).bytesReceived = s.bytesReceived := rfl
@[simp] theorem State.setRp_nextExpectedChunk (s : State) (v : SinkTx) :
    (s.setRp v).nextExpectedChunk = s.nextExpectedChunk := rfl
@[simp] theorem State.setRp_rxTotal (s : State) (v : SinkTx) : (s.setRp v).rxTotal = s.rxTotal := rfl
@[simp] theorem State.setRp_rxSop (s : State) (v : SinkTx) : (s.setRp v).rxSop = s.rxSop := rfl
@[simp] theorem State.setRp_rxHdr (s : State) (v : SinkTx) : (s.setRp v).rxHdr = s.rxHdr := rfl
@[simp] theorem State.setRp_txBuf (s : State) (v : SinkTx) : (s.setRp v).txBuf = s.txBuf := rfl
@[simp] theorem State.setRp_sendLen (s : State) (v : SinkTx) : (s.setRp v).sendLen = s.sendLen := rfl
@[simp] theorem State.setRp_sendOffset (s : State) (v : SinkTx) : (s.setRp v).sendOffset = s.sendOffset := rfl
@[simp] theorem State.setRp_nextChunkToSend (s : State) (v : SinkTx) :
    (s.setRp v).nextChunkToSend = s.nextChunkToSend := rfl
@[simp] theorem State.setRp_sendChunkLen (s : State) (v : SinkTx) : (s.setRp v).sendChunkLen = s.sendChunkLen := rfl
@[simp] theorem State.setRp_sendSop (s : State) (v : SinkTx) : (s.setRp v).sendSop = s.sendSop := rfl
@[simp] theorem State.setRp_sendType (s : State) (v : SinkTx) : (s.setRp v).sendType = s.sendType := rfl
@[simp] theorem State.setRp_peReq (s : State) (v : SinkTx) : (s.setRp v).peReq = s.peReq := rfl
@[simp] theorem State.setRp_txSlot (s : State) (v : SinkTx) : (s.setRp v).txSlot = s.txSlot := rfl
@[simp] theorem State.setRp_txClient (s : State) (v : SinkTx) : (s.setRp v).txClient = s.txClient := rfl
@[simp] theorem State.setRp_txSop (s : State) (v : SinkTx) : (s.setRp v).txSop = s.txSop := rfl
@[simp] theorem State.setRp_txOwed (s : State) (v : SinkTx) : (s.setRp v).txOwed = s.txOwed := rfl
@[simp] theorem State.setRp_rchMsg (s : State) (v : SinkTx) : (s.setRp v).rchMsg = s.rchMsg := rfl
@[simp] theorem State.setRp_tchMsg (s : State) (v : SinkTx) : (s.setRp v).tchMsg = s.tchMsg := rfl
@[simp] theorem State.setRp_prlTx (s : State) (v : SinkTx) : (s.setRp v).prlTx = s.prlTx := rfl
@[simp] theorem State.setRp_prlHr (s : State) (v : SinkTx) : (s.setRp v).prlHr = s.prlHr := rfl
@[simp] theorem State.setRp_rch (s : State) (v : SinkTx) : (s.setRp v).rch = s.rch := rfl
@[simp] theorem State.setRp_tch (s : State) (v : SinkTx) : (s.setRp v).tch = s.tch := rfl
@[simp] theorem State.setRp_rchErr (s : State) (v : SinkTx) : (s.setRp v).rchErr = s.rchErr := rfl
@[simp] theorem State.setRp_rchOut (s : State) (v : SinkTx) : (s.setRp v).rchOut = s.rchOut := rfl
@[simp] theorem State.setRp_rchCur (s : State) (v : SinkTx) : (s.setRp v).rchCur = s.rchCur := rfl
@[simp] theorem State.setRp_tchErr (s : State) (v : SinkTx) : (s.setRp v).tchErr = s.tchErr := rfl
@[simp] theorem State.setRp_powerRole (s : State) (v : SinkTx) : (s.setRp v).powerRole = s.powerRole := rfl
@[simp] theorem State.setRp_dataRole (s : State) (v : SinkTx) : (s.setRp v).dataRole = s.dataRole := rfl
@[simp] theorem State.setRp_frsActive (s : State) (v : SinkTx) : (s.setRp v).frsActive = s.frsActive := rfl
@[simp] theorem State.setRp_ccSinkTx (s : State) (v : SinkTx) : (s.setRp v).ccSinkTx = s.ccSinkTx := rfl
@[simp] theorem State.setRp_rpValue (s : State) (v : SinkTx) : (s.setRp v).rpValue = v := rfl
@[simp] theorem State.setRp_rxEnabled (s : State) (v : SinkTx) : (s.setRp v).rxEnabled = s.rxEnabled := rfl
@[simp] theorem State.setRp_rxq (s : State) (v : SinkTx) : (s.setRp v).rxq = s.rxq := rfl
@[simp] theorem State.setRp_txOutstanding (s : State) (v : SinkTx) : (s.setRp v).txOutstanding = s.txOutstanding := rfl
@[simp] theorem State.setRp_timers (s : State) (v : SinkTx) : (s.setRp v).timers = s.timers := rfl
@[simp] theorem State.setRp_trace (s : State) (v : SinkTx) : (s.setRp v).trace = s.trace ++ [.tpSetRp v] := rfl

/-! ### State.setRxEnable -/

@[simp] theorem State.setRxEnable_params (s : State) (b : Bool) : (s.setRxEnable b).params = s.params := rfl
@[simp] theorem State.setRxEnable_loop (s : State) (b : Bool) : (s.setRxEnable b).loop = s.loop := rfl
@[simp] theorem State.setRxEnable_inputs (s : State) (b : Bool) : (s.setRxEnable b).inputs = s.inputs := rfl
@[simp] theorem State.setRxEnable_txCounter (s : State) (b : Bool) : (s.setRxEnable b).txCounter = s.txCounter := rfl
@[simp] theorem State.setRxEnable_rxRecord (s : State) (b : Bool) : (s.setRxEnable b).rxRecord = s.rxRecord := rfl
@[simp] theorem State.setRxEnable_rev (s : State) (b : Bool) : (s.setRxEnable b).rev = s.rev := rfl
@[simp] theorem State.setRxEnable_rxBuf (s : State) (b : Bool) : (s.setRxEnable b).rxBuf = s.rxBuf := rfl
@[simp] theorem State.setRxEnable_bytesReceived (s : State) (b : Bool) :
    (s.setRxEnable b).bytesReceived = s.bytesReceived := rfl
@[simp] theorem State.setRxEnable_nextExpectedChunk (s : State) (b : Bool) :
    (s.setRxEnable b).nextExpectedChunk = s.nextExpectedChunk := rfl
@[simp] theorem State.setRxEnable_rxTotal (s : State) (b : Bool) : (s.setRxEnable b).rxTotal = s.rxTotal := rfl
@[simp] theorem State.setRxEnable_rxSop (s : State) (b : Bool) : (s.setRxEnable b).rxSop = s.rxSop := rfl
@[simp] theorem State.setRxEnable_rxHdr (s : State) (b : Bool) : (s.setRxEnable b).rxHdr = s.rxHdr := rfl
@[simp] theorem State.setRxEnable_txBuf (s : State) (b : Bool) : (s.setRxEnable b).txBuf = s.txBuf := rfl
@[simp] theorem State.setRxEnable_sendLen (s : State) (b : Bool) : (s.setRxEnable b).sendLen = s.sendLen := rfl
@[simp] theorem State.setRxEnable_sendOffset (s : State) (b : Bool) : (s.setRxEnable b).sendOffset = s.sendOffset := rfl
@[simp] theorem State.setRxEnable_nextChunkToSend (s : State) (b : Bool) :
    (s.setRxEnable b).nextChunkToSend = s.nextChunkToSend := rfl
@[simp] theorem State.setRxEnable_sendChunkLen (s : State) (b : Bool) :
    (s.setRxEnable b).sendChunkLen = s.sendChunkLen := rfl
@[simp] theorem State.setRxEnable_sendSop (s : State) (b : Bool) : (s.setRxEnable b).sendSop = s.sendSop := rfl
@[simp] theorem State.setRxEnable_sendType (s : State) (b : Bool) : (s.setRxEnable b).sendType = s.sendType := rfl
@[simp] theorem State.setRxEnable_peReq (s : State) (b : Bool) : (s.setRxEnable b).peReq = s.peReq := rfl
@[simp] theorem State.setRxEnable_txSlot (s : State) (b : Bool) : (s.setRxEnable b).txSlot = s.txSlot := rfl
@[simp] theorem State.setRxEnable_txClient (s : State) (b : Bool) : (s.setRxEnable b).txClient = s.txClient := rfl
@[simp] theorem State.setRxEnable_txSop (s : State) (b : Bool) : (s.setRxEnable b).txSop = s.txSop := rfl
@[simp] theorem State.setRxEnable_txOwed (s : State) (b : Bool) : (s.setRxEnable b).txOwed = s.txOwed := rfl
@[simp] theorem State.setRxEnable_rchMsg (s : State) (b : Bool) : (s.setRxEnable b).rchMsg = s.rchMsg := rfl
@[simp] theorem State.setRxEnable_tchMsg (s : State) (b : Bool) : (s.setRxEnable b).tchMsg = s.tchMsg := rfl
@[simp] theorem State.setRxEnable_prlTx (s : State) (b : Bool) : (s.setRxEnable b).prlTx = s.prlTx := rfl
@[simp] theorem State.setRxEnable_prlHr (s : State) (b : Bool) : (s.setRxEnable b).prlHr = s.prlHr := rfl
@[simp] theorem State.setRxEnable_rch (s : State) (b : Bool) : (s.setRxEnable b).rch = s.rch := rfl
@[simp] theorem State.setRxEnable_tch (s : State) (b : Bool) : (s.setRxEnable b).tch = s.tch := rfl
@[simp] theorem State.setRxEnable_rchErr (s : State) (b : Bool) : (s.setRxEnable b).rchErr = s.rchErr := rfl
@[simp] theorem State.setRxEnable_rchOut (s : State) (b : Bool) : (s.setRxEnable b).rchOut = s.rchOut := rfl
@[simp] theorem State.setRxEnable_rchCur (s : State) (b : Bool) : (s.setRxEnable b).rchCur = s.rchCur := rfl
@[simp] theorem State.setRxEnable_tchErr (s : State) (b : Bool) : (s.setRxEnable b).tchErr = s.tchErr := rfl
@[simp] theorem State.setRxEnable_powerRole (s : State) (b : Bool) : (s.setRxEnable b).powerRole = s.powerRole := rfl
@[simp] theorem State.setRxEnable_dataRole (s : State) (b : Bool) : (s.setRxEnable b).dataRole = s.dataRole := rfl
@[simp] theorem State.setRxEnable_frsActive (s : State) (b : Bool) : (s.setRxEnable b).frsActive = s.frsActive := rfl
@[simp] theorem State.setRxEnable_ccSinkTx (s : State) (b : Bool) : (s.setRxEnable b).ccSinkTx = s.ccSinkTx := rfl
@[simp] theorem State.setRxEnable_rpValue (s : State) (b : Bool) : (s.setRxEnable b).rpValue = s.rpValue := rfl
@[simp] theorem State.setRxEnable_rxEnabled (s : State) (b : Bool) : (s.setRxEnable b).rxEnabled = b := rfl
@[simp] theorem State.setRxEnable_rxq (s : State) (b : Bool) : (s.setRxEnable b).rxq = s.rxq := rfl
@[simp] theorem State.setRxEnable_txOutstanding (s : State) (b : Bool) :
    (s.setRxEnable b).txOutstanding = s.txOutstanding := rfl
@[simp] theorem State.setRxEnable_timers (s : State) (b : Bool) : (s.setRxEnable b).timers = s.timers := rfl
@[simp] theorem State.setRxEnable_trace (s : State) (b : Bool) :
    (s.setRxEnable b).trace = s.trace ++ [.tpSetRxEnable b] := rfl

/-! ### State.arm -/

@[simp] theorem State.arm_params (s : State) (i : TimerId) : (s.arm i).params = s.params := rfl
@[simp] theorem State.arm_loop (s : State) (i : TimerId) : (s.arm i).loop = s.loop := rfl
@[simp] theorem State.arm_inputs (s : State) (i : TimerId) : (s.arm i).inputs = s.inputs := rfl
@[simp] theorem State.arm_txCounter (s : State) (i : TimerId) : (s.arm i).txCounter = s.txCounter := rfl
@[simp] theorem State.arm_rxRecord (s : State) (i : TimerId) : (s.arm i).rxRecord = s.rxRecord := rfl
@[simp] theorem State.arm_rev (s : State) (i : TimerId) : (s.arm i).rev = s.rev := rfl
@[simp] theorem State.arm_rxBuf (s : State) (i : TimerId) : (s.arm i).rxBuf = s.rxBuf := rfl
@[simp] theorem State.arm_bytesReceived (s : State) (i : TimerId) : (s.arm i).bytesReceived = s.bytesReceived := rfl
@[simp] theorem State.arm_nextExpectedChunk (s : State) (i : TimerId) :
    (s.arm i).nextExpectedChunk = s.nextExpectedChunk := rfl
@[simp] theorem State.arm_rxTotal (s : State) (i : TimerId) : (s.arm i).rxTotal = s.rxTotal := rfl
@[simp] theorem State.arm_rxSop (s : State) (i : TimerId) : (s.arm i).rxSop = s.rxSop := rfl
@[simp] theorem State.arm_rxHdr (s : State) (i : TimerId) : (s.arm i).rxHdr = s.rxHdr := rfl
@[simp] theorem State.arm_txBuf (s : State) (i : TimerId) : (s.arm i).txBuf = s.txBuf := rfl
@[simp] theorem State.arm_sendLen (s : State) (i : TimerId) : (s.arm i).sendLen = s.sendLen := rfl
@[simp] theorem State.arm_sendOffset (s : State) (i : TimerId) : (s.arm i).sendOffset = s.sendOffset := rfl
@[simp] theorem State.arm_nextChunkToSend (s : State) (i : TimerId) :
    (s.arm i).nextChunkToSend = s.nextChunkToSend := rfl
@[simp] theorem State.arm_sendChunkLen (s : State) (i : TimerId) : (s.arm i).sendChunkLen = s.sendChunkLen := rfl
@[simp] theorem State.arm_sendSop (s : State) (i : TimerId) : (s.arm i).sendSop = s.sendSop := rfl
@[simp] theorem State.arm_sendType (s : State) (i : TimerId) : (s.arm i).sendType = s.sendType := rfl
@[simp] theorem State.arm_peReq (s : State) (i : TimerId) : (s.arm i).peReq = s.peReq := rfl
@[simp] theorem State.arm_txSlot (s : State) (i : TimerId) : (s.arm i).txSlot = s.txSlot := rfl
@[simp] theorem State.arm_txClient (s : State) (i : TimerId) : (s.arm i).txClient = s.txClient := rfl
@[simp] theorem State.arm_txSop (s : State) (i : TimerId) : (s.arm i).txSop = s.txSop := rfl
@[simp] theorem State.arm_txOwed (s : State) (i : TimerId) : (s.arm i).txOwed = s.txOwed := rfl
@[simp] theorem State.arm_rchMsg (s : State) (i : TimerId) : (s.arm i).rchMsg = s.rchMsg := rfl
@[simp] theorem State.arm_tchMsg (s : State) (i : TimerId) : (s.arm i).tchMsg = s.tchMsg := rfl
@[simp] theorem State.arm_prlTx (s : State) (i : TimerId) : (s.arm i).prlTx = s.prlTx := rfl
@[simp] theorem State.arm_prlHr (s : State) (i : TimerId) : (s.arm i).prlHr = s.prlHr := rfl
@[simp] theorem State.arm_rch (s : State) (i : TimerId) : (s.arm i).rch = s.rch := rfl
@[simp] theorem State.arm_tch (s : State) (i : TimerId) : (s.arm i).tch = s.tch := rfl
@[simp] theorem State.arm_rchErr (s : State) (i : TimerId) : (s.arm i).rchErr = s.rchErr := rfl
@[simp] theorem State.arm_rchOut (s : State) (i : TimerId) : (s.arm i).rchOut = s.rchOut := rfl
@[simp] theorem State.arm_rchCur (s : State) (i : TimerId) : (s.arm i).rchCur = s.rchCur := rfl
@[simp] theorem State.arm_tchErr (s : State) (i : TimerId) : (s.arm i).tchErr = s.tchErr := rfl
@[simp] theorem State.arm_powerRole (s : State) (i : TimerId) : (s.arm i).powerRole = s.powerRole := rfl
@[simp] theorem State.arm_dataRole (s : State) (i : TimerId) : (s.arm i).dataRole = s.dataRole := rfl
@[simp] theorem State.arm_frsActive (s : State) (i : TimerId) : (s.arm i).frsActive = s.frsActive := rfl
@[simp] theorem State.arm_ccSinkTx (s : State) (i : TimerId) : (s.arm i).ccSinkTx = s.ccSinkTx := rfl
@[simp] theorem State.arm_rpValue (s : State) (i : TimerId) : (s.arm i).rpValue = s.rpValue := rfl
@[simp] theorem State.arm_rxEnabled (s : State) (i : TimerId) : (s.arm i).rxEnabled = s.rxEnabled := rfl
@[simp] theorem State.arm_rxq (s : State) (i : TimerId) : (s.arm i).rxq = s.rxq := rfl
@[simp] theorem State.arm_txOutstanding (s : State) (i : TimerId) : (s.arm i).txOutstanding = s.txOutstanding := rfl
@[simp] theorem State.arm_timers (s : State) (i : TimerId) : (s.arm i).timers = s.timers.set i Timer.on := rfl
@[simp] theorem State.arm_trace (s : State) (i : TimerId) : (s.arm i).trace = s.trace := rfl

/-! ### State.disarm -/

@[simp] theorem State.disarm_params (s : State) (i : TimerId) : (s.disarm i).params = s.params := rfl
@[simp] theorem State.disarm_loop (s : State) (i : TimerId) : (s.disarm i).loop = s.loop := rfl
@[simp] theorem State.disarm_inputs (s : State) (i : TimerId) : (s.disarm i).inputs = s.inputs := rfl
@[simp] theorem State.disarm_txCounter (s : State) (i : TimerId) : (s.disarm i).txCounter = s.txCounter := rfl
@[simp] theorem State.disarm_rxRecord (s : State) (i : TimerId) : (s.disarm i).rxRecord = s.rxRecord := rfl
@[simp] theorem State.disarm_rev (s : State) (i : TimerId) : (s.disarm i).rev = s.rev := rfl
@[simp] theorem State.disarm_rxBuf (s : State) (i : TimerId) : (s.disarm i).rxBuf = s.rxBuf := rfl
@[simp] theorem State.disarm_bytesReceived (s : State) (i : TimerId) :
    (s.disarm i).bytesReceived = s.bytesReceived := rfl
@[simp] theorem State.disarm_nextExpectedChunk (s : State) (i : TimerId) :
    (s.disarm i).nextExpectedChunk = s.nextExpectedChunk := rfl
@[simp] theorem State.disarm_rxTotal (s : State) (i : TimerId) : (s.disarm i).rxTotal = s.rxTotal := rfl
@[simp] theorem State.disarm_rxSop (s : State) (i : TimerId) : (s.disarm i).rxSop = s.rxSop := rfl
@[simp] theorem State.disarm_rxHdr (s : State) (i : TimerId) : (s.disarm i).rxHdr = s.rxHdr := rfl
@[simp] theorem State.disarm_txBuf (s : State) (i : TimerId) : (s.disarm i).txBuf = s.txBuf := rfl
@[simp] theorem State.disarm_sendLen (s : State) (i : TimerId) : (s.disarm i).sendLen = s.sendLen := rfl
@[simp] theorem State.disarm_sendOffset (s : State) (i : TimerId) : (s.disarm i).sendOffset = s.sendOffset := rfl
@[simp] theorem State.disarm_nextChunkToSend (s : State) (i : TimerId) :
    (s.disarm i).nextChunkToSend = s.nextChunkToSend := rfl
@[simp] theorem State.disarm_sendChunkLen (s : State) (i : TimerId) : (s.disarm i).sendChunkLen = s.sendChunkLen := rfl
@[simp] theorem State.disarm_sendSop (s : State) (i : TimerId) : (s.disarm i).sendSop = s.sendSop := rfl
@[simp] theorem State.disarm_sendType (s : State) (i : TimerId) : (s.disarm i).sendType = s.sendType := rfl
@[simp] theorem State.disarm_peReq (s : State) (i : TimerId) : (s.disarm i).peReq = s.peReq := rfl
@[simp] theorem State.disarm_txSlot (s : State) (i : TimerId) : (s.disarm i).txSlot = s.txSlot := rfl
@[simp] theorem State.disarm_txClient (s : State) (i : TimerId) : (s.disarm i).txClient = s.txClient := rfl
@[simp] theorem State.disarm_txSop (s : State) (i : TimerId) : (s.disarm i).txSop = s.txSop := rfl
@[simp] theorem State.disarm_txOwed (s : State) (i : TimerId) : (s.disarm i).txOwed = s.txOwed := rfl
@[simp] theorem State.disarm_rchMsg (s : State) (i : TimerId) : (s.disarm i).rchMsg = s.rchMsg := rfl
@[simp] theorem State.disarm_tchMsg (s : State) (i : TimerId) : (s.disarm i).tchMsg = s.tchMsg := rfl
@[simp] theorem State.disarm_prlTx (s : State) (i : TimerId) : (s.disarm i).prlTx = s.prlTx := rfl
@[simp] theorem State.disarm_prlHr (s : State) (i : TimerId) : (s.disarm i).prlHr = s.prlHr := rfl
@[simp] theorem State.disarm_rch (s : State) (i : TimerId) : (s.disarm i).rch = s.rch := rfl
@[simp] theorem State.disarm_tch (s : State) (i : TimerId) : (s.disarm i).tch = s.tch := rfl
@[simp] theorem State.disarm_rchErr (s : State) (i : TimerId) : (s.disarm i).rchErr = s.rchErr := rfl
@[simp] theorem State.disarm_rchOut (s : State) (i : TimerId) : (s.disarm i).rchOut = s.rchOut := rfl
@[simp] theorem State.disarm_rchCur (s : State) (i : TimerId) : (s.disarm i).rchCur = s.rchCur := rfl
@[simp] theorem State.disarm_tchErr (s : State) (i : TimerId) : (s.disarm i).tchErr = s.tchErr := rfl
@[simp] theorem State.disarm_powerRole (s : State) (i : TimerId) : (s.disarm i).powerRole = s.powerRole := rfl
@[simp] theorem State.disarm_dataRole (s : State) (i : TimerId) : (s.disarm i).dataRole = s.dataRole := rfl
@[simp] theorem State.disarm_frsActive (s : State) (i : TimerId) : (s.disarm i).frsActive = s.frsActive := rfl
@[simp] theorem State.disarm_ccSinkTx (s : State) (i : TimerId) : (s.disarm i).ccSinkTx = s.ccSinkTx := rfl
@[simp] theorem State.disarm_rpValue (s : State) (i : TimerId) : (s.disarm i).rpValue = s.rpValue := rfl
@[simp] theorem State.disarm_rxEnabled (s : State) (i : TimerId) : (s.disarm i).rxEnabled = s.rxEnabled := rfl
@[simp] theorem State.disarm_rxq (s : State) (i : TimerId) : (s.disarm i).rxq = s.rxq := rfl
@[simp] theorem State.disarm_txOutstanding (s : State) (i : TimerId) :
    (s.disarm i).txOutstanding = s.txOutstanding := rfl
@[simp] theorem State.disarm_timers (s : State) (i : TimerId) : (s.disarm i).timers = s.timers.set i Timer.off := rfl
@[simp] theorem State.disarm_trace (s : State) (i : TimerId) : (s.disarm i).trace = s.trace := rfl

/-! ### submit -/

@[simp] theorem submit_params (s : State) (c : Client) (sl : TxSlot) : (submit c sl s).params = s.params := rfl
@[simp] theorem submit_loop (s : State) (c : Client) (sl : TxSlot) : (submit c sl s).loop = s.loop := rfl
@[simp] theorem submit_inputs (s : State) (c : Client) (sl : TxSlot) : (submit c sl s).inputs = s.inputs := rfl
@[simp] theorem submit_txCounter (s : State) (c : Client) (sl : TxSlot) : (submit c sl s).txCounter = s.txCounter := rfl
@[simp] theorem submit_rxRecord (s : State) (c : Client) (sl : TxSlot) : (submit c sl s).rxRecord = s.rxRecord := rfl
@[simp] theorem submit_rev (s : State) (c : Client) (sl : TxSlot) : (submit c sl s).rev = s.rev := rfl
@[simp] theorem submit_rxBuf (s : State) (c : Client) (sl : TxSlot) : (submit c sl s).rxBuf = s.rxBuf := rfl
@[simp] theorem submit_bytesReceived (s : State) (c : Client) (sl : TxSlot) :
    (submit c sl s).bytesReceived = s.bytesReceived := rfl
@[simp] theorem submit_nextExpectedChunk (s : State) (c : Client) (sl : TxSlot) :
    (submit c sl s).nextExpectedChunk = s.nextExpectedChunk := rfl
@[simp] theorem submit_rxTotal (s : State) (c : Client) (sl : TxSlot) : (submit c sl s).rxTotal = s.rxTotal := rfl
@[simp] theorem submit_rxSop (s : State) (c : Client) (sl : TxSlot) : (submit c sl s).rxSop = s.rxSop := rfl
@[simp] theorem submit_rxHdr (s : State) (c : Client) (sl : TxSlot) : (submit c sl s).rxHdr = s.rxHdr := rfl
@[simp] theorem submit_txBuf (s : State) (c : Client) (sl : TxSlot) : (submit c sl s).txBuf = s.txBuf := rfl
@[simp] theorem submit_sendLen (s : State) (c : Client) (sl : TxSlot) : (submit c sl s).sendLen = s.sendLen := rfl
@[simp] theorem submit_sendOffset (s : State) (c : Client) (sl : TxSlot) :
    (submit c sl s).sendOffset = s.sendOffset := rfl
@[simp] theorem submit_nextChunkToSend (s : State) (c : Client) (sl : TxSlot) :
    (submit c sl s).nextChunkToSend = s.nextChunkToSend := rfl
@[simp] theorem submit_sendChunkLen (s : State) (c : Client) (sl : TxSlot) :
    (submit c sl s).sendChunkLen = s.sendChunkLen := rfl
@[simp] theorem submit_sendSop (s : State) (c : Client) (sl : TxSlot) : (submit c sl s).sendSop = s.sendSop := rfl
@[simp] theorem submit_sendType (s : State) (c : Client) (sl : TxSlot) : (submit c sl s).sendType = s.sendType := rfl
@[simp] theorem submit_peReq (s : State) (c : Client) (sl : TxSlot) : (submit c sl s).peReq = s.peReq := rfl
@[simp] theorem submit_txSlot (s : State) (c : Client) (sl : TxSlot) : (submit c sl s).txSlot = sl := rfl
@[simp] theorem submit_txClient (s : State) (c : Client) (sl : TxSlot) : (submit c sl s).txClient = c := rfl
@[simp] theorem submit_txSop (s : State) (c : Client) (sl : TxSlot) : (submit c sl s).txSop = s.txSop := rfl
@[simp] theorem submit_txOwed (s : State) (c : Client) (sl : TxSlot) : (submit c sl s).txOwed = s.txOwed := rfl
@[simp] theorem submit_rchMsg (s : State) (c : Client) (sl : TxSlot) : (submit c sl s).rchMsg = s.rchMsg := rfl
@[simp] theorem submit_tchMsg (s : State) (c : Client) (sl : TxSlot) : (submit c sl s).tchMsg = s.tchMsg := rfl
@[simp] theorem submit_prlTx (s : State) (c : Client) (sl : TxSlot) :
    (submit c sl s).prlTx = { s.prlTx with txRequest := true } := rfl
@[simp] theorem submit_prlHr (s : State) (c : Client) (sl : TxSlot) : (submit c sl s).prlHr = s.prlHr := rfl
@[simp] theorem submit_rch (s : State) (c : Client) (sl : TxSlot) : (submit c sl s).rch = s.rch := rfl
@[simp] theorem submit_tch (s : State) (c : Client) (sl : TxSlot) : (submit c sl s).tch = s.tch := rfl
@[simp] theorem submit_rchErr (s : State) (c : Client) (sl : TxSlot) : (submit c sl s).rchErr = s.rchErr := rfl
@[simp] theorem submit_rchOut (s : State) (c : Client) (sl : TxSlot) : (submit c sl s).rchOut = s.rchOut := rfl
@[simp] theorem submit_rchCur (s : State) (c : Client) (sl : TxSlot) : (submit c sl s).rchCur = s.rchCur := rfl
@[simp] theorem submit_tchErr (s : State) (c : Client) (sl : TxSlot) : (submit c sl s).tchErr = s.tchErr := rfl
@[simp] theorem submit_powerRole (s : State) (c : Client) (sl : TxSlot) : (submit c sl s).powerRole = s.powerRole := rfl
@[simp] theorem submit_dataRole (s : State) (c : Client) (sl : TxSlot) : (submit c sl s).dataRole = s.dataRole := rfl
@[simp] theorem submit_frsActive (s : State) (c : Client) (sl : TxSlot) : (submit c sl s).frsActive = s.frsActive := rfl
@[simp] theorem submit_ccSinkTx (s : State) (c : Client) (sl : TxSlot) : (submit c sl s).ccSinkTx = s.ccSinkTx := rfl
@[simp] theorem submit_rpValue (s : State) (c : Client) (sl : TxSlot) : (submit c sl s).rpValue = s.rpValue := rfl
@[simp] theorem submit_rxEnabled (s : State) (c : Client) (sl : TxSlot) : (submit c sl s).rxEnabled = s.rxEnabled := rfl
@[simp] theorem submit_rxq (s : State) (c : Client) (sl : TxSlot) : (submit c sl s).rxq = s.rxq := rfl
@[simp] theorem submit_txOutstanding (s : State) (c : Client) (sl : TxSlot) :
    (submit c sl s).txOutstanding = s.txOutstanding := rfl
@[simp] theorem submit_timers (s : State) (c : Client) (sl : TxSlot) : (submit c sl s).timers = s.timers := rfl
@[simp] theorem submit_trace (s : State) (c : Client) (sl : TxSlot) : (submit c sl s).trace = s.trace := rfl

/-! ### resetIds -/

@[simp] theorem resetIds_params (s : State) (v : Sop) : (resetIds v s).params = s.params := rfl
@[simp] theorem resetIds_loop (s : State) (v : Sop) : (resetIds v s).loop = s.loop := rfl
@[simp] theorem resetIds_inputs (s : State) (v : Sop) : (resetIds v s).inputs = s.inputs := rfl
@[simp] theorem resetIds_txCounter (s : State) (v : Sop) : (resetIds v s).txCounter = s.txCounter.set v 0 := rfl
@[simp] theorem resetIds_rxRecord (s : State) (v : Sop) : (resetIds v s).rxRecord = s.rxRecord.set v none := rfl
@[simp] theorem resetIds_rev (s : State) (v : Sop) : (resetIds v s).rev = s.rev := rfl
@[simp] theorem resetIds_rxBuf (s : State) (v : Sop) : (resetIds v s).rxBuf = s.rxBuf := rfl
@[simp] theorem resetIds_bytesReceived (s : State) (v : Sop) : (resetIds v s).bytesReceived = s.bytesReceived := rfl
@[simp] theorem resetIds_nextExpectedChunk (s : State) (v : Sop) :
    (resetIds v s).nextExpectedChunk = s.nextExpectedChunk := rfl
@[simp] theorem resetIds_rxTotal (s : State) (v : Sop) : (resetIds v s).rxTotal = s.rxTotal := rfl
@[simp] theorem resetIds_rxSop (s : State) (v : Sop) : (resetIds v s).rxSop = s.rxSop := rfl
@[simp] theorem resetIds_rxHdr (s : State) (v : Sop) : (resetIds v s).rxHdr = s.rxHdr := rfl
@[simp] theorem resetIds_txBuf (s : State) (v : Sop) : (resetIds v s).txBuf = s.txBuf := rfl
@[simp] theorem resetIds_sendLen (s : State) (v : Sop) : (resetIds v s).sendLen = s.sendLen := rfl
@[simp] theorem resetIds_sendOffset (s : State) (v : Sop) : (resetIds v s).sendOffset = s.sendOffset := rfl
@[simp] theorem resetIds_nextChunkToSend (s : State) (v : Sop) :
    (resetIds v s).nextChunkToSend = s.nextChunkToSend := rfl
@[simp] theorem resetIds_sendChunkLen (s : State) (v : Sop) : (resetIds v s).sendChunkLen = s.sendChunkLen := rfl
@[simp] theorem resetIds_sendSop (s : State) (v : Sop) : (resetIds v s).sendSop = s.sendSop := rfl
@[simp] theorem resetIds_sendType (s : State) (v : Sop) : (resetIds v s).sendType = s.sendType := rfl
@[simp] theorem resetIds_peReq (s : State) (v : Sop) : (resetIds v s).peReq = s.peReq := rfl
@[simp] theorem resetIds_txSlot (s : State) (v : Sop) : (resetIds v s).txSlot = s.txSlot := rfl
@[simp] theorem resetIds_txClient (s : State) (v : Sop) : (resetIds v s).txClient = s.txClient := rfl
@[simp] theorem resetIds_txSop (s : State) (v : Sop) : (resetIds v s).txSop = s.txSop := rfl
@[simp] theorem resetIds_txOwed (s : State) (v : Sop) : (resetIds v s).txOwed = s.txOwed := rfl
@[simp] theorem resetIds_rchMsg (s : State) (v : Sop) : (resetIds v s).rchMsg = s.rchMsg := rfl
@[simp] theorem resetIds_tchMsg (s : State) (v : Sop) : (resetIds v s).tchMsg = s.tchMsg := rfl
@[simp] theorem resetIds_prlTx (s : State) (v : Sop) : (resetIds v s).prlTx = s.prlTx := rfl
@[simp] theorem resetIds_prlHr (s : State) (v : Sop) : (resetIds v s).prlHr = s.prlHr := rfl
@[simp] theorem resetIds_rch (s : State) (v : Sop) : (resetIds v s).rch = s.rch := rfl
@[simp] theorem resetIds_tch (s : State) (v : Sop) : (resetIds v s).tch = s.tch := rfl
@[simp] theorem resetIds_rchErr (s : State) (v : Sop) : (resetIds v s).rchErr = s.rchErr := rfl
@[simp] theorem resetIds_rchOut (s : State) (v : Sop) : (resetIds v s).rchOut = s.rchOut := rfl
@[simp] theorem resetIds_rchCur (s : State) (v : Sop) : (resetIds v s).rchCur = s.rchCur := rfl
@[simp] theorem resetIds_tchErr (s : State) (v : Sop) : (resetIds v s).tchErr = s.tchErr := rfl
@[simp] theorem resetIds_powerRole (s : State) (v : Sop) : (resetIds v s).powerRole = s.powerRole := rfl
@[simp] theorem resetIds_dataRole (s : State) (v : Sop) : (resetIds v s).dataRole = s.dataRole := rfl
@[simp] theorem resetIds_frsActive (s : State) (v : Sop) : (resetIds v s).frsActive = s.frsActive := rfl
@[simp] theorem resetIds_ccSinkTx (s : State) (v : Sop) : (resetIds v s).ccSinkTx = s.ccSinkTx := rfl
@[simp] theorem resetIds_rpValue (s : State) (v : Sop) : (resetIds v s).rpValue = s.rpValue := rfl
@[simp] theorem resetIds_rxEnabled (s : State) (v : Sop) : (resetIds v s).rxEnabled = s.rxEnabled := rfl
@[simp] theorem resetIds_rxq (s : State) (v : Sop) : (resetIds v s).rxq = s.rxq := rfl
@[simp] theorem resetIds_txOutstanding (s : State) (v : Sop) : (resetIds v s).txOutstanding = s.txOutstanding := rfl
@[simp] theorem resetIds_timers (s : State) (v : Sop) : (resetIds v s).timers = s.timers := rfl
@[simp] theorem resetIds_trace (s : State) (v : Sop) : (resetIds v s).trace = s.trace := rfl

/-! ### keepConfirmation -/

@[simp] theorem keepConfirmation_params (s : State) : (keepConfirmation s).params = s.params := rfl
@[simp] theorem keepConfirmation_loop (s : State) : (keepConfirmation s).loop = s.loop := rfl
@[simp] theorem keepConfirmation_inputs (s : State) : (keepConfirmation s).inputs = s.inputs := rfl
@[simp] theorem keepConfirmation_txCounter (s : State) : (keepConfirmation s).txCounter = s.txCounter := rfl
@[simp] theorem keepConfirmation_rxRecord (s : State) : (keepConfirmation s).rxRecord = s.rxRecord := rfl
@[simp] theorem keepConfirmation_rev (s : State) : (keepConfirmation s).rev = s.rev := rfl
@[simp] theorem keepConfirmation_rxBuf (s : State) : (keepConfirmation s).rxBuf = s.rxBuf := rfl
@[simp] theorem keepConfirmation_bytesReceived (s : State) :
    (keepConfirmation s).bytesReceived =
      s.bytesReceived := rfl
@[simp] theorem keepConfirmation_nextExpectedChunk (s : State) :
    (keepConfirmation s).nextExpectedChunk =
      s.nextExpectedChunk := rfl
@[simp] theorem keepConfirmation_rxTotal (s : State) : (keepConfirmation s).rxTotal = s.rxTotal := rfl
@[simp] theorem keepConfirmation_rxSop (s : State) : (keepConfirmation s).rxSop = s.rxSop := rfl
@[simp] theorem keepConfirmation_rxHdr (s : State) : (keepConfirmation s).rxHdr = s.rxHdr := rfl
@[simp] theorem keepConfirmation_txBuf (s : State) : (keepConfirmation s).txBuf = s.txBuf := rfl
@[simp] theorem keepConfirmation_sendLen (s : State) : (keepConfirmation s).sendLen = s.sendLen := rfl
@[simp] theorem keepConfirmation_sendOffset (s : State) : (keepConfirmation s).sendOffset = s.sendOffset := rfl
@[simp] theorem keepConfirmation_nextChunkToSend (s : State) :
    (keepConfirmation s).nextChunkToSend =
      s.nextChunkToSend := rfl
@[simp] theorem keepConfirmation_sendChunkLen (s : State) : (keepConfirmation s).sendChunkLen = s.sendChunkLen := rfl
@[simp] theorem keepConfirmation_sendSop (s : State) : (keepConfirmation s).sendSop = s.sendSop := rfl
@[simp] theorem keepConfirmation_sendType (s : State) : (keepConfirmation s).sendType = s.sendType := rfl
@[simp] theorem keepConfirmation_peReq (s : State) : (keepConfirmation s).peReq = s.peReq := rfl
@[simp] theorem keepConfirmation_txSlot (s : State) : (keepConfirmation s).txSlot = s.txSlot := rfl
@[simp] theorem keepConfirmation_txClient (s : State) : (keepConfirmation s).txClient = s.txClient := rfl
@[simp] theorem keepConfirmation_txSop (s : State) : (keepConfirmation s).txSop = s.txSop := rfl
@[simp] theorem keepConfirmation_txOwed (s : State) :
    (keepConfirmation s).txOwed =
      if s.prlTx.state = .waitForPhyResponse ∧ s.prlTx.txCompleteOk = true then some s.txSop else s.txOwed := rfl
@[simp] theorem keepConfirmation_rchMsg (s : State) : (keepConfirmation s).rchMsg = s.rchMsg := rfl
@[simp] theorem keepConfirmation_tchMsg (s : State) : (keepConfirmation s).tchMsg = s.tchMsg := rfl
@[simp] theorem keepConfirmation_prlTx (s : State) : (keepConfirmation s).prlTx = s.prlTx := rfl
@[simp] theorem keepConfirmation_prlHr (s : State) : (keepConfirmation s).prlHr = s.prlHr := rfl
@[simp] theorem keepConfirmation_rch (s : State) : (keepConfirmation s).rch = s.rch := rfl
@[simp] theorem keepConfirmation_tch (s : State) : (keepConfirmation s).tch = s.tch := rfl
@[simp] theorem keepConfirmation_rchErr (s : State) : (keepConfirmation s).rchErr = s.rchErr := rfl
@[simp] theorem keepConfirmation_rchOut (s : State) : (keepConfirmation s).rchOut = s.rchOut := rfl
@[simp] theorem keepConfirmation_rchCur (s : State) : (keepConfirmation s).rchCur = s.rchCur := rfl
@[simp] theorem keepConfirmation_tchErr (s : State) : (keepConfirmation s).tchErr = s.tchErr := rfl
@[simp] theorem keepConfirmation_powerRole (s : State) : (keepConfirmation s).powerRole = s.powerRole := rfl
@[simp] theorem keepConfirmation_dataRole (s : State) : (keepConfirmation s).dataRole = s.dataRole := rfl
@[simp] theorem keepConfirmation_frsActive (s : State) : (keepConfirmation s).frsActive = s.frsActive := rfl
@[simp] theorem keepConfirmation_ccSinkTx (s : State) : (keepConfirmation s).ccSinkTx = s.ccSinkTx := rfl
@[simp] theorem keepConfirmation_rpValue (s : State) : (keepConfirmation s).rpValue = s.rpValue := rfl
@[simp] theorem keepConfirmation_rxEnabled (s : State) : (keepConfirmation s).rxEnabled = s.rxEnabled := rfl
@[simp] theorem keepConfirmation_rxq (s : State) : (keepConfirmation s).rxq = s.rxq := rfl
@[simp] theorem keepConfirmation_txOutstanding (s : State) :
    (keepConfirmation s).txOutstanding =
      s.txOutstanding := rfl
@[simp] theorem keepConfirmation_timers (s : State) : (keepConfirmation s).timers = s.timers := rfl
@[simp] theorem keepConfirmation_trace (s : State) : (keepConfirmation s).trace = s.trace := rfl

/-! ### countOwed -/

@[simp] theorem countOwed_params (s : State) : (countOwed s).params = s.params := rfl
@[simp] theorem countOwed_loop (s : State) : (countOwed s).loop = s.loop := rfl
@[simp] theorem countOwed_inputs (s : State) : (countOwed s).inputs = s.inputs := rfl
theorem countOwed_txCounter (s : State) :
    (countOwed s).txCounter =
      match s.txOwed with
        | none => s.txCounter
        | some v => s.txCounter.set v (s.txCounter.get v + 1) := rfl
@[simp] theorem countOwed_rxRecord (s : State) : (countOwed s).rxRecord = s.rxRecord := rfl
@[simp] theorem countOwed_rev (s : State) : (countOwed s).rev = s.rev := rfl
@[simp] theorem countOwed_rxBuf (s : State) : (countOwed s).rxBuf = s.rxBuf := rfl
@[simp] theorem countOwed_bytesReceived (s : State) : (countOwed s).bytesReceived = s.bytesReceived := rfl
@[simp] theorem countOwed_nextExpectedChunk (s : State) : (countOwed s).nextExpectedChunk = s.nextExpectedChunk := rfl
@[simp] theorem countOwed_rxTotal (s : State) : (countOwed s).rxTotal = s.rxTotal := rfl
@[simp] theorem countOwed_rxSop (s : State) : (countOwed s).rxSop = s.rxSop := rfl
@[simp] theorem countOwed_rxHdr (s : State) : (countOwed s).rxHdr = s.rxHdr := rfl
@[simp] theorem countOwed_txBuf (s : State) : (countOwed s).txBuf = s.txBuf := rfl
@[simp] theorem countOwed_sendLen (s : State) : (countOwed s).sendLen = s.sendLen := rfl
@[simp] theorem countOwed_sendOffset (s : State) : (countOwed s).sendOffset = s.sendOffset := rfl
@[simp] theorem countOwed_nextChunkToSend (s : State) : (countOwed s).nextChunkToSend = s.nextChunkToSend := rfl
@[simp] theorem countOwed_sendChunkLen (s : State) : (countOwed s).sendChunkLen = s.sendChunkLen := rfl
@[simp] theorem countOwed_sendSop (s : State) : (countOwed s).sendSop = s.sendSop := rfl
@[simp] theorem countOwed_sendType (s : State) : (countOwed s).sendType = s.sendType := rfl
@[simp] theorem countOwed_peReq (s : State) : (countOwed s).peReq = s.peReq := rfl
@[simp] theorem countOwed_txSlot (s : State) : (countOwed s).txSlot = s.txSlot := rfl
@[simp] theorem countOwed_txClient (s : State) : (countOwed s).txClient = s.txClient := rfl
@[simp] theorem countOwed_txSop (s : State) : (countOwed s).txSop = s.txSop := rfl
@[simp] theorem countOwed_txOwed (s : State) : (countOwed s).txOwed = none := rfl
@[simp] theorem countOwed_rchMsg (s : State) : (countOwed s).rchMsg = s.rchMsg := rfl
@[simp] theorem countOwed_tchMsg (s : State) : (countOwed s).tchMsg = s.tchMsg := rfl
@[simp] theorem countOwed_prlTx (s : State) : (countOwed s).prlTx = s.prlTx := rfl
@[simp] theorem countOwed_prlHr (s : State) : (countOwed s).prlHr = s.prlHr := rfl
@[simp] theorem countOwed_rch (s : State) : (countOwed s).rch = s.rch := rfl
@[simp] theorem countOwed_tch (s : State) : (countOwed s).tch = s.tch := rfl
@[simp] theorem countOwed_rchErr (s : State) : (countOwed s).rchErr = s.rchErr := rfl
@[simp] theorem countOwed_rchOut (s : State) : (countOwed s).rchOut = s.rchOut := rfl
@[simp] theorem countOwed_rchCur (s : State) : (countOwed s).rchCur = s.rchCur := rfl
@[simp] theorem countOwed_tchErr (s : State) : (countOwed s).tchErr = s.tchErr := rfl
@[simp] theorem countOwed_powerRole (s : State) : (countOwed s).powerRole = s.powerRole := rfl
@[simp] theorem countOwed_dataRole (s : State) : (countOwed s).dataRole = s.dataRole := rfl
@[simp] theorem countOwed_frsActive (s : State) : (countOwed s).frsActive = s.frsActive := rfl
@[simp] theorem countOwed_ccSinkTx (s : State) : (countOwed s).ccSinkTx = s.ccSinkTx := rfl
@[simp] theorem countOwed_rpValue (s : State) : (countOwed s).rpValue = s.rpValue := rfl
@[simp] theorem countOwed_rxEnabled (s : State) : (countOwed s).rxEnabled = s.rxEnabled := rfl
@[simp] theorem countOwed_rxq (s : State) : (countOwed s).rxq = s.rxq := rfl
@[simp] theorem countOwed_txOutstanding (s : State) : (countOwed s).txOutstanding = s.txOutstanding := rfl
@[simp] theorem countOwed_timers (s : State) : (countOwed s).timers = s.timers := rfl
@[simp] theorem countOwed_trace (s : State) : (countOwed s).trace = s.trace := rfl

/-! ### setPrlTxState -/

@[simp] theorem setPrlTxState_params (s : State) (t : PrlTxState) : (setPrlTxState t s).params = s.params := rfl
@[simp] theorem setPrlTxState_loop (s : State) (t : PrlTxState) : (setPrlTxState t s).loop = s.loop := rfl
@[simp] theorem setPrlTxState_inputs (s : State) (t : PrlTxState) : (setPrlTxState t s).inputs = s.inputs := rfl
@[simp] theorem setPrlTxState_txCounter (s : State) (t : PrlTxState) :
    (setPrlTxState t s).txCounter = s.txCounter := rfl
@[simp] theorem setPrlTxState_rxRecord (s : State) (t : PrlTxState) : (setPrlTxState t s).rxRecord = s.rxRecord := rfl
@[simp] theorem setPrlTxState_rev (s : State) (t : PrlTxState) : (setPrlTxState t s).rev = s.rev := rfl
@[simp] theorem setPrlTxState_rxBuf (s : State) (t : PrlTxState) : (setPrlTxState t s).rxBuf = s.rxBuf := rfl
@[simp] theorem setPrlTxState_bytesReceived (s : State) (t : PrlTxState) :
    (setPrlTxState t s).bytesReceived = s.bytesReceived := rfl
@[simp] theorem setPrlTxState_nextExpectedChunk (s : State) (t : PrlTxState) :
    (setPrlTxState t s).nextExpectedChunk = s.nextExpectedChunk := rfl
@[simp] theorem setPrlTxState_rxTotal (s : State) (t : PrlTxState) : (setPrlTxState t s).rxTotal = s.rxTotal := rfl
@[simp] theorem setPrlTxState_rxSop (s : State) (t : PrlTxState) : (setPrlTxState t s).rxSop = s.rxSop := rfl
@[simp] theorem setPrlTxState_rxHdr (s : State) (t : PrlTxState) : (setPrlTxState t s).rxHdr = s.rxHdr := rfl
@[simp] theorem setPrlTxState_txBuf (s : State) (t : PrlTxState) : (setPrlTxState t s).txBuf = s.txBuf := rfl
@[simp] theorem setPrlTxState_sendLen (s : State) (t : PrlTxState) : (setPrlTxState t s).sendLen = s.sendLen := rfl
@[simp] theorem setPrlTxState_sendOffset (s : State) (t : PrlTxState) :
    (setPrlTxState t s).sendOffset = s.sendOffset := rfl
@[simp] theorem setPrlTxState_nextChunkToSend (s : State) (t : PrlTxState) :
    (setPrlTxState t s).nextChunkToSend = s.nextChunkToSend := rfl
@[simp] theorem setPrlTxState_sendChunkLen (s : State) (t : PrlTxState) :
    (setPrlTxState t s).sendChunkLen = s.sendChunkLen := rfl
@[simp] theorem setPrlTxState_sendSop (s : State) (t : PrlTxState) : (setPrlTxState t s).sendSop = s.sendSop := rfl
@[simp] theorem setPrlTxState_sendType (s : State) (t : PrlTxState) : (setPrlTxState t s).sendType = s.sendType := rfl
@[simp] theorem setPrlTxState_peReq (s : State) (t : PrlTxState) : (setPrlTxState t s).peReq = s.peReq := rfl
@[simp] theorem setPrlTxState_txSlot (s : State) (t : PrlTxState) : (setPrlTxState t s).txSlot = s.txSlot := rfl
@[simp] theorem setPrlTxState_txClient (s : State) (t : PrlTxState) : (setPrlTxState t s).txClient = s.txClient := rfl
@[simp] theorem setPrlTxState_txSop (s : State) (t : PrlTxState) : (setPrlTxState t s).txSop = s.txSop := rfl
@[simp] theorem setPrlTxState_txOwed (s : State) (t : PrlTxState) : (setPrlTxState t s).txOwed = s.txOwed := rfl
@[simp] theorem setPrlTxState_rchMsg (s : State) (t : PrlTxState) : (setPrlTxState t s).rchMsg = s.rchMsg := rfl
@[simp] theorem setPrlTxState_tchMsg (s : State) (t : PrlTxState) : (setPrlTxState t s).tchMsg = s.tchMsg := rfl
@[simp] theorem setPrlTxState_prlTx (s : State) (t : PrlTxState) :
    (setPrlTxState t s).prlTx = { s.prlTx with state := t } := rfl
@[simp] theorem setPrlTxState_prlHr (s : State) (t : PrlTxState) : (setPrlTxState t s).prlHr = s.prlHr := rfl
@[simp] theorem setPrlTxState_rch (s : State) (t : PrlTxState) : (setPrlTxState t s).rch = s.rch := rfl
@[simp] theorem setPrlTxState_tch (s : State) (t : PrlTxState) : (setPrlTxState t s).tch = s.tch := rfl
@[simp] theorem setPrlTxState_rchErr (s : State) (t : PrlTxState) : (setPrlTxState t s).rchErr = s.rchErr := rfl
@[simp] theorem setPrlTxState_rchOut (s : State) (t : PrlTxState) : (setPrlTxState t s).rchOut = s.rchOut := rfl
@[simp] theorem setPrlTxState_rchCur (s : State) (t : PrlTxState) : (setPrlTxState t s).rchCur = s.rchCur := rfl
@[simp] theorem setPrlTxState_tchErr (s : State) (t : PrlTxState) : (setPrlTxState t s).tchErr = s.tchErr := rfl
@[simp] theorem setPrlTxState_powerRole (s : State) (t : PrlTxState) :
    (setPrlTxState t s).powerRole = s.powerRole := rfl
@[simp] theorem setPrlTxState_dataRole (s : State) (t : PrlTxState) : (setPrlTxState t s).dataRole = s.dataRole := rfl
@[simp] theorem setPrlTxState_frsActive (s : State) (t : PrlTxState) :
    (setPrlTxState t s).frsActive = s.frsActive := rfl
@[simp] theorem setPrlTxState_ccSinkTx (s : State) (t : PrlTxState) : (setPrlTxState t s).ccSinkTx = s.ccSinkTx := rfl
@[simp] theorem setPrlTxState_rpValue (s : State) (t : PrlTxState) : (setPrlTxState t s).rpValue = s.rpValue := rfl
@[simp] theorem setPrlTxState_rxEnabled (s : State) (t : PrlTxState) :
    (setPrlTxState t s).rxEnabled = s.rxEnabled := rfl
@[simp] theorem setPrlTxState_rxq (s : State) (t : PrlTxState) : (setPrlTxState t s).rxq = s.rxq := rfl
@[simp] theorem setPrlTxState_txOutstanding (s : State) (t : PrlTxState) :
    (setPrlTxState t s).txOutstanding = s.txOutstanding := rfl
@[simp] theorem setPrlTxState_timers (s : State) (t : PrlTxState) : (setPrlTxState t s).timers = s.timers := rfl
@[simp] theorem setPrlTxState_trace (s : State) (t : PrlTxState) : (setPrlTxState t s).trace = s.trace := rfl

/-! ### setPrlHrState -/

@[simp] theorem setPrlHrState_params (s : State) (t : PrlHrState) : (setPrlHrState t s).params = s.params := rfl
@[simp] theorem setPrlHrState_loop (s : State) (t : PrlHrState) : (setPrlHrState t s).loop = s.loop := rfl
@[simp] theorem setPrlHrState_inputs (s : State) (t : PrlHrState) : (setPrlHrState t s).inputs = s.inputs := rfl
@[simp] theorem setPrlHrState_txCounter (s : State) (t : PrlHrState) :
    (setPrlHrState t s).txCounter = s.txCounter := rfl
@[simp] theorem setPrlHrState_rxRecord (s : State) (t : PrlHrState) : (setPrlHrState t s).rxRecord = s.rxRecord := rfl
@[simp] theorem setPrlHrState_rev (s : State) (t : PrlHrState) : (setPrlHrState t s).rev = s.rev := rfl
@[simp] theorem setPrlHrState_rxBuf (s : State) (t : PrlHrState) : (setPrlHrState t s).rxBuf = s.rxBuf := rfl
@[simp] theorem setPrlHrState_bytesReceived (s : State) (t : PrlHrState) :
    (setPrlHrState t s).bytesReceived = s.bytesReceived := rfl
@[simp] theorem setPrlHrState_nextExpectedChunk (s : State) (t : PrlHrState) :
    (setPrlHrState t s).nextExpectedChunk = s.nextExpectedChunk := rfl
@[simp] theorem setPrlHrState_rxTotal (s : State) (t : PrlHrState) : (setPrlHrState t s).rxTotal = s.rxTotal := rfl
@[simp] theorem setPrlHrState_rxSop (s : State) (t : PrlHrState) : (setPrlHrState t s).rxSop = s.rxSop := rfl
@[simp] theorem setPrlHrState_rxHdr (s : State) (t : PrlHrState) : (setPrlHrState t s).rxHdr = s.rxHdr := rfl
@[simp] theorem setPrlHrState_txBuf (s : State) (t : PrlHrState) : (setPrlHrState t s).txBuf = s.txBuf := rfl
@[simp] theorem setPrlHrState_sendLen (s : State) (t : PrlHrState) : (setPrlHrState t s).sendLen = s.sendLen := rfl
@[simp] theorem setPrlHrState_sendOffset (s : State) (t : PrlHrState) :
    (setPrlHrState t s).sendOffset = s.sendOffset := rfl
@[simp] theorem setPrlHrState_nextChunkToSend (s : State) (t : PrlHrState) :
    (setPrlHrState t s).nextChunkToSend = s.nextChunkToSend := rfl
@[simp] theorem setPrlHrState_sendChunkLen (s : State) (t : PrlHrState) :
    (setPrlHrState t s).sendChunkLen = s.sendChunkLen := rfl
@[simp] theorem setPrlHrState_sendSop (s : State) (t : PrlHrState) : (setPrlHrState t s).sendSop = s.sendSop := rfl
@[simp] theorem setPrlHrState_sendType (s : State) (t : PrlHrState) : (setPrlHrState t s).sendType = s.sendType := rfl
@[simp] theorem setPrlHrState_peReq (s : State) (t : PrlHrState) : (setPrlHrState t s).peReq = s.peReq := rfl
@[simp] theorem setPrlHrState_txSlot (s : State) (t : PrlHrState) : (setPrlHrState t s).txSlot = s.txSlot := rfl
@[simp] theorem setPrlHrState_txClient (s : State) (t : PrlHrState) : (setPrlHrState t s).txClient = s.txClient := rfl
@[simp] theorem setPrlHrState_txSop (s : State) (t : PrlHrState) : (setPrlHrState t s).txSop = s.txSop := rfl
@[simp] theorem setPrlHrState_txOwed (s : State) (t : PrlHrState) : (setPrlHrState t s).txOwed = s.txOwed := rfl
@[simp] theorem setPrlHrState_rchMsg (s : State) (t : PrlHrState) : (setPrlHrState t s).rchMsg = s.rchMsg := rfl
@[simp] theorem setPrlHrState_tchMsg (s : State) (t : PrlHrState) : (setPrlHrState t s).tchMsg = s.tchMsg := rfl
@[simp] theorem setPrlHrState_prlTx (s : State) (t : PrlHrState) : (setPrlHrState t s).prlTx = s.prlTx := rfl
@[simp] theorem setPrlHrState_prlHr (s : State) (t : PrlHrState) :
    (setPrlHrState t s).prlHr = { s.prlHr with state := t } := rfl
@[simp] theorem setPrlHrState_rch (s : State) (t : PrlHrState) : (setPrlHrState t s).rch = s.rch := rfl
@[simp] theorem setPrlHrState_tch (s : State) (t : PrlHrState) : (setPrlHrState t s).tch = s.tch := rfl
@[simp] theorem setPrlHrState_rchErr (s : State) (t : PrlHrState) : (setPrlHrState t s).rchErr = s.rchErr := rfl
@[simp] theorem setPrlHrState_rchOut (s : State) (t : PrlHrState) : (setPrlHrState t s).rchOut = s.rchOut := rfl
@[simp] theorem setPrlHrState_rchCur (s : State) (t : PrlHrState) : (setPrlHrState t s).rchCur = s.rchCur := rfl
@[simp] theorem setPrlHrState_tchErr (s : State) (t : PrlHrState) : (setPrlHrState t s).tchErr = s.tchErr := rfl
@[simp] theorem setPrlHrState_powerRole (s : State) (t : PrlHrState) :
    (setPrlHrState t s).powerRole = s.powerRole := rfl
@[simp] theorem setPrlHrState_dataRole (s : State) (t : PrlHrState) : (setPrlHrState t s).dataRole = s.dataRole := rfl
@[simp] theorem setPrlHrState_frsActive (s : State) (t : PrlHrState) :
    (setPrlHrState t s).frsActive = s.frsActive := rfl
@[simp] theorem setPrlHrState_ccSinkTx (s : State) (t : PrlHrState) : (setPrlHrState t s).ccSinkTx = s.ccSinkTx := rfl
@[simp] theorem setPrlHrState_rpValue (s : State) (t : PrlHrState) : (setPrlHrState t s).rpValue = s.rpValue := rfl
@[simp] theorem setPrlHrState_rxEnabled (s : State) (t : PrlHrState) :
    (setPrlHrState t s).rxEnabled = s.rxEnabled := rfl
@[simp] theorem setPrlHrState_rxq (s : State) (t : PrlHrState) : (setPrlHrState t s).rxq = s.rxq := rfl
@[simp] theorem setPrlHrState_txOutstanding (s : State) (t : PrlHrState) :
    (setPrlHrState t s).txOutstanding = s.txOutstanding := rfl
@[simp] theorem setPrlHrState_timers (s : State) (t : PrlHrState) : (setPrlHrState t s).timers = s.timers := rfl
@[simp] theorem setPrlHrState_trace (s : State) (t : PrlHrState) : (setPrlHrState t s).trace = s.trace := rfl

/-! ### setRchState -/

@[simp] theorem setRchState_params (s : State) (t : RchState) : (setRchState t s).params = s.params := rfl
@[simp] theorem setRchState_loop (s : State) (t : RchState) : (setRchState t s).loop = s.loop := rfl
@[simp] theorem setRchState_inputs (s : State) (t : RchState) : (setRchState t s).inputs = s.inputs := rfl
@[simp] theorem setRchState_txCounter (s : State) (t : RchState) : (setRchState t s).txCounter = s.txCounter := rfl
@[simp] theorem setRchState_rxRecord (s : State) (t : RchState) : (setRchState t s).rxRecord = s.rxRecord := rfl
@[simp] theorem setRchState_rev (s : State) (t : RchState) : (setRchState t s).rev = s.rev := rfl
@[simp] theorem setRchState_rxBuf (s : State) (t : RchState) : (setRchState t s).rxBuf = s.rxBuf := rfl
@[simp] theorem setRchState_bytesReceived (s : State) (t : RchState) :
    (setRchState t s).bytesReceived = s.bytesReceived := rfl
@[simp] theorem setRchState_nextExpectedChunk (s : State) (t : RchState) :
    (setRchState t s).nextExpectedChunk = s.nextExpectedChunk := rfl
@[simp] theorem setRchState_rxTotal (s : State) (t : RchState) : (setRchState t s).rxTotal = s.rxTotal := rfl
@[simp] theorem setRchState_rxSop (s : State) (t : RchState) : (setRchState t s).rxSop = s.rxSop := rfl
@[simp] theorem setRchState_rxHdr (s : State) (t : RchState) : (setRchState t s).rxHdr = s.rxHdr := rfl
@[simp] theorem setRchState_txBuf (s : State) (t : RchState) : (setRchState t s).txBuf = s.txBuf := rfl
@[simp] theorem setRchState_sendLen (s : State) (t : RchState) : (setRchState t s).sendLen = s.sendLen := rfl
@[simp] theorem setRchState_sendOffset (s : State) (t : RchState) : (setRchState t s).sendOffset = s.sendOffset := rfl
@[simp] theorem setRchState_nextChunkToSend (s : State) (t : RchState) :
    (setRchState t s).nextChunkToSend = s.nextChunkToSend := rfl
@[simp] theorem setRchState_sendChunkLen (s : State) (t : RchState) :
    (setRchState t s).sendChunkLen = s.sendChunkLen := rfl
@[simp] theorem setRchState_sendSop (s : State) (t : RchState) : (setRchState t s).sendSop = s.sendSop := rfl
@[simp] theorem setRchState_sendType (s : State) (t : RchState) : (setRchState t s).sendType = s.sendType := rfl
@[simp] theorem setRchState_peReq (s : State) (t : RchState) : (setRchState t s).peReq = s.peReq := rfl
@[simp] theorem setRchState_txSlot (s : State) (t : RchState) : (setRchState t s).txSlot = s.txSlot := rfl
@[simp] theorem setRchState_txClient (s : State) (t : RchState) : (setRchState t s).txClient = s.txClient := rfl
@[simp] theorem setRchState_txSop (s : State) (t : RchState) : (setRchState t s).txSop = s.txSop := rfl
@[simp] theorem setRchState_txOwed (s : State) (t : RchState) : (setRchState t s).txOwed = s.txOwed := rfl
@[simp] theorem setRchState_rchMsg (s : State) (t : RchState) : (setRchState t s).rchMsg = s.rchMsg := rfl
@[simp] theorem setRchState_tchMsg (s : State) (t : RchState) : (setRchState t s).tchMsg = s.tchMsg := rfl
@[simp] theorem setRchState_prlTx (s : State) (t : RchState) : (setRchState t s).prlTx = s.prlTx := rfl
@[simp] theorem setRchState_prlHr (s : State) (t : RchState) : (setRchState t s).prlHr = s.prlHr := rfl
@[simp] theorem setRchState_rch (s : State) (t : RchState) : (setRchState t s).rch = { s.rch with state := t } := rfl
@[simp] theorem setRchState_tch (s : State) (t : RchState) : (setRchState t s).tch = s.tch := rfl
@[simp] theorem setRchState_rchErr (s : State) (t : RchState) : (setRchState t s).rchErr = s.rchErr := rfl
@[simp] theorem setRchState_rchOut (s : State) (t : RchState) : (setRchState t s).rchOut = s.rchOut := rfl
@[simp] theorem setRchState_rchCur (s : State) (t : RchState) : (setRchState t s).rchCur = s.rchCur := rfl
@[simp] theorem setRchState_tchErr (s : State) (t : RchState) : (setRchState t s).tchErr = s.tchErr := rfl
@[simp] theorem setRchState_powerRole (s : State) (t : RchState) : (setRchState t s).powerRole = s.powerRole := rfl
@[simp] theorem setRchState_dataRole (s : State) (t : RchState) : (setRchState t s).dataRole = s.dataRole := rfl
@[simp] theorem setRchState_frsActive (s : State) (t : RchState) : (setRchState t s).frsActive = s.frsActive := rfl
@[simp] theorem setRchState_ccSinkTx (s : State) (t : RchState) : (setRchState t s).ccSinkTx = s.ccSinkTx := rfl
@[simp] theorem setRchState_rpValue (s : State) (t : RchState) : (setRchState t s).rpValue = s.rpValue := rfl
@[simp] theorem setRchState_rxEnabled (s : State) (t : RchState) : (setRchState t s).rxEnabled = s.rxEnabled := rfl
@[simp] theorem setRchState_rxq (s : State) (t : RchState) : (setRchState t s).rxq = s.rxq := rfl
@[simp] theorem setRchState_txOutstanding (s : State) (t : RchState) :
    (setRchState t s).txOutstanding = s.txOutstanding := rfl
@[simp] theorem setRchState_timers (s : State) (t : RchState) : (setRchState t s).timers = s.timers := rfl
@[simp] theorem setRchState_trace (s : State) (t : RchState) : (setRchState t s).trace = s.trace := rfl

/-! ### setTchState -/

@[simp] theorem setTchState_params (s : State) (t : TchState) : (setTchState t s).params = s.params := rfl
@[simp] theorem setTchState_loop (s : State) (t : TchState) : (setTchState t s).loop = s.loop := rfl
@[simp] theorem setTchState_inputs (s : State) (t : TchState) : (setTchState t s).inputs = s.inputs := rfl
@[simp] theorem setTchState_txCounter (s : State) (t : TchState) : (setTchState t s).txCounter = s.txCounter := rfl
@[simp] theorem setTchState_rxRecord (s : State) (t : TchState) : (setTchState t s).rxRecord = s.rxRecord := rfl
@[simp] theorem setTchState_rev (s : State) (t : TchState) : (setTchState t s).rev = s.rev := rfl
@[simp] theorem setTchState_rxBuf (s : State) (t : TchState) : (setTchState t s).rxBuf = s.rxBuf := rfl
@[simp] theorem setTchState_bytesReceived (s : State) (t : TchState) :
    (setTchState t s).bytesReceived = s.bytesReceived := rfl
@[simp] theorem setTchState_nextExpectedChunk (s : State) (t : TchState) :
    (setTchState t s).nextExpectedChunk = s.nextExpectedChunk := rfl
@[simp] theorem setTchState_rxTotal (s : State) (t : TchState) : (setTchState t s).rxTotal = s.rxTotal := rfl
@[simp] theorem setTchState_rxSop (s : State) (t : TchState) : (setTchState t s).rxSop = s.rxSop := rfl
@[simp] theorem setTchState_rxHdr (s : State) (t : TchState) : (setTchState t s).rxHdr = s.rxHdr := rfl
@[simp] theorem setTchState_txBuf (s : State) (t : TchState) : (setTchState t s).txBuf = s.txBuf := rfl
@[simp] theorem setTchState_sendLen (s : State) (t : TchState) : (setTchState t s).sendLen = s.sendLen := rfl
@[simp] theorem setTchState_sendOffset (s : State) (t : TchState) : (setTchState t s).sendOffset = s.sendOffset := rfl
@[simp] theorem setTchState_nextChunkToSend (s : State) (t : TchState) :
    (setTchState t s).nextChunkToSend = s.nextChunkToSend := rfl
@[simp] theorem setTchState_sendChunkLen (s : State) (t : TchState) :
    (setTchState t s).sendChunkLen = s.sendChunkLen := rfl
@[simp] theorem setTchState_sendSop (s : State) (t : TchState) : (setTchState t s).sendSop = s.sendSop := rfl
@[simp] theorem setTchState_sendType (s : State) (t : TchState) : (setTchState t s).sendType = s.sendType := rfl
@[simp] theorem setTchState_peReq (s : State) (t : TchState) : (setTchState t s).peReq = s.peReq := rfl
@[simp] theorem setTchState_txSlot (s : State) (t : TchState) : (setTchState t s).txSlot = s.txSlot := rfl
@[simp] theorem setTchState_txClient (s : State) (t : TchState) : (setTchState t s).txClient = s.txClient := rfl
@[simp] theorem setTchState_txSop (s : State) (t : TchState) : (setTchState t s).txSop = s.txSop := rfl
@[simp] theorem setTchState_txOwed (s : State) (t : TchState) : (setTchState t s).txOwed = s.txOwed := rfl
@[simp] theorem setTchState_rchMsg (s : State) (t : TchState) : (setTchState t s).rchMsg = s.rchMsg := rfl
@[simp] theorem setTchState_tchMsg (s : State) (t : TchState) : (setTchState t s).tchMsg = s.tchMsg := rfl
@[simp] theorem setTchState_prlTx (s : State) (t : TchState) : (setTchState t s).prlTx = s.prlTx := rfl
@[simp] theorem setTchState_prlHr (s : State) (t : TchState) : (setTchState t s).prlHr = s.prlHr := rfl
@[simp] theorem setTchState_rch (s : State) (t : TchState) : (setTchState t s).rch = s.rch := rfl
@[simp] theorem setTchState_tch (s : State) (t : TchState) : (setTchState t s).tch = { s.tch with state := t } := rfl
@[simp] theorem setTchState_rchErr (s : State) (t : TchState) : (setTchState t s).rchErr = s.rchErr := rfl
@[simp] theorem setTchState_rchOut (s : State) (t : TchState) : (setTchState t s).rchOut = s.rchOut := rfl
@[simp] theorem setTchState_rchCur (s : State) (t : TchState) : (setTchState t s).rchCur = s.rchCur := rfl
@[simp] theorem setTchState_tchErr (s : State) (t : TchState) : (setTchState t s).tchErr = s.tchErr := rfl
@[simp] theorem setTchState_powerRole (s : State) (t : TchState) : (setTchState t s).powerRole = s.powerRole := rfl
@[simp] theorem setTchState_dataRole (s : State) (t : TchState) : (setTchState t s).dataRole = s.dataRole := rfl
@[simp] theorem setTchState_frsActive (s : State) (t : TchState) : (setTchState t s).frsActive = s.frsActive := rfl
@[simp] theorem setTchState_ccSinkTx (s : State) (t : TchState) : (setTchState t s).ccSinkTx = s.ccSinkTx := rfl
@[simp] theorem setTchState_rpValue (s : State) (t : TchState) : (setTchState t s).rpValue = s.rpValue := rfl
@[simp] theorem setTchState_rxEnabled (s : State) (t : TchState) : (setTchState t s).rxEnabled = s.rxEnabled := rfl
@[simp] theorem setTchState_rxq (s : State) (t : TchState) : (setTchState t s).rxq = s.rxq := rfl
@[simp] theorem setTchState_txOutstanding (s : State) (t : TchState) :
    (setTchState t s).txOutstanding = s.txOutstanding := rfl
@[simp] theorem setTchState_timers (s : State) (t : TchState) : (setTchState t s).timers = s.timers := rfl
@[simp] theorem setTchState_trace (s : State) (t : TchState) : (setTchState t s).trace = s.trace := rfl

/-! ### forward -/

@[simp] theorem forward_params (s : State) : (forward s).params = s.params := rfl
@[simp] theorem forward_loop (s : State) : (forward s).loop = s.loop := rfl
@[simp] theorem forward_inputs (s : State) : (forward s).inputs = s.inputs := rfl
@[simp] theorem forward_txCounter (s : State) : (forward s).txCounter = s.txCounter := rfl
@[simp] theorem forward_rxRecord (s : State) : (forward s).rxRecord = s.rxRecord := rfl
@[simp] theorem forward_rev (s : State) : (forward s).rev = s.rev := rfl
@[simp] theorem forward_rxBuf (s : State) : (forward s).rxBuf = s.rxBuf := rfl
@[simp] theorem forward_bytesReceived (s : State) : (forward s).bytesReceived = s.bytesReceived := rfl
@[simp] theorem forward_nextExpectedChunk (s : State) : (forward s).nextExpectedChunk = s.nextExpectedChunk := rfl
@[simp] theorem forward_rxTotal (s : State) : (forward s).rxTotal = s.rxTotal := rfl
@[simp] theorem forward_rxSop (s : State) : (forward s).rxSop = s.rxSop := rfl
@[simp] theorem forward_rxHdr (s : State) : (forward s).rxHdr = s.rxHdr := rfl
@[simp] theorem forward_txBuf (s : State) : (forward s).txBuf = s.txBuf := rfl
@[simp] theorem forward_sendLen (s : State) : (forward s).sendLen = s.sendLen := rfl
@[simp] theorem forward_sendOffset (s : State) : (forward s).sendOffset = s.sendOffset := rfl
@[simp] theorem forward_nextChunkToSend (s : State) : (forward s).nextChunkToSend = s.nextChunkToSend := rfl
@[simp] theorem forward_sendChunkLen (s : State) : (forward s).sendChunkLen = s.sendChunkLen := rfl
@[simp] theorem forward_sendSop (s : State) : (forward s).sendSop = s.sendSop := rfl
@[simp] theorem forward_sendType (s : State) : (forward s).sendType = s.sendType := rfl
@[simp] theorem forward_peReq (s : State) : (forward s).peReq = s.peReq := rfl
@[simp] theorem forward_txSlot (s : State) : (forward s).txSlot = s.txSlot := rfl
@[simp] theorem forward_txClient (s : State) : (forward s).txClient = s.txClient := rfl
@[simp] theorem forward_txSop (s : State) : (forward s).txSop = s.txSop := rfl
@[simp] theorem forward_txOwed (s : State) : (forward s).txOwed = s.txOwed := rfl
@[simp] theorem forward_rchMsg (s : State) : (forward s).rchMsg = s.tchMsg := rfl
@[simp] theorem forward_tchMsg (s : State) : (forward s).tchMsg = s.tchMsg := rfl
@[simp] theorem forward_prlTx (s : State) : (forward s).prlTx = s.prlTx := rfl
@[simp] theorem forward_prlHr (s : State) : (forward s).prlHr = s.prlHr := rfl
@[simp] theorem forward_rch (s : State) : (forward s).rch = { s.rch with msgReceived := true } := rfl
@[simp] theorem forward_tch (s : State) : (forward s).tch = { s.tch with msgReceived := false } := rfl
@[simp] theorem forward_rchErr (s : State) : (forward s).rchErr = s.rchErr := rfl
@[simp] theorem forward_rchOut (s : State) : (forward s).rchOut = s.rchOut := rfl
@[simp] theorem forward_rchCur (s : State) : (forward s).rchCur = s.rchCur := rfl
@[simp] theorem forward_tchErr (s : State) : (forward s).tchErr = s.tchErr := rfl
@[simp] theorem forward_powerRole (s : State) : (forward s).powerRole = s.powerRole := rfl
@[simp] theorem forward_dataRole (s : State) : (forward s).dataRole = s.dataRole := rfl
@[simp] theorem forward_frsActive (s : State) : (forward s).frsActive = s.frsActive := rfl
@[simp] theorem forward_ccSinkTx (s : State) : (forward s).ccSinkTx = s.ccSinkTx := rfl
@[simp] theorem forward_rpValue (s : State) : (forward s).rpValue = s.rpValue := rfl
@[simp] theorem forward_rxEnabled (s : State) : (forward s).rxEnabled = s.rxEnabled := rfl
@[simp] theorem forward_rxq (s : State) : (forward s).rxq = s.rxq := rfl
@[simp] theorem forward_txOutstanding (s : State) : (forward s).txOutstanding = s.txOutstanding := rfl
@[simp] theorem forward_timers (s : State) : (forward s).timers = s.timers := rfl
@[simp] theorem forward_trace (s : State) : (forward s).trace = s.trace := rfl

/-! ### consumeRch -/

@[simp] theorem consumeRch_params (s : State) : (consumeRch s).params = s.params := rfl
@[simp] theorem consumeRch_loop (s : State) : (consumeRch s).loop = s.loop := rfl
@[simp] theorem consumeRch_inputs (s : State) : (consumeRch s).inputs = s.inputs := rfl
@[simp] theorem consumeRch_txCounter (s : State) : (consumeRch s).txCounter = s.txCounter := rfl
@[simp] theorem consumeRch_rxRecord (s : State) : (consumeRch s).rxRecord = s.rxRecord := rfl
@[simp] theorem consumeRch_rev (s : State) : (consumeRch s).rev = s.rev := rfl
@[simp] theorem consumeRch_rxBuf (s : State) : (consumeRch s).rxBuf = s.rxBuf := rfl
@[simp] theorem consumeRch_bytesReceived (s : State) : (consumeRch s).bytesReceived = s.bytesReceived := rfl
@[simp] theorem consumeRch_nextExpectedChunk (s : State) : (consumeRch s).nextExpectedChunk = s.nextExpectedChunk := rfl
@[simp] theorem consumeRch_rxTotal (s : State) : (consumeRch s).rxTotal = s.rxTotal := rfl
@[simp] theorem consumeRch_rxSop (s : State) : (consumeRch s).rxSop = s.rxSop := rfl
@[simp] theorem consumeRch_rxHdr (s : State) : (consumeRch s).rxHdr = s.rxHdr := rfl
@[simp] theorem consumeRch_txBuf (s : State) : (consumeRch s).txBuf = s.txBuf := rfl
@[simp] theorem consumeRch_sendLen (s : State) : (consumeRch s).sendLen = s.sendLen := rfl
@[simp] theorem consumeRch_sendOffset (s : State) : (consumeRch s).sendOffset = s.sendOffset := rfl
@[simp] theorem consumeRch_nextChunkToSend (s : State) : (consumeRch s).nextChunkToSend = s.nextChunkToSend := rfl
@[simp] theorem consumeRch_sendChunkLen (s : State) : (consumeRch s).sendChunkLen = s.sendChunkLen := rfl
@[simp] theorem consumeRch_sendSop (s : State) : (consumeRch s).sendSop = s.sendSop := rfl
@[simp] theorem consumeRch_sendType (s : State) : (consumeRch s).sendType = s.sendType := rfl
@[simp] theorem consumeRch_peReq (s : State) : (consumeRch s).peReq = s.peReq := rfl
@[simp] theorem consumeRch_txSlot (s : State) : (consumeRch s).txSlot = s.txSlot := rfl
@[simp] theorem consumeRch_txClient (s : State) : (consumeRch s).txClient = s.txClient := rfl
@[simp] theorem consumeRch_txSop (s : State) : (consumeRch s).txSop = s.txSop := rfl
@[simp] theorem consumeRch_txOwed (s : State) : (consumeRch s).txOwed = s.txOwed := rfl
@[simp] theorem consumeRch_rchMsg (s : State) : (consumeRch s).rchMsg = s.rchMsg := rfl
@[simp] theorem consumeRch_tchMsg (s : State) : (consumeRch s).tchMsg = s.tchMsg := rfl
@[simp] theorem consumeRch_prlTx (s : State) : (consumeRch s).prlTx = s.prlTx := rfl
@[simp] theorem consumeRch_prlHr (s : State) : (consumeRch s).prlHr = s.prlHr := rfl
@[simp] theorem consumeRch_rch (s : State) : (consumeRch s).rch = { s.rch with msgReceived := false } := rfl
@[simp] theorem consumeRch_tch (s : State) : (consumeRch s).tch = s.tch := rfl
@[simp] theorem consumeRch_rchErr (s : State) : (consumeRch s).rchErr = s.rchErr := rfl
@[simp] theorem consumeRch_rchOut (s : State) : (consumeRch s).rchOut = s.rchOut := rfl
@[simp] theorem consumeRch_rchCur (s : State) : (consumeRch s).rchCur = s.rchCur := rfl
@[simp] theorem consumeRch_tchErr (s : State) : (consumeRch s).tchErr = s.tchErr := rfl
@[simp] theorem consumeRch_powerRole (s : State) : (consumeRch s).powerRole = s.powerRole := rfl
@[simp] theorem consumeRch_dataRole (s : State) : (consumeRch s).dataRole = s.dataRole := rfl
@[simp] theorem consumeRch_frsActive (s : State) : (consumeRch s).frsActive = s.frsActive := rfl
@[simp] theorem consumeRch_ccSinkTx (s : State) : (consumeRch s).ccSinkTx = s.ccSinkTx := rfl
@[simp] theorem consumeRch_rpValue (s : State) : (consumeRch s).rpValue = s.rpValue := rfl
@[simp] theorem consumeRch_rxEnabled (s : State) : (consumeRch s).rxEnabled = s.rxEnabled := rfl
@[simp] theorem consumeRch_rxq (s : State) : (consumeRch s).rxq = s.rxq := rfl
@[simp] theorem consumeRch_txOutstanding (s : State) : (consumeRch s).txOutstanding = s.txOutstanding := rfl
@[simp] theorem consumeRch_timers (s : State) : (consumeRch s).timers = s.timers := rfl
@[simp] theorem consumeRch_trace (s : State) : (consumeRch s).trace = s.trace := rfl

/-! ### latchRequest -/

@[simp] theorem latchRequest_params (s : State) (r : PeReq) : (latchRequest r s).params = s.params := rfl
@[simp] theorem latchRequest_loop (s : State) (r : PeReq) : (latchRequest r s).loop = s.loop := rfl
@[simp] theorem latchRequest_inputs (s : State) (r : PeReq) : (latchRequest r s).inputs = s.inputs := rfl
@[simp] theorem latchRequest_txCounter (s : State) (r : PeReq) : (latchRequest r s).txCounter = s.txCounter := rfl
@[simp] theorem latchRequest_rxRecord (s : State) (r : PeReq) : (latchRequest r s).rxRecord = s.rxRecord := rfl
@[simp] theorem latchRequest_rev (s : State) (r : PeReq) : (latchRequest r s).rev = s.rev := rfl
@[simp] theorem latchRequest_rxBuf (s : State) (r : PeReq) : (latchRequest r s).rxBuf = s.rxBuf := rfl
@[simp] theorem latchRequest_bytesReceived (s : State) (r : PeReq) :
    (latchRequest r s).bytesReceived = s.bytesReceived := rfl
@[simp] theorem latchRequest_nextExpectedChunk (s : State) (r : PeReq) :
    (latchRequest r s).nextExpectedChunk = s.nextExpectedChunk := rfl
@[simp] theorem latchRequest_rxTotal (s : State) (r : PeReq) : (latchRequest r s).rxTotal = s.rxTotal := rfl
@[simp] theorem latchRequest_rxSop (s : State) (r : PeReq) : (latchRequest r s).rxSop = s.rxSop := rfl
@[simp] theorem latchRequest_rxHdr (s : State) (r : PeReq) : (latchRequest r s).rxHdr = s.rxHdr := rfl
@[simp] theorem latchRequest_txBuf (s : State) (r : PeReq) : (latchRequest r s).txBuf = s.txBuf := rfl
@[simp] theorem latchRequest_sendLen (s : State) (r : PeReq) : (latchRequest r s).sendLen = s.sendLen := rfl
@[simp] theorem latchRequest_sendOffset (s : State) (r : PeReq) : (latchRequest r s).sendOffset = s.sendOffset := rfl
@[simp] theorem latchRequest_nextChunkToSend (s : State) (r : PeReq) :
    (latchRequest r s).nextChunkToSend = s.nextChunkToSend := rfl
@[simp] theorem latchRequest_sendChunkLen (s : State) (r : PeReq) :
    (latchRequest r s).sendChunkLen = s.sendChunkLen := rfl
@[simp] theorem latchRequest_sendSop (s : State) (r : PeReq) : (latchRequest r s).sendSop = s.sendSop := rfl
@[simp] theorem latchRequest_sendType (s : State) (r : PeReq) : (latchRequest r s).sendType = s.sendType := rfl
@[simp] theorem latchRequest_peReq (s : State) (r : PeReq) : (latchRequest r s).peReq = r := rfl
@[simp] theorem latchRequest_txSlot (s : State) (r : PeReq) : (latchRequest r s).txSlot = s.txSlot := rfl
@[simp] theorem latchRequest_txClient (s : State) (r : PeReq) : (latchRequest r s).txClient = s.txClient := rfl
@[simp] theorem latchRequest_txSop (s : State) (r : PeReq) : (latchRequest r s).txSop = s.txSop := rfl
@[simp] theorem latchRequest_txOwed (s : State) (r : PeReq) : (latchRequest r s).txOwed = s.txOwed := rfl
@[simp] theorem latchRequest_rchMsg (s : State) (r : PeReq) : (latchRequest r s).rchMsg = s.rchMsg := rfl
@[simp] theorem latchRequest_tchMsg (s : State) (r : PeReq) : (latchRequest r s).tchMsg = s.tchMsg := rfl
@[simp] theorem latchRequest_prlTx (s : State) (r : PeReq) : (latchRequest r s).prlTx = s.prlTx := rfl
@[simp] theorem latchRequest_prlHr (s : State) (r : PeReq) : (latchRequest r s).prlHr = s.prlHr := rfl
@[simp] theorem latchRequest_rch (s : State) (r : PeReq) : (latchRequest r s).rch = s.rch := rfl
@[simp] theorem latchRequest_tch (s : State) (r : PeReq) :
    (latchRequest r s).tch = { s.tch with msgRequest := true } := rfl
@[simp] theorem latchRequest_rchErr (s : State) (r : PeReq) : (latchRequest r s).rchErr = s.rchErr := rfl
@[simp] theorem latchRequest_rchOut (s : State) (r : PeReq) : (latchRequest r s).rchOut = s.rchOut := rfl
@[simp] theorem latchRequest_rchCur (s : State) (r : PeReq) : (latchRequest r s).rchCur = s.rchCur := rfl
@[simp] theorem latchRequest_tchErr (s : State) (r : PeReq) : (latchRequest r s).tchErr = s.tchErr := rfl
@[simp] theorem latchRequest_powerRole (s : State) (r : PeReq) : (latchRequest r s).powerRole = s.powerRole := rfl
@[simp] theorem latchRequest_dataRole (s : State) (r : PeReq) : (latchRequest r s).dataRole = s.dataRole := rfl
@[simp] theorem latchRequest_frsActive (s : State) (r : PeReq) : (latchRequest r s).frsActive = s.frsActive := rfl
@[simp] theorem latchRequest_ccSinkTx (s : State) (r : PeReq) : (latchRequest r s).ccSinkTx = s.ccSinkTx := rfl
@[simp] theorem latchRequest_rpValue (s : State) (r : PeReq) : (latchRequest r s).rpValue = s.rpValue := rfl
@[simp] theorem latchRequest_rxEnabled (s : State) (r : PeReq) : (latchRequest r s).rxEnabled = s.rxEnabled := rfl
@[simp] theorem latchRequest_rxq (s : State) (r : PeReq) : (latchRequest r s).rxq = s.rxq := rfl
@[simp] theorem latchRequest_txOutstanding (s : State) (r : PeReq) :
    (latchRequest r s).txOutstanding = s.txOutstanding := rfl
@[simp] theorem latchRequest_timers (s : State) (r : PeReq) : (latchRequest r s).timers = s.timers := rfl
@[simp] theorem latchRequest_trace (s : State) (r : PeReq) : (latchRequest r s).trace = s.trace := rfl

/-! ### leaveWait -/

@[simp] theorem leaveWait_params (s : State) : (leaveWait s).params = s.params := rfl
@[simp] theorem leaveWait_loop (s : State) : (leaveWait s).loop = s.loop := rfl
@[simp] theorem leaveWait_inputs (s : State) : (leaveWait s).inputs = s.inputs := rfl
@[simp] theorem leaveWait_txCounter (s : State) : (leaveWait s).txCounter = s.txCounter := rfl
@[simp] theorem leaveWait_rxRecord (s : State) : (leaveWait s).rxRecord = s.rxRecord := rfl
@[simp] theorem leaveWait_rev (s : State) : (leaveWait s).rev = s.rev := rfl
@[simp] theorem leaveWait_rxBuf (s : State) : (leaveWait s).rxBuf = s.rxBuf := rfl
@[simp] theorem leaveWait_bytesReceived (s : State) : (leaveWait s).bytesReceived = s.bytesReceived := rfl
@[simp] theorem leaveWait_nextExpectedChunk (s : State) : (leaveWait s).nextExpectedChunk = s.nextExpectedChunk := rfl
@[simp] theorem leaveWait_rxTotal (s : State) : (leaveWait s).rxTotal = s.rxTotal := rfl
@[simp] theorem leaveWait_rxSop (s : State) : (leaveWait s).rxSop = s.rxSop := rfl
@[simp] theorem leaveWait_rxHdr (s : State) : (leaveWait s).rxHdr = s.rxHdr := rfl
@[simp] theorem leaveWait_txBuf (s : State) : (leaveWait s).txBuf = s.txBuf := rfl
@[simp] theorem leaveWait_sendLen (s : State) : (leaveWait s).sendLen = s.sendLen := rfl
@[simp] theorem leaveWait_sendOffset (s : State) : (leaveWait s).sendOffset = s.sendOffset := rfl
@[simp] theorem leaveWait_nextChunkToSend (s : State) : (leaveWait s).nextChunkToSend = s.nextChunkToSend := rfl
@[simp] theorem leaveWait_sendChunkLen (s : State) : (leaveWait s).sendChunkLen = s.sendChunkLen := rfl
@[simp] theorem leaveWait_sendSop (s : State) : (leaveWait s).sendSop = s.sendSop := rfl
@[simp] theorem leaveWait_sendType (s : State) : (leaveWait s).sendType = s.sendType := rfl
@[simp] theorem leaveWait_peReq (s : State) : (leaveWait s).peReq = s.peReq := rfl
@[simp] theorem leaveWait_txSlot (s : State) : (leaveWait s).txSlot = s.txSlot := rfl
@[simp] theorem leaveWait_txClient (s : State) : (leaveWait s).txClient = s.txClient := rfl
@[simp] theorem leaveWait_txSop (s : State) : (leaveWait s).txSop = s.txSop := rfl
@[simp] theorem leaveWait_txOwed (s : State) : (leaveWait s).txOwed = s.txOwed := rfl
@[simp] theorem leaveWait_rchMsg (s : State) : (leaveWait s).rchMsg = s.rchMsg := rfl
@[simp] theorem leaveWait_tchMsg (s : State) : (leaveWait s).tchMsg = s.tchMsg := rfl
@[simp] theorem leaveWait_prlTx (s : State) : (leaveWait s).prlTx = s.prlTx := rfl
@[simp] theorem leaveWait_prlHr (s : State) : (leaveWait s).prlHr = s.prlHr := rfl
@[simp] theorem leaveWait_rch (s : State) : (leaveWait s).rch = s.rch := rfl
@[simp] theorem leaveWait_tch (s : State) : (leaveWait s).tch = s.tch := rfl
@[simp] theorem leaveWait_rchErr (s : State) : (leaveWait s).rchErr = s.rchErr := rfl
@[simp] theorem leaveWait_rchOut (s : State) : (leaveWait s).rchOut = s.rchOut := rfl
@[simp] theorem leaveWait_rchCur (s : State) : (leaveWait s).rchCur = s.rchCur := rfl
@[simp] theorem leaveWait_tchErr (s : State) : (leaveWait s).tchErr = s.tchErr := rfl
@[simp] theorem leaveWait_powerRole (s : State) : (leaveWait s).powerRole = s.powerRole := rfl
@[simp] theorem leaveWait_dataRole (s : State) : (leaveWait s).dataRole = s.dataRole := rfl
@[simp] theorem leaveWait_frsActive (s : State) : (leaveWait s).frsActive = s.frsActive := rfl
@[simp] theorem leaveWait_ccSinkTx (s : State) : (leaveWait s).ccSinkTx = s.ccSinkTx := rfl
@[simp] theorem leaveWait_rpValue (s : State) : (leaveWait s).rpValue = s.rpValue := rfl
@[simp] theorem leaveWait_rxEnabled (s : State) : (leaveWait s).rxEnabled = s.rxEnabled := rfl
@[simp] theorem leaveWait_rxq (s : State) : (leaveWait s).rxq = s.rxq := rfl
@[simp] theorem leaveWait_txOutstanding (s : State) : (leaveWait s).txOutstanding = s.txOutstanding := rfl
@[simp] theorem leaveWait_timers (s : State) : (leaveWait s).timers = s.timers.set .wakeCeiling Timer.off := rfl
@[simp] theorem leaveWait_trace (s : State) : (leaveWait s).trace = s.trace := rfl

/-! ### enterWait -/

@[simp] theorem enterWait_params (s : State) : (enterWait s).params = s.params := rfl
@[simp] theorem enterWait_loop (s : State) : (enterWait s).loop = .waiting := rfl
@[simp] theorem enterWait_inputs (s : State) : (enterWait s).inputs = s.inputs := rfl
@[simp] theorem enterWait_txCounter (s : State) : (enterWait s).txCounter = s.txCounter := rfl
@[simp] theorem enterWait_rxRecord (s : State) : (enterWait s).rxRecord = s.rxRecord := rfl
@[simp] theorem enterWait_rev (s : State) : (enterWait s).rev = s.rev := rfl
@[simp] theorem enterWait_rxBuf (s : State) : (enterWait s).rxBuf = s.rxBuf := rfl
@[simp] theorem enterWait_bytesReceived (s : State) : (enterWait s).bytesReceived = s.bytesReceived := rfl
@[simp] theorem enterWait_nextExpectedChunk (s : State) : (enterWait s).nextExpectedChunk = s.nextExpectedChunk := rfl
@[simp] theorem enterWait_rxTotal (s : State) : (enterWait s).rxTotal = s.rxTotal := rfl
@[simp] theorem enterWait_rxSop (s : State) : (enterWait s).rxSop = s.rxSop := rfl
@[simp] theorem enterWait_rxHdr (s : State) : (enterWait s).rxHdr = s.rxHdr := rfl
@[simp] theorem enterWait_txBuf (s : State) : (enterWait s).txBuf = s.txBuf := rfl
@[simp] theorem enterWait_sendLen (s : State) : (enterWait s).sendLen = s.sendLen := rfl
@[simp] theorem enterWait_sendOffset (s : State) : (enterWait s).sendOffset = s.sendOffset := rfl
@[simp] theorem enterWait_nextChunkToSend (s : State) : (enterWait s).nextChunkToSend = s.nextChunkToSend := rfl
@[simp] theorem enterWait_sendChunkLen (s : State) : (enterWait s).sendChunkLen = s.sendChunkLen := rfl
@[simp] theorem enterWait_sendSop (s : State) : (enterWait s).sendSop = s.sendSop := rfl
@[simp] theorem enterWait_sendType (s : State) : (enterWait s).sendType = s.sendType := rfl
@[simp] theorem enterWait_peReq (s : State) : (enterWait s).peReq = s.peReq := rfl
@[simp] theorem enterWait_txSlot (s : State) : (enterWait s).txSlot = s.txSlot := rfl
@[simp] theorem enterWait_txClient (s : State) : (enterWait s).txClient = s.txClient := rfl
@[simp] theorem enterWait_txSop (s : State) : (enterWait s).txSop = s.txSop := rfl
@[simp] theorem enterWait_txOwed (s : State) : (enterWait s).txOwed = s.txOwed := rfl
@[simp] theorem enterWait_rchMsg (s : State) : (enterWait s).rchMsg = s.rchMsg := rfl
@[simp] theorem enterWait_tchMsg (s : State) : (enterWait s).tchMsg = s.tchMsg := rfl
@[simp] theorem enterWait_prlTx (s : State) : (enterWait s).prlTx = s.prlTx := rfl
@[simp] theorem enterWait_prlHr (s : State) : (enterWait s).prlHr = s.prlHr := rfl
@[simp] theorem enterWait_rch (s : State) : (enterWait s).rch = s.rch := rfl
@[simp] theorem enterWait_tch (s : State) : (enterWait s).tch = s.tch := rfl
@[simp] theorem enterWait_rchErr (s : State) : (enterWait s).rchErr = s.rchErr := rfl
@[simp] theorem enterWait_rchOut (s : State) : (enterWait s).rchOut = s.rchOut := rfl
@[simp] theorem enterWait_rchCur (s : State) : (enterWait s).rchCur = s.rchCur := rfl
@[simp] theorem enterWait_tchErr (s : State) : (enterWait s).tchErr = s.tchErr := rfl
@[simp] theorem enterWait_powerRole (s : State) : (enterWait s).powerRole = s.powerRole := rfl
@[simp] theorem enterWait_dataRole (s : State) : (enterWait s).dataRole = s.dataRole := rfl
@[simp] theorem enterWait_frsActive (s : State) : (enterWait s).frsActive = s.frsActive := rfl
@[simp] theorem enterWait_ccSinkTx (s : State) : (enterWait s).ccSinkTx = s.ccSinkTx := rfl
@[simp] theorem enterWait_rpValue (s : State) : (enterWait s).rpValue = s.rpValue := rfl
@[simp] theorem enterWait_rxEnabled (s : State) : (enterWait s).rxEnabled = s.rxEnabled := rfl
@[simp] theorem enterWait_rxq (s : State) : (enterWait s).rxq = s.rxq := rfl
@[simp] theorem enterWait_txOutstanding (s : State) : (enterWait s).txOutstanding = s.txOutstanding := rfl
@[simp] theorem enterWait_timers (s : State) : (enterWait s).timers = s.timers.set .wakeCeiling Timer.on := rfl
@[simp] theorem enterWait_trace (s : State) : (enterWait s).trace = s.trace := rfl

end Sys2Proof.Machine
end

