-- ==== Sys2Proof/Laws/Ops.lean ====
section
/-! SUPPORT. What each shared operation does, said once as one update of the state, so that no later proof unfolds
`goto`, `notify`, `raise` or the re-arms. -/

namespace Sys2Proof.Machine

/-! ### Per-variant arrays and timers -/

@[simp] theorem PerSop.get_fill {α : Type} (a : α) (v : Sop) : (PerSop.fill a).get v = a := by cases v <;> rfl

theorem PerSop.get_set {α : Type} (a : PerSop α) (v w : Sop) (x : α) :
    (a.set v x).get w = if w = v then x else a.get w := by cases v <;> cases w <;> rfl

@[simp] theorem PerSop.get_set_self {α : Type} (a : PerSop α) (v : Sop) (x : α) : (a.set v x).get v = x := by
  cases v <;> rfl

theorem PerSop.get_set_ne {α : Type} (a : PerSop α) {v w : Sop} (x : α) (h : w ≠ v) :
    (a.set v x).get w = a.get w := by rw [PerSop.get_set, if_neg h]

@[simp] theorem PerSop.set_fill {α : Type} (a : α) (v : Sop) : (PerSop.fill a).set v a = PerSop.fill a := by
  cases v <;> rfl

theorem PerSop.ext_get {α : Type} {a b : PerSop α} (h : ∀ v, a.get v = b.get v) : a = b := by
  have h0 := h .plain
  have h1 := h .prime
  have h2 := h .doublePrime
  have h3 := h .debug
  have h4 := h .primeDebug
  have h5 := h .doublePrimeDebug
  cases a; cases b
  simp only [PerSop.get] at h0 h1 h2 h3 h4 h5
  subst h0 h1 h2 h3 h4 h5
  rfl

theorem Timers.get_set (t : Timers) (i j : TimerId) (v : Timer) :
    (t.set i v).get j = if j = i then v else t.get j := by cases i <;> cases j <;> rfl

@[simp] theorem Timers.set_txResponse (t : Timers) (v : Timer) : t.set .txResponse v = { t with txResponse := v } := rfl
@[simp] theorem Timers.set_srcCa (t : Timers) (v : Timer) : t.set .srcCa v = { t with srcCa := v } := rfl
@[simp] theorem Timers.set_hrComplete (t : Timers) (v : Timer) : t.set .hrComplete v = { t with hrComplete := v } := rfl
@[simp] theorem Timers.set_chunkResponse (t : Timers) (v : Timer) :
    t.set .chunkResponse v = { t with chunkResponse := v } := rfl
@[simp] theorem Timers.set_chunkRequest (t : Timers) (v : Timer) :
    t.set .chunkRequest v = { t with chunkRequest := v } := rfl
@[simp] theorem Timers.set_wakeCeiling (t : Timers) (v : Timer) :
    t.set .wakeCeiling v = { t with wakeCeiling := v } := rfl

/-! ### PRL-TX -/

/-- The exit of PRL-TX's state, as the timers it leaves. -/
theorem exitPrlTx_eq (s : State) : exitPrlTx s = { s with timers := prlTxTimersOff s } := by
  unfold exitPrlTx prlTxTimersOff
  split <;> simp_all [State.disarm]

theorem restoreRp_eq (s : State) :
    restoreRp s = { s with rpValue := .ok, trace := s.trace ++ (if s.rpValue = .ng then [.tpSetRp .ok] else []) } := by
  rcases s with ⟨⟩
  rename_i rp _ _ _ _ _
  cases rp <;> simp [restoreRp, State.setRp]

theorem gotoPrlTx_phyReset (s : State) :
    gotoPrlTx .phyReset s = { s with prlTx := ⟨.phyReset, false, false, false⟩, timers := prlTxTimersOff s } := by
  rw [gotoPrlTx, exitPrlTx_eq]
  rfl

theorem gotoPrlTx_waitForMessageRequest (s : State) :
    gotoPrlTx .waitForMessageRequest s = afterPrlTxIdle { s with timers := prlTxTimersOff s } := by
  rw [gotoPrlTx, exitPrlTx_eq]
  simp only [enterPrlTx, restoreRp_eq]
  rfl

theorem gotoPrlTx_layerResetForTransmit (s : State) :
    gotoPrlTx .layerResetForTransmit s =
      { s with
        prlTx := { s.prlTx with state := .layerResetForTransmit }
        txCounter := s.txCounter.set s.txSlot.sop 0
        rxRecord := s.rxRecord.set s.txSlot.sop none
        timers := prlTxTimersOff s } := by
  rw [gotoPrlTx, exitPrlTx_eq]
  rfl

theorem gotoPrlTx_srcCollisionAvoidance (s : State) :
    gotoPrlTx .srcCollisionAvoidance s =
      { s with
        prlTx := { s.prlTx with state := .srcCollisionAvoidance }
        rpValue := .ng
        trace := s.trace ++ [.tpSetRp .ng]
        timers := { prlTxTimersOff s with srcCa := Timer.on } } := by
  rw [gotoPrlTx, exitPrlTx_eq]
  rfl

theorem gotoPrlTx_snkCollisionAvoidance (s : State) :
    gotoPrlTx .snkCollisionAvoidance s =
      { s with prlTx := { s.prlTx with state := .snkCollisionAvoidance }, timers := prlTxTimersOff s } := by
  rw [gotoPrlTx, exitPrlTx_eq]
  rfl

theorem gotoPrlTx_waitForPhyResponse (s : State) :
    gotoPrlTx .waitForPhyResponse s = afterTransmit { s with timers := prlTxTimersOff s } := by
  rw [gotoPrlTx, exitPrlTx_eq]
  rfl

/-- `notify` changes the client's flag and nothing else. -/
theorem notify_eq (x : TxOutcome) (s : State) :
    notify x s =
      { s with
        tch := if s.txClient = .tch then s.tch.setOutcome x else s.tch
        rch := if s.txClient = .rch then s.rch.setOutcome x else s.rch } := by
  unfold notify
  split <;> simp_all

theorem gotoPrlTx_discardMessage (s : State) :
    gotoPrlTx .discardMessage s =
      { s with
        prlTx := ⟨.discardMessage, false, false, false⟩
        timers := prlTxTimersOff s
        tch := if s.txClient = .tch then { s.tch with txDiscarded := true } else s.tch
        rch := if s.txClient = .rch then { s.rch with txDiscarded := true } else s.rch } := by
  rw [gotoPrlTx, exitPrlTx_eq]
  simp only [enterPrlTx, notify_eq]
  rfl

theorem rearmPrlTx_eq (s : State) :
    rearmPrlTx s = { s with prlTx := ⟨.phyReset, false, false, false⟩, timers := prlTxTimersOff s } := by
  rw [rearmPrlTx, gotoPrlTx_phyReset]
  rfl

theorem keepConfirmation_eq (s : State) : keepConfirmation s = { s with txOwed := owedBy s } := rfl

theorem countOwed_none {s : State} (h : s.txOwed = none) : countOwed s = s := by
  rcases s with ⟨⟩
  cases h
  rfl

theorem countOwed_some {s : State} {v : Sop} (h : s.txOwed = some v) :
    countOwed s = { s with txCounter := s.txCounter.set v (s.txCounter.get v + 1), txOwed := none } := by
  rw [countOwed, h]

/-- PRL-TX's sub-step where nothing is owed is its run. -/
theorem stepPrlTx_none {s : State} (h : s.txOwed = none) : stepPrlTx s = runPrlTx s := by
  rw [stepPrlTx, countOwed_none h]

/-! ### PRL-HR -/

theorem exitPrlHr_eq (s : State) :
    exitPrlHr s =
      { s with
        timers :=
          { s.timers with
            hrComplete := if s.prlHr.state = .waitForPhyHardResetComplete then Timer.off else s.timers.hrComplete } } := by
  unfold exitPrlHr
  split <;> simp_all [State.disarm]

/-! ### RCH -/

/-- The timers with the one that WaitingChunk armed disarmed (R201). -/
def rchTimersOff (s : State) : Timers :=
  { s.timers with chunkResponse := if s.rch.state = .waitingChunk then Timer.off else s.timers.chunkResponse }

theorem exitRch_eq (s : State) : exitRch s = { s with timers := rchTimersOff s } := by
  unfold exitRch rchTimersOff
  split <;> simp_all [State.disarm]

theorem gotoRch_waitForMessage (s : State) :
    gotoRch .waitForMessage s = afterRchIdle { s with timers := rchTimersOff s } := by
  rw [gotoRch, exitRch_eq]
  rfl

theorem gotoRch_processingExtendedMessage (s : State) :
    gotoRch .processingExtendedMessage s =
      { s with rch := { s.rch with state := .processingExtendedMessage }, timers := rchTimersOff s } := by
  rw [gotoRch, exitRch_eq]
  rfl

theorem gotoRch_requestingChunk (s : State) :
    gotoRch .requestingChunk s =
      { s with
        rch := { s.rch with state := .requestingChunk }
        timers := rchTimersOff s
        txSlot := chunkRequestSlot s
        txClient := .rch
        prlTx := { s.prlTx with txRequest := true } } := by
  rw [gotoRch, exitRch_eq]
  rfl

theorem gotoRch_waitingChunk (s : State) :
    gotoRch .waitingChunk s =
      { s with
        rch := { s.rch with state := .waitingChunk }
        timers := { rchTimersOff s with chunkResponse := Timer.on } } := by
  rw [gotoRch, exitRch_eq]
  rfl

theorem gotoRch_passUpMessage (s : State) :
    gotoRch .passUpMessage s = afterPassUp s.rchOut { s with timers := rchTimersOff s } := by
  rw [gotoRch, exitRch_eq]
  rfl

/-- RCH's ReportError with nothing to pass up first. -/
theorem gotoRch_reportError (s : State) (h : s.rch.passInterrupting = false) :
    gotoRch .reportError s = afterRchError s.rchErr s.rxSop { s with timers := rchTimersOff s } := by
  rw [gotoRch, exitRch_eq]
  simp [enterRch, enterRchReportError, setRchState, h, afterRchError, State.emit]

/-- RCH's ReportError with an interrupting message to pass up first. -/
theorem gotoRch_reportError_passing (s : State) (h : s.rch.passInterrupting = true) :
    gotoRch .reportError s =
      afterRchError s.rchErr s.rxSop
        { s with
          timers := rchTimersOff s
          rch := { s.rch with passInterrupting := false }
          trace := s.trace ++ [.peMessageReceived s.rchOut] } := by
  rw [gotoRch, exitRch_eq]
  simp [enterRch, enterRchReportError, setRchState, h, afterRchError, State.emit]

theorem raiseErr_rch (kind : ErrKind) (v : Sop) (s : State) (h : s.rch.passInterrupting = false) :
    raiseErr .rch kind v s = afterRchError kind v { s with timers := rchTimersOff s } :=
  gotoRch_reportError { s with rchErr := kind, rxSop := v } h

theorem isChunkProtocol_iff (p : Params) (m : Msg) :
    isChunkProtocol p m = true ↔ classify p m = .extChunk ∨ classify p m = .extChunkRequest := by
  unfold isChunkProtocol
  cases classify p m <;> simp

theorem interruptRch_eq (m : Msg) (s : State) (h : s.rch.passInterrupting = false) :
    interruptRch m .chunkSequence s = afterInterrupt m { s with timers := rchTimersOff s } := by
  unfold interruptRch afterInterrupt
  by_cases hc : isChunkProtocol s.params m = true
  · rw [if_pos hc, if_pos ((isChunkProtocol_iff _ _).1 hc)]
    exact raiseErr_rch _ _ _ h
  · rw [if_neg hc, if_neg fun he => hc ((isChunkProtocol_iff _ _).2 he)]
    refine (gotoRch_reportError_passing _ rfl).trans ?_
    simp only [afterRchError, rchTimersOff, ← h]

theorem rearmRch_eq (s : State) :
    rearmRch s =
      { s with
        rch := ⟨.waitForMessage, false, false, false, false, false, false⟩
        timers := rchTimersOff s
        bytesReceived := 0
        nextExpectedChunk := 0
        rxTotal := 0 } := by
  rw [rearmRch, gotoRch_waitForMessage]
  rfl

/-! ### TCH -/

/-- The timers with the one that WaitChunkRequest armed disarmed (R229). -/
def tchTimersOff (s : State) : Timers :=
  { s.timers with chunkRequest := if s.tch.state = .waitChunkRequest then Timer.off else s.timers.chunkRequest }

theorem exitTch_eq (s : State) : exitTch s = { s with timers := tchTimersOff s } := by
  unfold exitTch tchTimersOff
  split <;> simp_all [State.disarm]

theorem gotoTch_waitForRequestFromPe (s : State) :
    gotoTch .waitForRequestFromPe s = afterTchIdle { s with timers := tchTimersOff s } := by
  rw [gotoTch, exitTch_eq]
  rfl

theorem gotoTch_constructChunkedMessage (s : State) :
    gotoTch .constructChunkedMessage s =
      { s with tch := { s.tch with state := .constructChunkedMessage }, timers := tchTimersOff s } := by
  rw [gotoTch, exitTch_eq]
  rfl

theorem gotoTch_waitForTransmissionComplete (s : State) :
    gotoTch .waitForTransmissionComplete s =
      { s with tch := { s.tch with state := .waitForTransmissionComplete }, timers := tchTimersOff s } := by
  rw [gotoTch, exitTch_eq]
  rfl

theorem gotoTch_sendingChunkedMessage (s : State) :
    gotoTch .sendingChunkedMessage s =
      { s with tch := { s.tch with state := .sendingChunkedMessage }, timers := tchTimersOff s } := by
  rw [gotoTch, exitTch_eq]
  rfl

theorem gotoTch_waitChunkRequest (s : State) :
    gotoTch .waitChunkRequest s =
      { s with
        tch := { s.tch with state := .waitChunkRequest }
        timers := { tchTimersOff s with chunkRequest := Timer.on } } := by
  rw [gotoTch, exitTch_eq]
  rfl

theorem gotoTch_messageSent (s : State) :
    gotoTch .messageSent s = afterSent { s with timers := tchTimersOff s } := by
  rw [gotoTch, exitTch_eq]
  rfl

theorem gotoTch_messageReceived (s : State) :
    gotoTch .messageReceived s = afterPreempted { s with timers := tchTimersOff s } := by
  rw [gotoTch, exitTch_eq]
  rfl

theorem raiseErr_tch (kind : ErrKind) (v : Sop) (s : State) :
    raiseErr .tch kind v s = afterTchError kind v { s with timers := tchTimersOff s } := by
  rw [raiseErr, gotoTch, exitTch_eq]
  rfl

theorem rearmTch_eq (s : State) :
    rearmTch s =
      { s with
        tch := ⟨.waitForRequestFromPe, false, false, false, false, false, false⟩
        timers := tchTimersOff s
        sendLen := 0
        sendOffset := 0
        nextChunkToSend := 0
        sendChunkLen := 0 } := by
  rw [rearmTch, gotoTch_waitForRequestFromPe]
  rfl

/-! ### PRL-RX -/

/-- Acceptance of a message: a pending send is discarded and the ID recorded (R127). -/
theorem accept_eq (m : Msg) (s : State) : accept m s = afterAccept m s := by
  unfold accept afterAccept afterDiscard
  by_cases h : txPending s = true
  · simp only [h, if_true, gotoPrlTx_discardMessage]
    rfl
  · simp only [h]
    simp

/-- `tx_pending` depends on PRL-TX alone. -/
theorem txPending_congr {s t : State} (h : t.prlTx = s.prlTx) : txPending t = txPending s := by
  unfold txPending
  rw [h]

/-! ### Results -/

@[simp] theorem thenState_next (s : State) (f : State → State) : thenState (.next s) f = .next (f s) := rfl
@[simp] theorem andThen_next (s : State) (f : State → Result) : andThen (.next s) f = f s := rfl
@[simp] theorem andThen_fault (e : Fault) (f : State → Result) : andThen (.fault e) f = .fault e := rfl
@[simp] theorem andThen_refused (e : Refusal) (f : State → Result) : andThen (.refused e) f = .refused e := rfl
@[simp] theorem thenState_fault (e : Fault) (f : State → State) : thenState (.fault e) f = .fault e := rfl
@[simp] theorem thenState_refused (e : Refusal) (f : State → State) : thenState (.refused e) f = .refused e := rfl

/-- The assertion of R233: forwarding completes exactly where RCH's latch is free. -/
theorem preemptTch_eq (s : State) :
    preemptTch s =
      if s.rch.msgReceived then .fault .forwardWhileRchLatchFull
      else .next (afterPreempted { s with timers := tchTimersOff s }) := by
  rw [preemptTch, gotoTch_messageReceived]

/-- The assertion of R198: RCH submits its request exactly where nothing is pending. -/
theorem requestChunk_eq (s : State) :
    requestChunk s =
      if txPending s then .fault .rchSubmitWhileTxPending
      else .next
        { s with
          rch := { s.rch with state := .requestingChunk }
          timers := rchTimersOff s
          txSlot := chunkRequestSlot s
          txClient := .rch
          prlTx := { s.prlTx with txRequest := true } } := by
  rw [requestChunk, gotoRch_requestingChunk]

end Sys2Proof.Machine
end

