-- ==== Sys2Proof/Laws/Chunks.lean ====
section
/-! SUPPORT. The receiving side of the chunk protocol: what a chunk of TCH's is to RCH, and what one run of RCH does
with the chunk it expects (R194, R211). -/

namespace Sys2Proof.Machine

/-- RCH holds chunk `k` of the message that `a` sends and has stored the chunks before it. -/
structure Ready (a : State) (v : Sop) (h0 : Half) (p : Params) (tr : List Emit) (k : Nat) (m : Msg) (u : State)
    : Prop where
  rch : u.rch = ⟨.processingExtendedMessage, false, false, false, false, false, false⟩
  cur : u.rchCur = m
  got : u.bytesReceived = 26 * k
  next : u.nextExpectedChunk = k
  total : k ≠ 0 → u.rxTotal = a.sendLen
  sop : u.rxSop = v
  hdr : u.rxHdr = h0
  wf : u.rxBuf.wf = true
  buf : u.rxBuf.bufRead 0 (26 * k) = a.txBuf.bufRead 0 (26 * k)
  tx : u.prlTx = ⟨.waitForMessageRequest, false, false, false⟩
  params : u.params = p
  trace : u.trace = tr

/-- RCH has stored the chunks before chunk `k` and submitted its request for it. -/
structure Requesting (a : State) (v : Sop) (h0 : Half) (p : Params) (tr : List Emit) (k : Nat) (u : State)
    : Prop where
  rch : u.rch = ⟨.requestingChunk, false, false, false, false, false, false⟩
  got : u.bytesReceived = 26 * k
  next : u.nextExpectedChunk = k
  total : u.rxTotal = a.sendLen
  sop : u.rxSop = v
  hdr : u.rxHdr = h0
  wf : u.rxBuf.wf = true
  buf : u.rxBuf.bufRead 0 (26 * k) = a.txBuf.bufRead 0 (26 * k)
  tx : u.prlTx = ⟨.waitForMessageRequest, true, false, false⟩
  params : u.params = p
  trace : u.trace = tr

/-- The slot of chunk `k` of the message that `a` sends (R223). -/
abbrev chunkOf (a : State) (k : Nat) : TxSlot := chunkSlot { a with sendOffset := 26 * k, nextChunkToSend := k }

theorem xh_of (a : State) (p : Params) (v : Sop) (h : Half) (k : Nat) (hp : a.params.extHdrLayout = p.extHdrLayout) :
    msgXHdr p ⟨v, h, (chunkOf a k).words⟩ = ⟨BitVec.ofNat 9 a.sendLen, true, false, BitVec.ofNat 4 k⟩ := by
  simp only [msgXHdr, msgXh, chunkOf, chunkSlot, extSlot, packExt_xh, ← hp, xhDecode_xhEncode]

theorem chunkLen_of (a : State) (k : Nat) : chunkLen { a with sendOffset := 26 * k, nextChunkToSend := k } = min 26
    (a.sendLen - 26 * k) := rfl

theorem ndo_of (a : State) (k : Nat) : (chunkOf a k).ndo.toNat = ndoOfLen (min 26 (a.sendLen - 26 * k)) := by
  have hn := ndoOfLen_le (min 26 (a.sendLen - 26 * k)) (Nat.min_le_left _ _)
  simp only [chunkOf, chunkSlot, extSlot, BitVec.toNat_ofNat, chunkLen_of]
  omega

theorem class_of (a : State) (p : Params) (v : Sop) (h : Half) (k : Nat) (hp : a.params.extHdrLayout = p.extHdrLayout)
    (h1 : hdrExt h = true) (h2 : hdrNdo h = (chunkOf a k).ndo) : classify p ⟨v, h, (chunkOf a k).words⟩
        = .extChunk := by
  have hn := ndoOfLen_le (min 26 (a.sendLen - 26 * k)) (Nat.min_le_left _ _)
  have h3 : hdrNdo h ≠ 0 := by
    intro h0
    have := ndo_of a k
    rw [← h2, h0] at this
    simp at this
    omega
  unfold classify
  rw [if_pos (by exact h1), if_neg (by exact h3), xh_of a p v h k hp]
  simp

/-- RCH's run on the chunk it expects: the message is handed up, or the next chunk requested. -/
theorem process_ready {a u : State} {v : Sop} {h0 h : Half} {p : Params} {tr : List Emit} {k : Nat}
    (r : Ready a v h0 p tr k ⟨v, h, (chunkOf a k).words⟩ u) (hp : a.params.extHdrLayout = p.extHdrLayout)
    (hS : a.sendLen ≤ 416) (hM : a.sendLen ≤ p.maxExtMsgBytes) (hk : k < chunkCount a.sendLen)
    (h2 : hdrNdo h = (chunkOf a k).ndo) :
    ∃ t, runRch u = .next t ∧
      (k + 1 = chunkCount a.sendLen → t.rch.state = .passUpMessage ∧
        t.trace = tr ++ [.peMessageReceived (.reassembled v h0 a.sendLen (a.txBuf.bufRead 0 a.sendLen))]) ∧
      (k + 1 < chunkCount a.sendLen → Requesting a v h0 p tr (k + 1) t) := by
  have hk15 : k ≤ 15 := by unfold chunkCount maxChunkBytes at hk; omega
  obtain ⟨e1, e2, e3, e4, e5, e6, e7, e8, e9, e10, e11, e12⟩ := r
  have hx : msgXHdr u.params u.rchCur = ⟨BitVec.ofNat 9 a.sendLen, true, false, BitVec.ofNat 4 k⟩ := by
    rw [e11, e2, xh_of _ _ _ _ _ hp]
  have hkn : (BitVec.ofNat 4 k).toNat = k := by rw [BitVec.toNat_ofNat]; omega
  have hSn : (BitVec.ofNat 9 a.sendLen).toNat = a.sendLen := by rw [BitVec.toNat_ofNat]; omega
  let w : State := { u with rxTotal := a.sendLen }
  have hproc : runRch u = finishOrRequest (appendChunk u.rchCur w) := by
    have hs : u.rch.state = .processingExtendedMessage := by rw [e1]
    have ha : u.rch.abort = false := by rw [e1]
    have h1 : runRch u = processChunk u.rchCur (msgXHdr u.params u.rchCur) u := by
      unfold runRch
      rw [hs]
      dsimp only
      rw [ha]
      rfl
    rw [h1, hx]
    unfold processChunk
    dsimp only
    rw [if_neg (show ¬ (BitVec.ofNat 4 k).toNat ≠ u.nextExpectedChunk by rw [hkn, e4]; simp), hSn]
    by_cases h0 : k = 0
    · subst h0
      rw [if_pos (show BitVec.ofNat 4 0 = 0 from rfl), if_neg
          (show ¬ u.params.maxExtMsgBytes < a.sendLen by rw [e11]; omega)]
    · have : BitVec.ofNat 4 k ≠ 0 := fun hc => h0 (by rw [← hkn, hc]; rfl)
      rw [if_neg this]
      have hw : w = u := by
        show ({ u with rxTotal := a.sendLen } : State) = u
        rw [← e5 h0]
      rw [hw]
  rw [hproc]
  have hlen : chunkTake a.sendLen u.bytesReceived u.rchCur = min 26 (a.sendLen - 26 * k) := by
    have hn := ndo_of a k
    unfold chunkTake msgNdo
    rw [e2, e3, h2, hn]
    unfold ndoOfLen maxChunkBytes
    omega
  have hpay : (msgPayload u.rchCur).take (min 26 (a.sendLen - 26 * k)) = a.txBuf.bufRead (26 * k) (min 26
      (a.sendLen - 26 * k)) := by
    rw [e2]
    simp only [msgPayload, chunkOf, chunkSlot, extSlot, packExt_payload, chunkLen_of]
    rw [List.take_left' (by simp)]
  have hbuf : (appendChunk u.rchCur w).rxBuf.bufRead 0 (26 * k + min 26 (a.sendLen - 26 * k)) = a.txBuf.bufRead 0
      (26 * k + min 26 (a.sendLen - 26 * k)) := by
    show ((u.rxBuf.bufWrite u.bytesReceived ((msgPayload u.rchCur).take
        (chunkTake a.sendLen u.bytesReceived u.rchCur))).bufRead 0 _) = _
    rw [hlen, hpay, e3, Memory.bufRead_add, Memory.bufRead_add, Memory.bufRead_bufWrite_below _ _ _ _ _ e8
        (by omega), e9, Nat.zero_add]
    congr 1
    have := Memory.bufRead_bufWrite_same u.rxBuf (26 * k) (a.txBuf.bufRead (26 * k) (min 26 (a.sendLen - 26 * k))) e8
    simpa using this
  have hgot : (appendChunk u.rchCur w).bytesReceived = 26 * k + min 26 (a.sendLen - 26 * k) := by
    show u.bytesReceived + chunkTake a.sendLen u.bytesReceived u.rchCur = _
    rw [hlen, e3]
  unfold finishOrRequest requestChunk
  by_cases hlast : k + 1 = chunkCount a.sendLen
  · have h26 : 26 * k + min 26 (a.sendLen - 26 * k) = a.sendLen := by unfold chunkCount maxChunkBytes at *; omega
    rw [if_pos (by rw [hgot, h26]; exact Nat.le_refl _), gotoRch_passUpMessage]
    refine ⟨_, rfl, fun _ => ⟨rfl, ?_⟩, fun hc => absurd hlast (by omega)⟩
    rw [h26] at hbuf
    show u.trace ++ [.peMessageReceived (.reassembled u.rxSop u.rxHdr a.sendLen
        ((appendChunk u.rchCur w).rxBuf.bufRead 0 a.sendLen))] = _
    rw [hbuf, e6, e7, e12]
  · have h26 : min 26 (a.sendLen - 26 * k) = 26 := by unfold chunkCount maxChunkBytes at *; omega
    rw [if_neg (by rw [hgot]; show ¬ a.sendLen ≤ _; unfold chunkCount maxChunkBytes at *; omega)]
    have htx : txPending (appendChunk u.rchCur w) = false := by
      show txPending _ = _
      unfold txPending
      show (u.prlTx.txRequest || _) = _
      have : (appendChunk u.rchCur w).prlTx = ⟨.waitForMessageRequest, false, false, false⟩ := e10
      rw [this, e10]
      rfl
    rw [htx, if_neg (by simp), gotoRch_requestingChunk]
    refine ⟨_, rfl, fun hc => absurd hc hlast, fun _ => ?_⟩
    have e1' : u.rch = _ := e1
    refine ⟨?_, ?_, ?_, rfl, e6, e7, Memory.wf_bufWrite _ _ _ e8, ?_, ?_, e11, e12⟩
    · show ({ u.rch with state := .requestingChunk } : Rch) = _
      rw [e1]
    · show (appendChunk u.rchCur w).bytesReceived = _
      rw [hgot, h26]; omega
    · show u.nextExpectedChunk + 1 = _
      rw [e4]
    · show (appendChunk u.rchCur w).rxBuf.bufRead 0 (26 * (k + 1)) = _
      rw [h26] at hbuf
      exact hbuf
    · show ({ u.prlTx with txRequest := true } : PrlTx) = _
      rw [e10]

end Sys2Proof.Machine
end

