-- ==== Sys2Proof/Laws/Decode.lean ====
section
/-! SUPPORT. Laws of the operand readers: each reads back what the encoder writes, and what it reads is what the
encoder would write. -/

namespace Sys2Proof

open Sys2Proof.Machine

/-! ### Reading what was written -/

@[simp] theorem readByte_cons (b : Byte) (rest : List Byte) : readByte (b :: rest) = .ok (b, rest) := rfl

@[simp] theorem sopOfByte_sopByte (v : Sop) : sopOfByte (sopByte v) = .ok v := by cases v <;> rfl

@[simp] theorem readSop_sopByte (v : Sop) (rest : List Byte) : readSop (sopByte v :: rest) = .ok (v, rest) := by
  cases v <;> rfl

@[simp] theorem readType_setWidth (t : BitVec 5) (rest : List Byte) :
    readType (t.setWidth 8 :: rest) = .ok (t, rest) := by
  have h := t.isLt
  have h1 : (t.setWidth 8).toNat = t.toNat := by rw [BitVec.toNat_setWidth]; omega
  have h2 : (t.setWidth 8).setWidth 5 = t := by
    apply BitVec.eq_of_toNat_eq
    rw [BitVec.toNat_setWidth, h1]
    omega
  show (if (t.setWidth 8).toNat < 32 then _ else _) = _
  rw [if_pos (by omega), h2]

@[simp] theorem readRev_setWidth (r : BitVec 2) (rest : List Byte) :
    readRev (r.setWidth 8 :: rest) = .ok (r, rest) := by
  have h := r.isLt
  have h1 : (r.setWidth 8).toNat = r.toNat := by rw [BitVec.toNat_setWidth]; omega
  have h2 : (r.setWidth 8).setWidth 2 = r := by
    apply BitVec.eq_of_toNat_eq
    rw [BitVec.toNat_setWidth, h1]
    omega
  show (if (r.setWidth 8).toNat < 4 then _ else _) = _
  rw [if_pos (by omega), h2]

@[simp] theorem readHalf_halfBytes (h : Half) (rest : List Byte) : readHalf (halfBytes h ++ rest) = .ok (h, rest) := by
  show Except.ok (halfOfBytes (h.extractLsb' 0 8) (h.extractLsb' 8 8), rest) = _
  rw [halfOfBytes_extract]

@[simp] theorem readWord_wordBytes (w : Word) (rest : List Byte) : readWord (wordBytes w ++ rest) = .ok (w, rest) := by
  show Except.ok (wordOfBytes (w.extractLsb' 0 8) (w.extractLsb' 8 8) (w.extractLsb' 16 8) (w.extractLsb' 24 8), rest) = _
  rw [wordOfBytes_extract]

theorem readWords_succ (n : Nat) (bs : List Byte) :
    readWords (n + 1) bs = (readWord bs).bind fun a => (readWords n a.2).bind fun b => .ok (a.1 :: b.1, b.2) := rfl

theorem readBytes_succ (n : Nat) (bs : List Byte) :
    readBytes (n + 1) bs = (readByte bs).bind fun a => (readBytes n a.2).bind fun b => .ok (a.1 :: b.1, b.2) := rfl

/-- As many words as were written are read back. -/
theorem readWords_dataArea (ws : List Word) (rest : List Byte) :
    readWords ws.length (dataArea ws ++ rest) = .ok (ws, rest) := by
  induction ws with
  | nil => rfl
  | cons w ws ih =>
    rw [List.length_cons, readWords_succ, dataArea_cons, List.append_assoc, readWord_wordBytes]
    simp only [Except.bind, ih]

/-- As many bytes as were written are read back. -/
theorem readBytes_append (bs rest : List Byte) : readBytes bs.length (bs ++ rest) = .ok (bs, rest) := by
  induction bs with
  | nil => rfl
  | cons b bs ih =>
    rw [List.length_cons, readBytes_succ, List.cons_append, readByte_cons]
    simp only [Except.bind, ih]

/-! ### What was read was written -/

theorem readByte_ok {bs : List Byte} {b : Byte} {rest : List Byte} (h : readByte bs = .ok (b, rest)) :
    bs = b :: rest := by
  cases bs with
  | nil => cases h
  | cons c cs => cases h; rfl

theorem sopOfByte_ok {b : Byte} {v : Sop} (h : sopOfByte b = .ok v) : b = sopByte v := by
  have all : ∀ (b : Byte) (v : Sop), (sopOfByte b).toOption = some v → b = sopByte v := by decide +revert
  exact all b v (by rw [h]; rfl)

theorem readSop_ok {bs : List Byte} {v : Sop} {rest : List Byte} (h : readSop bs = .ok (v, rest)) :
    bs = sopByte v :: rest := by
  cases bs with
  | nil => cases h
  | cons c cs =>
    have h' : (sopOfByte c).bind (fun s => .ok (s, cs)) = Except.ok (v, rest) := h
    cases hc : sopOfByte c with
    | error e => rw [hc] at h'; cases h'
    | ok w => rw [hc] at h'; cases h'; rw [sopOfByte_ok hc]

theorem readType_ok {bs : List Byte} {t : BitVec 5} {rest : List Byte} (h : readType bs = .ok (t, rest)) :
    bs = t.setWidth 8 :: rest := by
  cases bs with
  | nil => cases h
  | cons c cs =>
    have h' : (if c.toNat < 32 then Except.ok (c.setWidth 5, cs) else .error (DecodeError.typeOutOfRange c)) =
      Except.ok (t, rest) := h
    split at h'
    · cases h'
      congr 1
      apply BitVec.eq_of_toNat_eq
      have := c.isLt
      rw [BitVec.toNat_setWidth, BitVec.toNat_setWidth]
      omega
    · cases h'

theorem readRev_ok {bs : List Byte} {r : BitVec 2} {rest : List Byte} (h : readRev bs = .ok (r, rest)) :
    bs = r.setWidth 8 :: rest := by
  cases bs with
  | nil => cases h
  | cons c cs =>
    have h' : (if c.toNat < 4 then Except.ok (c.setWidth 2, cs) else .error (DecodeError.revisionOutOfRange c)) =
      Except.ok (r, rest) := h
    split at h'
    · cases h'
      congr 1
      apply BitVec.eq_of_toNat_eq
      have := c.isLt
      rw [BitVec.toNat_setWidth, BitVec.toNat_setWidth]
      omega
    · cases h'

theorem readChoice_ok {α : Type} {zero one a : α} {bs rest : List Byte}
    (h : readChoice zero one bs = .ok (a, rest)) :
    (a = zero ∧ bs = 0 :: rest) ∨ (a = one ∧ bs = 1 :: rest) := by
  cases bs with
  | nil => cases h
  | cons c cs =>
    have h' : readChoice zero one (c :: cs) = Except.ok (a, rest) := h
    simp only [readChoice, readByte_cons, bind, Except.bind] at h'
    split at h'
    · rename_i hc
      cases h'
      exact .inl ⟨rfl, congrArg (· :: rest) (BitVec.eq_of_toNat_eq hc)⟩
    · rename_i hc
      cases h'
      exact .inr ⟨rfl, congrArg (· :: rest) (BitVec.eq_of_toNat_eq hc)⟩
    · cases h'

theorem readHalf_ok {bs : List Byte} {h : Half} {rest : List Byte} (e : readHalf bs = .ok (h, rest)) :
    bs = halfBytes h ++ rest := by
  match bs with
  | [] => cases e
  | [_] => cases e
  | b0 :: b1 :: cs =>
    have e' : Except.ok (halfOfBytes b0 b1, cs) = Except.ok (h, rest) := e
    cases e'
    rw [halfBytes_halfOfBytes]
    rfl

theorem readWord_ok {bs : List Byte} {w : Word} {rest : List Byte} (e : readWord bs = .ok (w, rest)) :
    bs = wordBytes w ++ rest := by
  match bs with
  | [] => cases e
  | [_] => cases e
  | [_, _] => cases e
  | [_, _, _] => cases e
  | b0 :: b1 :: b2 :: b3 :: cs =>
    have e' : Except.ok (wordOfBytes b0 b1 b2 b3, cs) = Except.ok (w, rest) := e
    cases e'
    rw [wordBytes_wordOfBytes]
    rfl

theorem readWords_ok : ∀ {n : Nat} {bs : List Byte} {ws : List Word} {rest : List Byte},
    readWords n bs = .ok (ws, rest) → ws.length = n ∧ bs = dataArea ws ++ rest
  | 0, _, _, _, e => by cases e; exact ⟨rfl, rfl⟩
  | n + 1, bs, ws, rest, e => by
    rw [readWords_succ] at e
    cases h1 : readWord bs with
    | error x => rw [h1] at e; cases e
    | ok a =>
      rw [h1] at e
      simp only [Except.bind] at e
      cases h2 : readWords n a.2 with
      | error x => rw [h2] at e; cases e
      | ok b =>
        rw [h2] at e
        cases e
        obtain ⟨hl, hb⟩ := readWords_ok h2
        exact ⟨by rw [List.length_cons, hl], by rw [readWord_ok h1, hb, dataArea_cons, List.append_assoc]⟩

theorem readBytes_ok : ∀ {n : Nat} {bs cs rest : List Byte},
    readBytes n bs = .ok (cs, rest) → cs.length = n ∧ bs = cs ++ rest
  | 0, _, _, _, e => by cases e; exact ⟨rfl, rfl⟩
  | n + 1, bs, cs, rest, e => by
    rw [readBytes_succ] at e
    cases h1 : readByte bs with
    | error x => rw [h1] at e; cases e
    | ok a =>
      rw [h1] at e
      simp only [Except.bind] at e
      cases h2 : readBytes n a.2 with
      | error x => rw [h2] at e; cases e
      | ok b =>
        rw [h2] at e
        cases e
        obtain ⟨hl, hb⟩ := readBytes_ok h2
        exact ⟨by rw [List.length_cons, hl], by rw [readByte_ok h1, hb, List.cons_append]⟩

/-! ### Messages -/

/-- A consistent message is read back from its bytes (R90). -/
theorem readMsg_msgBytes (m : Msg) (rest : List Byte) (h : msgConsistent m) :
    readMsg m.sop (msgBytes m ++ rest) = .ok (m, rest) := by
  have hn : (hdrNdo m.hdr).toNat = m.words.length := h.symm
  show (readHalf (msgBytes m ++ rest)).bind (fun a => (readWords (hdrNdo a.1).toNat a.2).bind fun b =>
    Except.ok ((⟨m.sop, a.1, b.1⟩ : Msg), b.2)) = _
  rw [msgBytes, List.append_assoc, readHalf_halfBytes]
  simp only [Except.bind, hn, readWords_dataArea]

/-- A message that was read is consistent, and its bytes are those read. -/
theorem readMsg_ok {v : Sop} {bs : List Byte} {m : Msg} {rest : List Byte} (e : readMsg v bs = .ok (m, rest)) :
    m.sop = v ∧ msgConsistent m ∧ bs = msgBytes m ++ rest := by
  have e' : (readHalf bs).bind (fun a => (readWords (hdrNdo a.1).toNat a.2).bind fun b =>
    Except.ok ((⟨v, a.1, b.1⟩ : Msg), b.2)) = .ok (m, rest) := e
  cases h1 : readHalf bs with
  | error x => rw [h1] at e'; cases e'
  | ok a =>
    rw [h1] at e'
    simp only [Except.bind] at e'
    cases h2 : readWords (hdrNdo a.1).toNat a.2 with
    | error x => rw [h2] at e'; cases e'
    | ok b =>
      rw [h2] at e'
      cases e'
      obtain ⟨hl, hb⟩ := readWords_ok h2
      exact ⟨rfl, hl, by rw [readHalf_ok h1, hb, msgBytes, List.append_assoc]⟩

/-- The instruction a message decodes to is encoded as that message. -/
@[simp] theorem encode_decodeMsg (p : Params) (m : Msg) : encode (decodeMsg p m) = .message m.sop (msgBytes m) := by
  unfold decodeMsg
  split <;> rfl

end Sys2Proof
end

