-- ==== Sys2Proof/Laws/Frames.lean ====
section
/-! SUPPORT. What the machines leave alone: no run reads or writes the loop's control point or the events to come,
and what each keeps of the state; then what one step can be. -/

namespace Sys2Proof.Machine

/-! ### No machine reads or writes the control point or the events to come -/

/-- The same state at another control point, with other events to come. -/
abbrev State.at (s : State) (l : Loop × List Input) : State := { s with loop := l.1, inputs := l.2 }

theorem gotoPrlTx_at (t : PrlTxState) (s : State) (l : Loop × List Input) : gotoPrlTx t (s.at l) = (gotoPrlTx t s).at l := by
  cases t <;> simp only [gotoPrlTx_phyReset, gotoPrlTx_waitForMessageRequest, gotoPrlTx_layerResetForTransmit,
      gotoPrlTx_srcCollisionAvoidance,
   gotoPrlTx_snkCollisionAvoidance, gotoPrlTx_waitForPhyResponse, gotoPrlTx_discardMessage] <;> rfl

theorem notify_at (x : TxOutcome) (s : State) (l : Loop × List Input) : notify x (s.at l) = (notify x s).at l := by
  simp only [notify_eq]

theorem gotoPrlHr_at (t : PrlHrState) (s : State) (l : Loop × List Input) : gotoPrlHr t (s.at l) = (gotoPrlHr t s).at l := by
  unfold gotoPrlHr
  rw [exitPrlHr_eq, exitPrlHr_eq]
  cases t <;> rfl

theorem gotoRch_at (t : RchState) (s : State) (l : Loop × List Input) : gotoRch t (s.at l) = (gotoRch t s).at l := by
  cases t
  case reportError =>
    cases h : s.rch.passInterrupting
    · rw [gotoRch_reportError s h, gotoRch_reportError (s.at l) h]; rfl
    · rw [gotoRch_reportError_passing s h, gotoRch_reportError_passing (s.at l) h]; rfl
  all_goals (unfold gotoRch; rw [exitRch_eq, exitRch_eq]; rfl)

theorem gotoTch_at (t : TchState) (s : State) (l : Loop × List Input) : gotoTch t (s.at l) = (gotoTch t s).at l := by
  unfold gotoTch
  rw [exitTch_eq, exitTch_eq]
  cases t <;> rfl

theorem raiseErr_at (r : Raiser) (k : ErrKind) (v : Sop) (s : State) (l : Loop × List Input) :
    raiseErr r k v (s.at l) = (raiseErr r k v s).at l := by
  cases r
  · exact gotoRch_at _ { s with rchErr := k, rxSop := v } l
  · exact gotoTch_at _ { s with tchErr := k, sendSop := v } l

theorem at_ite (c : Prop) [Decidable c] (a b : State) (l : Loop × List Input) :
   (if c then a else b).at l = if c then a.at l else b.at l := by split <;> rfl

theorem thenState_ite (c : Prop) [Decidable c] (a b : Result) (f : State → State) :
   thenState (if c then a else b) f = if c then thenState a f else thenState b f := by split <;> rfl

theorem runPrlTx_at (s : State) (l : Loop × List Input) : runPrlTx (s.at l) = (runPrlTx s).at l := by
  cases h : s.prlTx.state
  case waitForMessageRequest => 
    simp only [runPrlTx, h, runWaitForMessageRequest, at_ite]
    split; · split; · exact gotoPrlTx_at _ _ _
             · show (if caApplies s s.txSlot.sop = true then _ else _) = _
               split
               · cases s.powerRole <;> exact gotoPrlTx_at _ _ _
               · exact gotoPrlTx_at _ _ _
    · rfl
  case waitForPhyResponse => 
    simp only [runPrlTx, h, runWaitForPhyResponse, at_ite]
    split
    · rw [← gotoPrlTx_at, ← notify_at]; rfl
    split
    · rw [← gotoPrlTx_at, ← notify_at]
    show (if s.timerExpired .txResponse = true then _ else _) = _
    split
    · rw [← gotoPrlTx_at, ← notify_at]
    · rfl
  case srcCollisionAvoidance =>
    simp only [runPrlTx, h, at_ite]
    show (if s.timerExpired .srcCa = true then _ else _) = _
    split <;> first | exact gotoPrlTx_at _ _ _ | rfl
  case snkCollisionAvoidance =>
    simp only [runPrlTx, h, at_ite]
    split <;> first | exact gotoPrlTx_at _ _ _ | rfl
  all_goals simp only [runPrlTx, h]; exact gotoPrlTx_at _ _ _

theorem stepPrlTx_at (s : State) (l : Loop × List Input) : stepPrlTx (s.at l) = (stepPrlTx s).at l :=
  runPrlTx_at (countOwed s) l

theorem hrFinalExit_at (s : State) (l : Loop × List Input) : hrFinalExit (s.at l) = (hrFinalExit s).at l := by
  simp only [hrFinalExit, rearmPrlTx_eq, rearmRch_eq, rearmTch_eq]
  rfl

theorem runPrlHr_at (s : State) (l : Loop × List Input) : runPrlHr (s.at l) = (runPrlHr s).at l := by
  cases h : s.prlHr.state
  case waitForRequest =>
    simp only [runPrlHr, h, at_ite, ← gotoPrlHr_at]
  case resetLayer =>
    simp only [runPrlHr, h, at_ite, ← gotoPrlHr_at]
    rfl
  case waitForPhyHardResetComplete =>
    simp only [runPrlHr, h, at_ite, ← gotoPrlHr_at]
    rfl
  case waitForPeHardResetComplete =>
    simp only [runPrlHr, h, at_ite, ← gotoPrlHr_at, ← hrFinalExit_at]

theorem interruptRch_at (m : Msg) (k : ErrKind) (s : State) (l : Loop × List Input) : interruptRch m k (s.at l) =
    (interruptRch m k s).at l := by
  unfold interruptRch
  rw [at_ite, ← raiseErr_at, ← raiseErr_at]

theorem requestChunk_at (s : State) (l : Loop × List Input) : requestChunk (s.at l) = thenState (requestChunk s) (·.at l) := by
  unfold requestChunk
  rw [thenState_ite, thenState_next, ← gotoRch_at]
  rfl

theorem preemptTch_at (s : State) (l : Loop × List Input) : preemptTch (s.at l) = thenState (preemptTch s) (·.at l) := by
  unfold preemptTch
  rw [thenState_ite, thenState_next, ← gotoTch_at]
  rfl

theorem finishOrRequest_at (s : State) (l : Loop × List Input) : finishOrRequest (s.at l) = thenState (finishOrRequest s) (·.at l)
    := by
  unfold finishOrRequest
  rw [thenState_ite, thenState_next, ← gotoRch_at, ← requestChunk_at]

theorem rchTake_at (m : Msg) (s : State) (l : Loop × List Input) : rchTake m (s.at l) = (rchTake m s).at l := by
  unfold rchTake
  cases classify s.params m <;> simp only [at_ite, ← gotoRch_at, ← raiseErr_at]

theorem runRch_at (s : State) (l : Loop × List Input) : runRch (s.at l) = thenState (runRch s) (·.at l) := by
  cases h : s.rch.state
  case waitForMessage =>
    simp only [runRch, h, thenState_next, runRchWaitForMessage, at_ite, ← rchTake_at]
    rfl
  case processingExtendedMessage =>
    simp only [runRch, h, thenState_ite, thenState_next, abortRch, returnToIdle, ← gotoRch_at, processChunk,
        ← finishOrRequest_at, ← raiseErr_at]
    rfl
  case requestingChunk =>
    simp only [runRch, h, thenState_next, runRequestingChunk, at_ite, abortRch, returnToIdle, ← gotoRch_at,
        ← interruptRch_at, ← raiseErr_at]
    rfl
  case waitingChunk =>
    simp only [runRch, h, thenState_next, runWaitingChunk, at_ite, abortRch, returnToIdle, ← gotoRch_at,
        ← interruptRch_at, ← raiseErr_at]
    rfl
  all_goals simp only [runRch, h, thenState_next, returnToIdle, ← gotoRch_at]

theorem takeRequest_at (s : State) (l : Loop × List Input) : takeRequest (s.at l) = (takeRequest s).at l := by
  cases h : s.peReq.kind <;> simp only [takeRequest, h, extendedRequest, at_ite, ← gotoTch_at, ← raiseErr_at] <;> rfl

theorem tchDiscarded_at (s : State) (l : Loop × List Input) : tchDiscarded (s.at l) = thenState (tchDiscarded s) (·.at l) := by
  simp only [tchDiscarded, thenState_ite, thenState_next, ← gotoTch_at, ← preemptTch_at]
  rfl

theorem runTch_at (s : State) (l : Loop × List Input) : runTch (s.at l) = thenState (runTch s) (·.at l) := by
  cases h : s.tch.state
  case waitForRequestFromPe =>
    simp only [runTch, h, runWaitForRequestFromPe, forwardChecked, thenState_ite, thenState_next, thenState_fault,
        ← takeRequest_at]
    rfl
  case constructChunkedMessage =>
    simp only [runTch, h, runConstructChunkedMessage, thenState_ite, thenState_next, abortTch, returnToIdle,
        ← gotoTch_at, ← preemptTch_at]
    rfl
  case waitForTransmissionComplete =>
    simp only [runTch, h, runWaitForTransmissionComplete, thenState_ite, thenState_next, tchFailed, ← raiseErr_at,
        ← gotoTch_at, ← tchDiscarded_at]
  case sendingChunkedMessage =>
    simp only [runTch, h, runSendingChunkedMessage, thenState_ite, thenState_next, tchFailed, chunkConfirmed, at_ite,
        ← raiseErr_at, ← gotoTch_at, ← tchDiscarded_at]
  case waitChunkRequest =>
    simp only [runTch, h, runWaitChunkRequest, thenState_ite, thenState_next, abortTch, returnToIdle, ← raiseErr_at,
        ← gotoTch_at, ← preemptTch_at]
    rfl
  all_goals simp only [runTch, h, thenState_next, returnToIdle, ← gotoTch_at]

theorem accept_at (m : Msg) (s : State) (l : Loop × List Input) : accept m (s.at l) = (accept m s).at l := by
  unfold accept
  by_cases h : txPending s = true
  · have h' : txPending (s.at l) = true := h
    have hk : keepConfirmation (s.at l) = (keepConfirmation s).at l := rfl
    simp only [h, h', hk, if_true, gotoPrlTx_at]
  · have h' : ¬ txPending (s.at l) = true := h
    simp only [h, h']; rfl

theorem route_at (m : Msg) (s : State) (l : Loop × List Input) : route m (s.at l) = (route m s).at l := by
  simp only [route, at_ite]
  rfl

theorem acceptThen_at (m : Msg) (f : State → State) (hf : ∀ s l, f (s.at l) = (f s).at l) (s : State) (l : Loop × List Input) :
    acceptThen m f (s.at l) = (acceptThen m f s).at l := by
  simp only [acceptThen, at_ite, ← hf, ← accept_at]
  rfl

theorem softResetReceived_at (v : Sop) (s : State) (l : Loop × List Input) : softResetReceived v (s.at l) =
    (softResetReceived v s).at l := by
  unfold softResetReceived
  by_cases h : sendPending s = true
  · have h' : sendPending (s.at l) = true := h
    simp only [h, h', if_true, gotoPrlTx_phyReset, rearmRch_eq, rearmTch_eq]; rfl
  · have h' : ¬ sendPending (s.at l) = true := h
    simp only [h, h', gotoPrlTx_phyReset, rearmRch_eq, rearmTch_eq]; rfl

theorem execClass_at (p : Params) (m : Msg) (s : State) (l : Loop × List Input) :
    exec (decodeMsg p m) (s.at l) = thenState (exec (decodeMsg p m) s) (·.at l) := by
  unfold decodeMsg
  have hr := acceptThen_at m (route m) (route_at m) s l
  have hp := acceptThen_at m (fun t => t.emit (.peMessageReceived (.empty m.sop m.hdr))) (fun _ _ => rfl) s l
  split <;> simp only [exec, execMalformedExt, execSoftReset, execPing, execControl, execData, execExtChunkRequest,
      execExtChunk,
    execExtUnchunked, execExtChunkRequestPd30, execExtChunkPd30, execExtUnchunkedPd30, thenState_next, hr, hp,
        softResetReceived_at]

theorem runPrlRx_at (s : State) (l : Loop × List Input) : runPrlRx (s.at l) = thenState (runPrlRx s) (·.at l) := by
  unfold runPrlRx fetchMsg
  by_cases h : latchBusy s = true
  · have h' : latchBusy (s.at l) = true := h
    simp only [h, h', if_true]; rfl
  · have h' : ¬ latchBusy (s.at l) = true := h
    simp only [h, h']
    cases hq : s.rxq with
    | nil => rfl
    | cons m rest => exact execClass_at _ m ({ s with rxq := rest } |>.emit .tpDequeueMessage) l


theorem andThen_thenState (r : Result) (f : State → State) (g : State → Result) :
    andThen (thenState r f) g = andThen r fun s => g (f s) := by cases r <;> rfl
theorem thenState_thenState (r : Result) (f g : State → State) :
    thenState (thenState r f) g = thenState r fun s => g (f s) := by cases r <;> rfl
theorem thenState_andThen (r : Result) (f : State → Result) (g : State → State) :
    thenState (andThen r f) g = andThen r fun s => thenState (f s) g := by cases r <;> rfl
theorem andThen_congr {r : Result} {f g : State → Result} (h : ∀ t, r = .next t → f t = g t)
    : andThen r f = andThen r g := by
  cases r <;> simp_all

/-! ### What no machine changes -/

/-- What no run of a machine changes: the parameters, the control point, the environment's inputs, the request latch,
    the Type-C inputs and
T_WAKE_CEILING; and the trace only grows. -/
structure Kept (s t : State) : Prop where
  params : t.params = s.params
  loop : t.loop = s.loop
  inputs : t.inputs = s.inputs
  peReq : t.peReq = s.peReq
  powerRole : t.powerRole = s.powerRole
  dataRole : t.dataRole = s.dataRole
  frsActive : t.frsActive = s.frsActive
  ccSinkTx : t.ccSinkTx = s.ccSinkTx
  wakeCeiling : t.timers.wakeCeiling = s.timers.wakeCeiling
  trace : ∃ l, t.trace = s.trace ++ l

theorem Kept.refl (s : State) : Kept s s := ⟨rfl, rfl, rfl, rfl, rfl, rfl, rfl, rfl, rfl, [], by simp⟩

theorem Kept.trans {s t u : State} (h : Kept s t) (k : Kept t u) : Kept s u := by
  obtain ⟨l, hl⟩ := h.trace
  obtain ⟨m, hm⟩ := k.trace
  exact ⟨k.params.trans h.params, k.loop.trans h.loop, k.inputs.trans h.inputs, k.peReq.trans h.peReq,
    k.powerRole.trans h.powerRole, k.dataRole.trans h.dataRole, k.frsActive.trans h.frsActive,
        k.ccSinkTx.trans h.ccSinkTx,
    k.wakeCeiling.trans h.wakeCeiling, l ++ m, by rw [hm, hl, List.append_assoc]⟩

theorem Kept.after {s t u : State} (k : Kept t u) (h : Kept s t) : Kept s u := h.trans k

/-- A result keeps what its state keeps. -/
def Result.Keeps (s : State) (r : Result) : Prop := ∀ t, r = .next t → Kept s t

theorem Kept.next {s t : State} (h : Kept s t) : Result.Keeps s (.next t) := fun _ e => by cases e; exact h
theorem keeps_fault (s : State) (e : Fault) : Result.Keeps s (.fault e) := fun _ h => nomatch h

theorem gotoPrlTx_kept (t : PrlTxState) (s : State) : Kept s (gotoPrlTx t s) := by
  cases t
  · rw [gotoPrlTx_phyReset]; exact ⟨rfl, rfl, rfl, rfl, rfl, rfl, rfl, rfl, rfl, [], by simp⟩
  · rw [gotoPrlTx_waitForMessageRequest]; exact ⟨rfl, rfl, rfl, rfl, rfl, rfl, rfl, rfl, rfl, _, rfl⟩
  · rw [gotoPrlTx_layerResetForTransmit]; exact ⟨rfl, rfl, rfl, rfl, rfl, rfl, rfl, rfl, rfl, [], by simp⟩
  · rw [gotoPrlTx_srcCollisionAvoidance]; exact ⟨rfl, rfl, rfl, rfl, rfl, rfl, rfl, rfl, rfl, _, rfl⟩
  · rw [gotoPrlTx_snkCollisionAvoidance]; exact ⟨rfl, rfl, rfl, rfl, rfl, rfl, rfl, rfl, rfl, [], by simp⟩
  · rw [gotoPrlTx_waitForPhyResponse]; exact ⟨rfl, rfl, rfl, rfl, rfl, rfl, rfl, rfl, rfl, _, rfl⟩
  · rw [gotoPrlTx_discardMessage]; exact ⟨rfl, rfl, rfl, rfl, rfl, rfl, rfl, rfl, rfl, [], by simp⟩

theorem notify_kept (x : TxOutcome) (s : State) : Kept s (notify x s) := by
  rw [notify_eq]; exact ⟨rfl, rfl, rfl, rfl, rfl, rfl, rfl, rfl, rfl, [], by simp⟩

theorem exitPrlHr_kept (s : State) : Kept s (exitPrlHr s) := by
  rw [exitPrlHr_eq]; exact ⟨rfl, rfl, rfl, rfl, rfl, rfl, rfl, rfl, rfl, [], (List.append_nil _).symm⟩

theorem setPrlHrState_kept (t : PrlHrState) (s : State) : Kept s (setPrlHrState t s) :=
  ⟨rfl, rfl, rfl, rfl, rfl, rfl, rfl, rfl, rfl, [], (List.append_nil _).symm⟩

theorem enterPrlHr_kept (t : PrlHrState) (s : State) : Kept s (enterPrlHr s t) := by
  cases t
  case resetLayer => exact ⟨rfl, rfl, rfl, rfl, rfl, rfl, rfl, rfl, rfl, _, rfl⟩
  case waitForPhyHardResetComplete => exact ⟨rfl, rfl, rfl, rfl, rfl, rfl, rfl, rfl, rfl, _, rfl⟩
  all_goals exact ⟨rfl, rfl, rfl, rfl, rfl, rfl, rfl, rfl, rfl, [], (List.append_nil _).symm⟩

theorem gotoPrlHr_kept (t : PrlHrState) (s : State) : Kept s (gotoPrlHr t s) :=
  ((exitPrlHr_kept s).trans (setPrlHrState_kept t _)).trans (enterPrlHr_kept t _)

theorem gotoRch_kept (t : RchState) (s : State) : Kept s (gotoRch t s) := by
  cases t
  · rw [gotoRch_waitForMessage]; exact ⟨rfl, rfl, rfl, rfl, rfl, rfl, rfl, rfl, rfl, [], by simp [afterRchIdle]⟩
  · rw [gotoRch_processingExtendedMessage]; exact ⟨rfl, rfl, rfl, rfl, rfl, rfl, rfl, rfl, rfl, [], by simp⟩
  · rw [gotoRch_requestingChunk]; exact ⟨rfl, rfl, rfl, rfl, rfl, rfl, rfl, rfl, rfl, [], by simp⟩
  · rw [gotoRch_waitingChunk]; exact ⟨rfl, rfl, rfl, rfl, rfl, rfl, rfl, rfl, rfl, [], by simp⟩
  · rw [gotoRch_passUpMessage]; exact ⟨rfl, rfl, rfl, rfl, rfl, rfl, rfl, rfl, rfl, _, rfl⟩
  · cases h : s.rch.passInterrupting
    · rw [gotoRch_reportError s h]; exact ⟨rfl, rfl, rfl, rfl, rfl, rfl, rfl, rfl, rfl, _, rfl⟩
    · rw [gotoRch_reportError_passing s h]
      exact ⟨rfl, rfl, rfl, rfl, rfl, rfl, rfl, rfl, rfl, _, by simp only [afterRchError, List.append_assoc]; rfl⟩

theorem exitTch_kept (s : State) : Kept s (exitTch s) := by
  rw [exitTch_eq]; exact ⟨rfl, rfl, rfl, rfl, rfl, rfl, rfl, rfl, rfl, [], (List.append_nil _).symm⟩

theorem setTchState_kept (t : TchState) (s : State) : Kept s (setTchState t s) :=
  ⟨rfl, rfl, rfl, rfl, rfl, rfl, rfl, rfl, rfl, [], (List.append_nil _).symm⟩

theorem enterTch_kept (t : TchState) (s : State) : Kept s (enterTch s t) := by
  cases t
  case messageSent => exact ⟨rfl, rfl, rfl, rfl, rfl, rfl, rfl, rfl, rfl, _, rfl⟩
  case reportError => exact ⟨rfl, rfl, rfl, rfl, rfl, rfl, rfl, rfl, rfl, _, rfl⟩
  case messageReceived => exact ⟨rfl, rfl, rfl, rfl, rfl, rfl, rfl, rfl, rfl, _, rfl⟩
  all_goals exact ⟨rfl, rfl, rfl, rfl, rfl, rfl, rfl, rfl, rfl, [], (List.append_nil _).symm⟩

theorem gotoTch_kept (t : TchState) (s : State) : Kept s (gotoTch t s) :=
  ((exitTch_kept s).trans (setTchState_kept t _)).trans (enterTch_kept t _)

theorem raiseErr_kept (r : Raiser) (k : ErrKind) (v : Sop) (s : State) : Kept s (raiseErr r k v s) := by
  cases r
  · exact (⟨rfl, rfl, rfl, rfl, rfl, rfl, rfl, rfl, rfl, [], (List.append_nil _).symm⟩
      : Kept s { s with rchErr := k, rxSop := v }).trans (gotoRch_kept _ _)
  · exact (⟨rfl, rfl, rfl, rfl, rfl, rfl, rfl, rfl, rfl, [], (List.append_nil _).symm⟩
      : Kept s { s with tchErr := k, sendSop := v }).trans (gotoTch_kept _ _)

theorem interruptRch_kept (m : Msg) (k : ErrKind) (s : State) : Kept s (interruptRch m k s) := by
  unfold interruptRch
  split
  · exact raiseErr_kept _ _ _ _
  · exact (⟨rfl, rfl, rfl, rfl, rfl, rfl, rfl, rfl, rfl, [], (List.append_nil _).symm⟩ : Kept s
      { s with rchOut := .whole (whole m), rch := { s.rch with passInterrupting := true } }).trans
          (raiseErr_kept _ _ _ _)

/-- A run of PRL-TX. -/
theorem runPrlTx_kept (s : State) : Kept s (runPrlTx s) := by
  unfold runPrlTx runWaitForMessageRequest runWaitForPhyResponse
  split
  · exact gotoPrlTx_kept _ _
  · repeat' split
    all_goals first | exact gotoPrlTx_kept _ _ | exact ⟨rfl, rfl, rfl, rfl, rfl, rfl, rfl, rfl, rfl, [],
        (List.append_nil _).symm⟩
  · exact gotoPrlTx_kept _ _
  · split; · exact gotoPrlTx_kept _ _
    exact Kept.refl _
  · split; · exact gotoPrlTx_kept _ _
    exact Kept.refl _
  · split
    · refine Kept.trans ?_ (gotoPrlTx_kept _ _)
      exact (⟨rfl, rfl, rfl, rfl, rfl, rfl, rfl, rfl, rfl, [], (List.append_nil _).symm⟩ : Kept s
          (countSent s.txSop { s with prlTx := { s.prlTx with txCompleteOk := false } })).trans (notify_kept _ _)
    split
    · refine Kept.trans ?_ (gotoPrlTx_kept _ _)
      exact (⟨rfl, rfl, rfl, rfl, rfl, rfl, rfl, rfl, rfl, [], (List.append_nil _).symm⟩
          : Kept s { s with prlTx := { s.prlTx with txCompleteFail := false } }).trans (notify_kept _ _)
    split
    · exact (notify_kept _ _).trans (gotoPrlTx_kept _ _)
    · exact Kept.refl _
  · exact gotoPrlTx_kept _ _

/-- PRL-TX's sub-step. -/
theorem stepPrlTx_kept (s : State) : Kept s (stepPrlTx s) :=
  (⟨rfl, rfl, rfl, rfl, rfl, rfl, rfl, rfl, rfl, [], (List.append_nil _).symm⟩ : Kept s (countOwed s)).trans
    (runPrlTx_kept _)

/-- A state that differs from another only in fields that machines may change. -/
theorem Kept.of {s t : State}
    (h : { t with
      params := s.params
      loop := s.loop
      inputs := s.inputs
      peReq := s.peReq
      powerRole := s.powerRole
      dataRole := s.dataRole
      frsActive := s.frsActive
      ccSinkTx := s.ccSinkTx
      trace := s.trace } = t)
    (hw : t.timers.wakeCeiling = s.timers.wakeCeiling) : Kept s t := by
  rw [← h]
  exact ⟨rfl, rfl, rfl, rfl, rfl, rfl, rfl, rfl, hw, [], (List.append_nil _).symm⟩

theorem abortRch_kept (s : State) : Kept s (abortRch s) := by
  unfold abortRch returnToIdle
  exact Kept.after (gotoRch_kept _ _) (by exact .of rfl rfl)

theorem abortTch_kept (s : State) : Kept s (abortTch s) := by
  unfold abortTch returnToIdle
  exact Kept.after (gotoTch_kept _ _) (by exact .of rfl rfl)

theorem hrFinalExit_kept (s : State) : Kept s (hrFinalExit s) := by
  simp only [hrFinalExit, rearmPrlTx_eq, rearmRch_eq, rearmTch_eq]
  exact ⟨rfl, rfl, rfl, rfl, rfl, rfl, rfl, rfl, rfl, _, rfl⟩

/-- A run of PRL-HR. -/
theorem runPrlHr_kept (s : State) : Kept s (runPrlHr s) := by
  unfold runPrlHr
  split <;> split
  · exact gotoPrlHr_kept _ _
  · exact Kept.refl _
  · refine Kept.trans ?_ (gotoPrlHr_kept _ _)
    exact ⟨rfl, rfl, rfl, rfl, rfl, rfl, rfl, rfl, rfl, _, rfl⟩
  · exact gotoPrlHr_kept _ _
  · refine Kept.trans ?_ (gotoPrlHr_kept _ _)
    exact ⟨rfl, rfl, rfl, rfl, rfl, rfl, rfl, rfl, rfl, _, rfl⟩
  · exact Kept.refl _
  · exact Kept.trans (Kept.after (hrFinalExit_kept _) (by exact .of rfl rfl)) (gotoPrlHr_kept _ _)
  · exact Kept.refl _

theorem rchTake_kept (m : Msg) (s : State) : Kept s (rchTake m s) := by
  unfold rchTake
  split
  · exact Kept.refl _
  · exact Kept.after (gotoRch_kept _ _) (by exact .of rfl rfl)
  · exact Kept.after (gotoRch_kept _ _) (by exact .of rfl rfl)
  · exact Kept.after (gotoRch_kept _ _) (by exact .of rfl rfl)
  · exact Kept.after (gotoRch_kept _ _) (by exact .of rfl rfl)
  · split
    · exact Kept.after (gotoRch_kept _ _) (by exact .of rfl rfl)
    · exact raiseErr_kept _ _ _ _
  · split
    · exact raiseErr_kept _ _ _ _
    · exact Kept.after (gotoRch_kept _ _) (by exact .of rfl rfl)
  · exact raiseErr_kept _ _ _ _

theorem requestChunk_keeps (s : State) : Result.Keeps s (requestChunk s) := by
  unfold requestChunk
  split
  · exact keeps_fault _ _
  · exact (gotoRch_kept _ _).next

theorem preemptTch_keeps (s : State) : Result.Keeps s (preemptTch s) := by
  unfold preemptTch
  split
  · exact keeps_fault _ _
  · exact (gotoTch_kept _ _).next

theorem Result.Keeps.after {s t : State} {r : Result} (k : Result.Keeps t r) (h : Kept s t) : Result.Keeps s r :=
  fun u e => h.trans (k u e)

theorem finishOrRequest_keeps (s : State) : Result.Keeps s (finishOrRequest s) := by
  unfold finishOrRequest
  split
  · exact (Kept.after (gotoRch_kept _ _) (by exact .of rfl rfl)).next
  · exact requestChunk_keeps _

/-- A run of RCH. -/
theorem runRch_keeps (s : State) : Result.Keeps s (runRch s) := by
  unfold runRch
  split
  · apply Kept.next
    unfold runRchWaitForMessage
    dsimp only
    split
    · exact Kept.after (rchTake_kept _ _) (by exact .of rfl rfl)
    · exact .of rfl rfl
  · split
    · exact (abortRch_kept _).next
    · unfold processChunk
      dsimp only
      split
      · exact (raiseErr_kept _ _ _ _).next
      split
      · split
        · exact (Kept.after (raiseErr_kept _ _ _ _) (by exact .of rfl rfl)).next
        · exact Result.Keeps.after (finishOrRequest_keeps _) (by exact .of rfl rfl)
      · exact Result.Keeps.after (finishOrRequest_keeps _) (by exact .of rfl rfl)
  · apply Kept.next
    unfold runRequestingChunk
    dsimp only
    split; · exact abortRch_kept _
    split; · exact Kept.after (gotoRch_kept _ _) (by exact .of rfl rfl)
    split; · exact Kept.after (raiseErr_kept _ _ _ _) (by exact .of rfl rfl)
    split
    · split
      · exact Kept.after (interruptRch_kept _ _ _) (by exact .of rfl rfl)
      · exact Kept.after (raiseErr_kept _ _ _ _) (by exact .of rfl rfl)
    · exact Kept.refl _
  · apply Kept.next
    unfold runWaitingChunk
    split; · exact abortRch_kept _
    split
    · split
      · exact Kept.after (gotoRch_kept _ _) (by exact .of rfl rfl)
      · exact Kept.after (interruptRch_kept _ _ _) (by exact .of rfl rfl)
    split
    · exact raiseErr_kept _ _ _ _
    · exact Kept.refl _
  · exact (gotoRch_kept _ _).next
  · exact (gotoRch_kept _ _).next

theorem takeRequest_kept (s : State) : Kept s (takeRequest s) := by
  unfold takeRequest extendedRequest
  dsimp only
  split
  · exact Kept.after (gotoTch_kept _ _) (by exact .of rfl rfl)
  · exact Kept.after (gotoTch_kept _ _) (by exact .of rfl rfl)
  · split
    · exact Kept.after (gotoTch_kept _ _) (by exact .of rfl rfl)
    split
    · exact Kept.after (gotoTch_kept _ _) (by exact .of rfl rfl)
    · exact Kept.after (raiseErr_kept _ _ _ _) (by exact .of rfl rfl)

theorem tchDiscarded_keeps (s : State) : Result.Keeps s (tchDiscarded s) := by
  unfold tchDiscarded
  dsimp only
  split
  · exact Result.Keeps.after (preemptTch_keeps _) (by exact .of rfl rfl)
  · refine (Kept.trans ?_ (gotoTch_kept _ _)).next
    exact ⟨rfl, rfl, rfl, rfl, rfl, rfl, rfl, rfl, rfl, _, rfl⟩

theorem tchFailed_kept (s : State) : Kept s (tchFailed s) := Kept.after (raiseErr_kept _ _ _ _) (by exact .of rfl rfl)

/-- A run of TCH. -/
theorem runTch_keeps (s : State) : Result.Keeps s (runTch s) := by
  unfold runTch
  split
  · unfold runWaitForRequestFromPe forwardChecked
    dsimp only
    split
    · split
      · exact keeps_fault _ _
      · exact Kept.next (by exact .of rfl rfl)
    split
    · exact (Kept.after (takeRequest_kept _) (by exact .of rfl rfl)).next
    · exact Kept.next (by exact .of rfl rfl)
  · unfold runConstructChunkedMessage
    split; · exact (abortTch_kept _).next
    split; · exact preemptTch_keeps _
    exact (Kept.after (gotoTch_kept _ _) (by exact .of rfl rfl)).next
  · unfold runWaitForTransmissionComplete
    split; · exact (Kept.after (gotoTch_kept _ _) (by exact .of rfl rfl)).next
    split; · exact (tchFailed_kept _).next
    split; · exact tchDiscarded_keeps _
    exact (Kept.refl _).next
  · unfold runSendingChunkedMessage
    split
    · unfold chunkConfirmed
      dsimp only
      split <;> exact (Kept.after (gotoTch_kept _ _) (by exact .of rfl rfl)).next
    split; · exact (tchFailed_kept _).next
    split; · exact tchDiscarded_keeps _
    exact (Kept.refl _).next
  · unfold runWaitChunkRequest
    dsimp only
    split; · exact (abortTch_kept _).next
    split
    · split
      · split
        · exact (Kept.after (gotoTch_kept _ _) (by exact .of rfl rfl)).next
        · exact (Kept.after (raiseErr_kept _ _ _ _) (by exact .of rfl rfl)).next
      · exact preemptTch_keeps _
    split
    · exact (gotoTch_kept _ _).next
    · exact (Kept.refl _).next
  · exact (gotoTch_kept _ _).next
  · exact (gotoTch_kept _ _).next
  · exact (gotoTch_kept _ _).next

theorem accept_kept (m : Msg) (s : State) : Kept s (accept m s) := by
  unfold accept
  dsimp only
  split
  · exact Kept.trans (Kept.after (gotoPrlTx_kept _ (keepConfirmation s)) (by exact .of rfl rfl)) (by exact .of rfl rfl)
  · exact .of rfl rfl

theorem route_kept (m : Msg) (s : State) : Kept s (route m s) := by
  unfold route
  split
  · split <;> exact .of rfl rfl
  · exact ⟨rfl, rfl, rfl, rfl, rfl, rfl, rfl, rfl, rfl, _, rfl⟩

theorem acceptThen_kept (m : Msg) (f : State → State) (hf : ∀ s, Kept s (f s)) (s : State) : Kept s
    (acceptThen m f s) := by
  unfold acceptThen
  split
  · exact Kept.refl _
  · exact (accept_kept _ _).trans (hf _)

theorem softResetReceived_kept (v : Sop) (s : State) : Kept s (softResetReceived v s) := by
  unfold softResetReceived
  split <;> simp only [gotoPrlTx_phyReset, rearmRch_eq, rearmTch_eq]
  · refine ⟨rfl, rfl, rfl, rfl, rfl, rfl, rfl, rfl, rfl, [.peReportDiscard, .peGotSoftReset], ?_⟩
    simp only [State.emit, resetIds_trace, List.append_assoc]
    rfl
  · exact ⟨rfl, rfl, rfl, rfl, rfl, rfl, rfl, rfl, rfl, _, rfl⟩

/-- An execution of a message class. -/
theorem execClass_keeps (p : Params) (m : Msg) (s : State) : Result.Keeps s (exec (decodeMsg p m) s) := by
  have hr := acceptThen_kept m (route m) (route_kept m) s
  have hp := acceptThen_kept m (fun t => t.emit (.peMessageReceived (.empty m.sop m.hdr)))
    (fun _ => ⟨rfl, rfl, rfl, rfl, rfl, rfl, rfl, rfl, rfl, _, rfl⟩) s
  unfold decodeMsg
  split
  · exact (Kept.refl _).next
  · exact (softResetReceived_kept _ _).next
  · exact hp.next
  all_goals exact hr.next

/-- PRL-RX's sub-step. -/
theorem runPrlRx_keeps (s : State) : Result.Keeps s (runPrlRx s) := by
  unfold runPrlRx fetchMsg
  split
  · exact (Kept.refl _).next
  · rename_i m s1 h
    refine Result.Keeps.after (execClass_keeps _ _ _) ?_
    split at h
    · cases h
    split at h
    · cases h
    · cases h
      exact ⟨rfl, rfl, rfl, rfl, rfl, rfl, rfl, rfl, rfl, _, rfl⟩

/-! ### Events, the loop and the step -/

/-- An event changes no parameter and emits nothing. -/
theorem execEvent_kept {i : Instr} {s t : State} (hi : isEvent i = true) (h : exec i s = .next t) :
    t.params = s.params ∧ t.trace = s.trace ∧ t.inputs = s.inputs := by
  cases i <;> simp only [isEvent, Bool.false_eq_true] at hi <;>
    simp only [exec, execPeSendCtrlMessage, execPeSendDataMessage, execPeSendExtendedMessage, execPeExecuteHardReset,
        execPeHardResetComplete,
      execPeSetRevision, execPeResetMessageIds, execPeAbort, execTpRx, execTpTxCompleteOk, execTpTxCompleteFail,
          execTpHardResetReceived,
      execTpHardResetSent, completion, expireTimer, wakeLoop, execTimerExpireTxResponse, execTimerExpireSrcCa,
          execTimerExpireHrComplete,
      execTimerExpireChunkResponse, execTimerExpireChunkRequest, execTimerExpireWakeCeiling, execTcSetPowerRole,
          execTcSetDataRole,
      execTcSetFrs, execTcSetCcSinkTx, execWake, thenState_ite, thenState_next, thenState_refused] at h
  all_goals (repeat' split at h)
  all_goals first | (cases h; exact ⟨rfl, rfl, rfl⟩) | cases h

theorem decodeEvent_isEvent {c : List Byte} {i : Instr} {rest : List Byte} (h : decodeEvent c = .ok (i, rest))
    : isEvent i = true := by
  rcases c with _ | ⟨c, ops⟩
  · cases h
  simp only [decodeEvent] at h
  split at h
  all_goals (try simp only [bind, Except.bind] at h)
  all_goals (repeat' (split at h))
  all_goals (cases h; try rfl)

theorem decodeLoneEvent_isEvent {c : List Byte} {i : Instr} (h : decodeLoneEvent c = .ok i) : isEvent i = true := by
  simp only [decodeLoneEvent, bind, Except.bind] at h
  split at h
  · cases h
  · rename_i a ha
    split at h
    · cases h; exact decodeEvent_isEvent (rest := a.2) ha
    · cases h

/-- What a sub-step of the tick can do. -/
theorem runSubStep_kept {p : SubStep} {s t : State} (h : runSubStep p s = .next t) :
    t.params = s.params ∧ t.inputs = s.inputs ∧ ∃ l, t.trace = s.trace ++ l := by
  cases p
  case start => cases h; exact ⟨rfl, rfl, [], by simp⟩
  case prlRx => have k := runPrlRx_keeps _ _ h; exact ⟨k.params, k.inputs, k.trace⟩
  case rch1 => have k := runRch_keeps _ _ h; exact ⟨k.params, k.inputs, k.trace⟩
  case tch1 => have k := runTch_keeps _ _ h; exact ⟨k.params, k.inputs, k.trace⟩
  case prlTx => cases h; have k := stepPrlTx_kept { s with loop := .tick .rch2 }; exact ⟨k.params, k.inputs, k.trace⟩
  case rch2 => have k := runRch_keeps _ _ h; exact ⟨k.params, k.inputs, k.trace⟩
  case tch2 => have k := runTch_keeps _ _ h; exact ⟨k.params, k.inputs, k.trace⟩
  case prlHr => cases h; have k := runPrlHr_kept s; exact ⟨k.params, k.inputs, k.trace⟩

/-- Where the first event to come falls now, the step delivers it. -/
theorem step_event {s : State} {a : Nat} {bytes : List Byte} {rest : List Input} (h : s.inputs = ⟨a, bytes⟩ :: rest)
    (hl : s.loop = .waiting ∨ a = 0) : step s = deliverEvent bytes { s with inputs := rest } := by
  have hf : fetchEvent s = some (bytes, { s with inputs := rest }) := by
    unfold fetchEvent
    rw [h]
    rcases hl with hl | rfl
    · simp only [hl, eventDue, if_true]
    · cases s.loop <;> rfl
  simp only [step, hf]

/-- Where no event falls, the step of a tick is its next sub-step, and the events to come are one sub-step nearer. -/
theorem step_subStep {s : State} {p : SubStep} {later : List Input} (hl : s.loop = .tick p)
    (hn : NoEventFor 1 s later) : step s = runSubStep p { s with inputs := later } := by
  rcases hn with ⟨hi, rfl⟩ | ⟨a, bytes, rest, hi, rfl⟩
  · simp only [step, fetchEvent, hi, loopStep, hl, countDown]
    rw [← hi, ← hl]
  · simp [step, fetchEvent, hi, hl, eventDue, loopStep, countDown]

/-- What falls next: an event, or none. -/
theorem event_or_none (s : State) :
    (∃ a bytes rest, s.inputs = ⟨a, bytes⟩ :: rest ∧ (s.loop = .waiting ∨ a = 0)) ∨
    (s.loop = .waiting ∧ s.inputs = []) ∨ ∃ p later, s.loop = .tick p ∧ NoEventFor 1 s later := by
  cases hi : s.inputs with
  | nil =>
    cases hl : s.loop with
    | waiting => exact .inr (.inl ⟨rfl, rfl⟩)
    | tick p => exact .inr (.inr ⟨p, [], rfl, .inl ⟨hi, rfl⟩⟩)
  | cons i rest =>
    obtain ⟨a, bytes⟩ := i
    cases hl : s.loop with
    | waiting => exact .inl ⟨a, bytes, rest, rfl, .inl rfl⟩
    | tick p =>
      cases a with
      | zero => exact .inl ⟨0, bytes, rest, rfl, .inr rfl⟩
      | succ a => exact .inr (.inr ⟨p, _, rfl, .inr ⟨a, bytes, rest, hi, rfl⟩⟩)

/-- One step: an event, a stutter of the waiting loop, or a sub-step. -/
theorem step_cases {s t : State} (h : step s = .next t) :
    (∃ a bytes rest i, s.inputs = ⟨a, bytes⟩ :: rest ∧ (s.loop = .waiting ∨ a = 0) ∧
      decodeLoneEvent bytes = .ok i ∧ exec i { s with inputs := rest } = .next t) ∨
    (s.loop = .waiting ∧ s.inputs = [] ∧ t = s) ∨
    (∃ p later, s.loop = .tick p ∧ NoEventFor 1 s later ∧ runSubStep p { s with inputs := later } = .next t) := by
  rcases event_or_none s with ⟨a, bytes, rest, hi, hl⟩ | ⟨hl, hi⟩ | ⟨p, later, hl, hn⟩
  · rw [step_event hi hl, deliverEvent] at h
    split at h
    · rename_i i hd
      exact .inl ⟨a, bytes, rest, i, hi, hl, hd, h⟩
    · cases h
  · simp only [step, fetchEvent, hi, loopStep, hl] at h
    cases h
    exact .inr (.inl ⟨hl, hi, rfl⟩)
  · exact .inr (.inr ⟨p, later, hl, hn, (step_subStep hl hn).symm.trans h⟩)

end Sys2Proof.Machine
end

