-- ==== Sys2Proof/Laws/Invariant.lean ====
section
/-! SUPPORT. The shared operations and the runs of the machines keep the invariant of Safety.lean, one lemma each. -/

namespace Sys2Proof.Machine

/-! ### Timers and PRL-TX -/

/-- A timer disarmed where its owner leaves the state that armed it. -/
theorem timerOwned_left {t : Timer} {c : Prop} [Decidable c] (h : timerOwned t (decide c)) :
    timerOwned (if c then Timer.off else t) false := by
  split
  · exact ⟨rfl, (fun e => nomatch e)⟩
  · rename_i hc
    obtain ⟨h1, h2⟩ := h
    rw [decide_eq_false hc] at h1
    exact ⟨h1, h2⟩

theorem timerOwned_on : timerOwned Timer.on true := ⟨rfl, fun _ => rfl⟩
theorem timerOwned_off : timerOwned Timer.off false := ⟨rfl, (fun e => nomatch e)⟩

theorem gotoPrlTx_inv (t : PrlTxState) (s : State) (h : Inv s)
    (h1 : t = .layerResetForTransmit → s.prlHr.state = .waitForRequest) : Inv (gotoPrlTx t s) := by
  obtain ⟨p, ⟨t1, t2, t3⟩, ⟨r1, r2, r3⟩, re, la, rp, me, rq, ra, se⟩ := h
  have o1 := timerOwned_left t1
  have o2 := timerOwned_left t2
  cases t
  · rw [gotoPrlTx_phyReset]
    exact ⟨p, ⟨o1, o2, t3⟩, ⟨r1, r2, fun e => ⟨(r3 e).1, (r3 e).2.1, (r3 e).2.2.1, rfl, (r3 e).2.2.2.2⟩⟩, re, la,
        (fun e => nomatch e), me, rq, ra, se⟩
  · rw [gotoPrlTx_waitForMessageRequest]
    exact ⟨p, ⟨o1, o2, t3⟩, ⟨r1, r2, r3⟩, re, la, fun _ => rfl, me, rq, ra, se⟩
  · rw [gotoPrlTx_layerResetForTransmit]
    exact ⟨p, ⟨o1, o2, t3⟩, ⟨r1, r2, fun e => absurd (h1 rfl) e⟩, re, la, (fun e => nomatch e), me, rq, ra, se⟩
  · rw [gotoPrlTx_srcCollisionAvoidance]
    exact ⟨p, ⟨o1, timerOwned_on, t3⟩, ⟨r1, r2, r3⟩, re, la, (fun e => nomatch e), me, rq, ra, se⟩
  · rw [gotoPrlTx_snkCollisionAvoidance]
    exact ⟨p, ⟨o1, o2, t3⟩, ⟨r1, r2, r3⟩, re, la, (fun e => nomatch e), me, rq, ra, se⟩
  · rw [gotoPrlTx_waitForPhyResponse]
    exact ⟨p, ⟨timerOwned_on, o2, t3⟩, ⟨r1, r2, fun e => ⟨(r3 e).1, (r3 e).2.1, (r3 e).2.2.1, rfl, (r3 e).2.2.2.2⟩⟩,
        re, la, (fun e => nomatch e), me, rq, ra, se⟩
  · rw [gotoPrlTx_discardMessage]
    cases hc : s.txClient <;>
    exact ⟨p, ⟨o1, o2, t3⟩, ⟨r1, r2, fun e => ⟨(r3 e).1, (r3 e).2.1, (r3 e).2.2.1, rfl, (r3 e).2.2.2.2⟩⟩, re, la,
        (fun e => nomatch e), me, rq, ra, se⟩

/-- What PRL-TX owes is no part of the invariant of R54; `OwedUntilStepped` says where it stands. -/
theorem txOwed_inv {s : State} (h : Inv s) (o : Option Sop) : Inv { s with txOwed := o } := by
  obtain ⟨p, t, r, re, la, rp, me, rq, ra, se⟩ := h
  exact ⟨p, t, r, re, la, rp, me, rq, ra, se⟩

theorem notify_inv (x : TxOutcome) {s : State} (h : Inv s) : Inv (notify x s) := by
  obtain ⟨p, t, r, re, la, rp, me, rq, ra, se⟩ := h
  unfold notify
  cases hc : s.txClient <;> cases x <;> exact ⟨p, t, r, re, la, rp, me, rq, ra, se⟩

theorem hr_clear {s : State} (h : Inv s) (b c : Bool)
    : Inv { s with prlTx := { s.prlTx with txCompleteOk := b, txCompleteFail := c } } := by
  obtain ⟨p, t, r, re, la, rp, me, rq, ra, se⟩ := h
  exact ⟨p, t, r, re, la, rp, me, rq, ra, se⟩

theorem runPrlTx_inv {s : State} (h : Inv s) (w : s.prlHr.state = .waitForRequest) : Inv (runPrlTx s) := by
  unfold runPrlTx
  split
  · exact gotoPrlTx_inv _ _ h fun _ => w
  · unfold runWaitForMessageRequest
    split
    · split; · exact gotoPrlTx_inv _ _ h fun _ => w
      split
      · split <;> exact gotoPrlTx_inv _ _ h fun _ => w
      · exact gotoPrlTx_inv _ _ h fun _ => w
    · exact hr_clear h false false
  · exact gotoPrlTx_inv _ _ h fun _ => w
  · split; · exact gotoPrlTx_inv _ _ h fun _ => w
    exact h
  · split; · exact gotoPrlTx_inv _ _ h fun _ => w
    exact h
  · unfold runWaitForPhyResponse
    split
    · refine gotoPrlTx_inv _ _ (notify_inv _ ?_) fun e => nomatch e
      obtain ⟨p, t, ⟨r1, r2, r3⟩, re, la, rp, me, rq, ra, se⟩ := h
      exact ⟨p, t, ⟨r1, r2, fun e => absurd w e⟩, re, la, rp, me, rq, ra, se⟩
    split
    · refine gotoPrlTx_inv _ _ (notify_inv _ ?_) fun e => nomatch e
      obtain ⟨p, t, r, re, la, rp, me, rq, ra, se⟩ := h
      exact ⟨p, t, r, re, la, rp, me, rq, ra, se⟩
    split
    · exact gotoPrlTx_inv _ _ (notify_inv _ h) fun e => nomatch e
    · exact h
  · exact gotoPrlTx_inv _ _ h fun _ => w

theorem countOwed_inv {s : State} (h : Inv s) (w : s.prlHr.state = .waitForRequest) : Inv (countOwed s) := by
  obtain ⟨p, t, ⟨r1, r2, r3⟩, re, la, rp, me, rq, ra, se⟩ := h
  exact ⟨p, t, ⟨r1, r2, fun e => absurd w e⟩, re, la, rp, me, rq, ra, se⟩

theorem stepPrlTx_inv {s : State} (h : Inv s) (w : s.prlHr.state = .waitForRequest) : Inv (stepPrlTx s) :=
  runPrlTx_inv (countOwed_inv h w) w

/-- TCH holds no send that needs RCH's latch. -/
abbrev TchQuiet (s : State) : Prop := s.tch.state = .waitForRequestFromPe ∨ s.tch.state = .messageReceived

theorem quiet_of_msg {s : State} (h : Inv s) (hm : s.rch.msgReceived = true) : TchQuiet s := by
  by_contra hc
  have := h.latches.2.2 (fun e => hc (.inl e)) (fun e => hc (.inr e))
  rw [hm] at this
  exact nomatch this.2

theorem quiet_of_state {s : State} (h : Inv s) (hm : s.rch.state ≠ .waitForMessage) : TchQuiet s := by
  by_contra hc
  exact hm (h.latches.2.2 (fun e => hc (.inl e)) (fun e => hc (.inr e))).1

theorem quiet_absurd {s : State} (q : TchQuiet s) {P : Prop} (h1 : s.tch.state ≠ .waitForRequestFromPe) (h2 :
    s.tch.state ≠ .messageReceived) : P := by
  rcases q with q | q
  · exact absurd q h1
  · exact absurd q h2

theorem gotoRch_inv (t : RchState) (s : State) (h : Inv s) (q : t ≠ .waitForMessage → TchQuiet s)
    (c : t = .processingExtendedMessage → classify s.params s.rchCur = .extChunk)
    (w : t = .requestingChunk → s.prlHr.state = .waitForRequest) : Inv (gotoRch t s) := by
  obtain ⟨p, ⟨t1, t2, t3, t4, t5⟩, ⟨r1, r2, r3⟩, re, ⟨l1, l2, l3⟩, rp, ⟨m1, m2, m3, m4, m5, m6⟩, rq, ⟨a1, a2, a3, a4,
      a5, a6, a7⟩, se⟩ := h
  have o := timerOwned_left t4
  cases t
  · rw [gotoRch_waitForMessage]
    exact ⟨p, ⟨t1, t2, t3, o, t5⟩, ⟨r1, r2, r3⟩, re, ⟨l1, rfl, fun e1 e2 => ⟨rfl, (l3 e1 e2).2⟩⟩, rp,
      ⟨m1, m2, m3, m4, m5, (fun e => nomatch e)⟩, rq, ⟨a1, a2, Nat.zero_le _, Nat.zero_le _, Nat.zero_le _,
          fun _ => rfl, fun e => absurd rfl e⟩, se⟩
  · rw [gotoRch_processingExtendedMessage]
    exact ⟨p, ⟨t1, t2, t3, o, t5⟩, ⟨r1, r2, r3⟩, re, ⟨l1, l2, fun e1 e2 => quiet_absurd (q (by decide)) e1 e2⟩, rp,
      ⟨m1, m2, m3, m4, m5, fun _ => c rfl⟩, rq, ⟨a1, a2, a3, a4, a5, a6, a7⟩, se⟩
  · rw [gotoRch_requestingChunk]
    exact ⟨p, ⟨t1, t2, t3, o, t5⟩, ⟨r1, r2, fun e => absurd (w rfl) e⟩, re, ⟨l1, l2, fun e1 e2 => quiet_absurd (q
        (by decide)) e1 e2⟩, rp,
      ⟨m1, m2, m3, m4, rfl, (fun e => nomatch e)⟩, rq, ⟨a1, a2, a3, a4, a5, a6, a7⟩, se⟩
  · rw [gotoRch_waitingChunk]
    exact ⟨p, ⟨t1, t2, t3, timerOwned_on, t5⟩, ⟨r1, r2, r3⟩, re, ⟨l1, l2, fun e1 e2 => quiet_absurd (q (by decide))
        e1 e2⟩, rp,
      ⟨m1, m2, m3, m4, m5, (fun e => nomatch e)⟩, rq, ⟨a1, a2, a3, a4, a5, a6, a7⟩, se⟩
  · rw [gotoRch_passUpMessage]
    exact ⟨p, ⟨t1, t2, t3, o, t5⟩, ⟨r1, r2, r3⟩, re, ⟨l1, l2, fun e1 e2 => quiet_absurd (q (by decide)) e1 e2⟩, rp,
      ⟨m1, m2, m3, m4, m5, (fun e => nomatch e)⟩, rq, ⟨a1, a2, a3, a4, a5, a6, a7⟩, se⟩
  · rw [gotoRch_reportError s l2]
    exact ⟨p, ⟨t1, t2, t3, o, t5⟩, ⟨r1, r2, r3⟩, re, ⟨l1, l2, fun e1 e2 => quiet_absurd (q (by decide)) e1 e2⟩, rp,
      ⟨m1, m2, m3, m4, m5, (fun e => nomatch e)⟩, rq, ⟨a1, a2, a3, a4, a5, a6, a7⟩, se⟩

theorem raiseRch_inv (k : ErrKind) (v : Sop) (s : State) (h : Inv s) (q : TchQuiet s) : Inv (raiseErr .rch k v s)
    := by
  obtain ⟨p, t, r, re, la, rp, me, rq, ra, se⟩ := h
  exact gotoRch_inv _ { s with rchErr := k, rxSop := v } ⟨p, t, r, re, la, rp, me, rq, ra, se⟩ (fun _ => q)
      (fun e => nomatch e) (fun e => nomatch e)

theorem interruptRch_inv (m : Msg) (s : State) (h : Inv s) (q : TchQuiet s) : Inv (interruptRch m .chunkSequence s)
    := by
  have hl := h.latches.2.1
  have key : ∀ (o : Passed) (tr : List Emit), Inv
      (afterRchError .chunkSequence s.rxSop { s with timers := rchTimersOff s, rchOut := o, trace := tr }) := by
    intro o tr
    have := raiseRch_inv .chunkSequence s.rxSop { s with rchOut := o, trace := tr }
    rw [raiseErr_rch _ _ _ (by exact hl)] at this
    obtain ⟨p, t, r, re, la, rp, me, rq, ra, se⟩ := h
    exact this ⟨p, t, r, re, la, rp, me, rq, ra, se⟩ q
  rw [interruptRch_eq _ _ hl, afterInterrupt]
  split
  · exact key s.rchOut s.trace
  · exact key _ _

theorem consume_inv {s : State} (h : Inv s) (c : Msg) (v : Sop) (x : Half) (hc : msgConsistent c) (hs :
    s.rch.state ≠ .processingExtendedMessage) :
    Inv { s with rch := { s.rch with msgReceived := false }, rchCur := c, rxSop := v, rxHdr := x } := by
  obtain ⟨p, t, ⟨r1, r2, r3⟩, re, ⟨l1, l2, l3⟩, rp, ⟨m1, m2, m3, m4, m5, m6⟩, rq, ra, se⟩ := h
  exact ⟨p, t, ⟨r1, r2, fun e => ⟨(r3 e).1, (r3 e).2.1, (r3 e).2.2.1, (r3 e).2.2.2.1, (r3 e).2.2.2.2.1,
      (r3 e).2.2.2.2.2.1, rfl⟩⟩,
    re, ⟨(fun e => nomatch e.1), l2, fun e1 e2 => ⟨(l3 e1 e2).1, rfl⟩⟩, rp, ⟨m1, m2, m3, hc, m5,
        fun e => absurd e hs⟩, rq, ra, se⟩

/-- Clearing RCH's outcome flags. -/
theorem rchFlags_inv {s : State} (h : Inv s) (b c d e : Bool) :
    Inv { s with rch := { s.rch with abort := b, txDone := c, txError := d, txDiscarded := e } } := by
  obtain ⟨p, t, r, re, la, rp, me, rq, ra, se⟩ := h
  exact ⟨p, t, r, re, la, rp, me, rq, ra, se⟩

theorem rchOut_inv {s : State} (h : Inv s) (o : Passed) : Inv { s with rchOut := o } := by
  obtain ⟨p, t, r, re, la, rp, me, rq, ra, se⟩ := h
  exact ⟨p, t, r, re, la, rp, me, rq, ra, se⟩

theorem rchTake_inv (m : Msg) (s : State) (h : Inv s) (q : TchQuiet s) (hm : msgConsistent m) (hs :
    s.rch.state = .waitForMessage) (hf : s.rch.msgReceived = false) : Inv (rchTake m s) := by
  have up : ∀ o, Inv (gotoRch .passUpMessage { s with rchOut := o }) := fun o =>
    gotoRch_inv _ { s with rchOut := o } (rchOut_inv h _) (fun _ => q) (fun e => nomatch e) (fun e => nomatch e)
  unfold rchTake
  split
  · exact h
  · exact up _
  · exact up _
  · exact up _
  · exact up _
  · rename_i hc
    split
    · refine gotoRch_inv _ _ ?_ (fun _ => q) (fun _ => hc) (fun e => nomatch e)
      have := consume_inv h m m.sop m.hdr hm (by rw [hs]; decide)
      rw [← hf] at this
      exact this
    · exact raiseRch_inv _ _ _ h q
  · split
    · exact raiseRch_inv _ _ _ h q
    · exact up _
  · exact raiseRch_inv _ _ _ h q

theorem length_take_le_arg {α : Type} (n : Nat) (l : List α) : (l.take n).length ≤ n := by simp

theorem appendChunk_inv (m : Msg) (s : State) (h : Inv s) (h1 : s.nextExpectedChunk ≤ 15) (h2 :
    s.rxTotal ≤ s.params.maxExtMsgBytes) :
    Inv (appendChunk m s) := by
  obtain ⟨p, t, r, re, la, rp, me, rq, ⟨a1, a2, a3, a4, a5, a6, a7⟩, se⟩ := h
  have hn : chunkTake s.rxTotal s.bytesReceived m ≤ s.rxTotal - s.bytesReceived := by unfold chunkTake; omega
  have hl := length_take_le_arg (chunkTake s.rxTotal s.bytesReceived m) (msgPayload m)
  refine ⟨p, t, r, re, la, rp, me, rq, ⟨Memory.wf_bufWrite _ _ _ a1, Memory.below_bufWrite _ _ _ _ a2 ?_, ?_, a4, ?_,
      fun e => ?_, fun _ => h2⟩, se⟩
  · show s.bytesReceived + ((msgPayload m).take
      (chunkTake s.rxTotal s.bytesReceived m)).length ≤ s.params.maxExtMsgBytes
    omega
  · show s.bytesReceived + chunkTake s.rxTotal s.bytesReceived m ≤ s.rxTotal
    omega
  · exact Nat.succ_le_succ h1
  · exact absurd e (Nat.succ_ne_zero _)

theorem finishOrRequest_inv {s t : State} (h : Inv s) (q : TchQuiet s) (w : s.prlHr.state = .waitForRequest) (e :
    finishOrRequest s = .next t) : Inv t := by
  unfold finishOrRequest requestChunk at e
  split at e
  · cases e
    exact gotoRch_inv _ _ (rchOut_inv h _) (fun _ => q) (fun e => nomatch e) (fun e => nomatch e)
  · split at e
    · cases e
    · cases e
      exact gotoRch_inv _ _ h (fun _ => q) (fun e => nomatch e) (fun _ => w)

theorem abortRch_inv {s : State} (h : Inv s) : Inv (abortRch s) :=
  gotoRch_inv _ _ (rchFlags_inv h false s.rch.txDone s.rch.txError s.rch.txDiscarded) (fun e => absurd rfl e)
      (fun e => nomatch e) (fun e => nomatch e)

theorem processChunk_inv {m : Msg} {x : XHdr} {s t : State} (h : Inv s) (q : TchQuiet s) (w :
    s.prlHr.state = .waitForRequest)
    (e : processChunk m x s = .next t) : Inv t := by
  unfold processChunk at e
  have hx := x.chunkNumber.isLt
  split at e
  · cases e
    exact raiseRch_inv _ _ _ h q
  rename_i h0
  have h0 : x.chunkNumber.toNat = s.nextExpectedChunk := by simpa using h0
  have h15 : s.nextExpectedChunk ≤ 15 := by omega
  dsimp only at e
  split at e
  · rename_i hz
    have hn : s.nextExpectedChunk = 0 := by rw [← h0, hz]; rfl
    have h' : Inv { s with rxTotal := x.dataSize.toNat } := by
      obtain ⟨p, t, r, re, la, rp, me, rq, ⟨a1, a2, a3, a4, a5, a6, a7⟩, se⟩ := h
      have := x.dataSize.isLt
      exact ⟨p, t, r, re, la, rp, me, rq, ⟨a1, a2, (a6 hn) ▸ Nat.zero_le _,
          by show x.dataSize.toNat ≤ 511; omega, a5, a6, fun e => absurd hn e⟩, se⟩
    split at e
    · cases e
      exact raiseRch_inv _ _ _ h' q
    · rename_i hb
      exact finishOrRequest_inv (appendChunk_inv m _ h' h15 (by exact Nat.le_of_not_lt hb)) q w e
  · rename_i hz
    have hn : s.nextExpectedChunk ≠ 0 := fun hc => hz (BitVec.eq_of_toNat_eq (by rw [h0, hc]; rfl))
    exact finishOrRequest_inv (appendChunk_inv m _ h h15 (h.reassembly.2.2.2.2.2.2 hn)) q w e

/-- A run of RCH keeps the invariant. -/
theorem runRch_inv {s t : State} (h : Inv s) (w : s.prlHr.state = .waitForRequest) (e : runRch s = .next t)
    : Inv t := by
  unfold runRch at e
  split at e
  · rename_i hs
    cases e
    unfold runRchWaitForMessage
    dsimp only
    have h1 := rchFlags_inv h false false false false
    split
    · rename_i hm
      have q := quiet_of_msg h hm
      refine rchTake_inv _ _ ?_ q h.messages.2.1 hs rfl
      exact consume_inv h1 s.rchCur s.rxSop s.rxHdr h.messages.2.2.2.1
          (by rw [show (_ : RchState) = _ from hs]; decide)
    · exact h1
  · rename_i hs
    split at e
    · cases e; exact abortRch_inv h
    · exact processChunk_inv h (quiet_of_state h (by rw [hs]; decide)) w e
  · rename_i hs
    cases e
    have q := quiet_of_state h (by rw [hs]; decide)
    unfold runRequestingChunk
    dsimp only
    split; · exact abortRch_inv h
    split
    · exact gotoRch_inv _ _ (rchFlags_inv h s.rch.abort false s.rch.txError s.rch.txDiscarded) (fun _ => q)
        (fun e => nomatch e) (fun e => nomatch e)
    split
    · exact raiseRch_inv _ _ _ (rchFlags_inv h s.rch.abort s.rch.txDone false s.rch.txDiscarded) q
    split
    · have h1 := rchFlags_inv h s.rch.abort s.rch.txDone s.rch.txError false
      split
      · exact interruptRch_inv _ _ (consume_inv h1 s.rchCur s.rxSop s.rxHdr h.messages.2.2.2.1
          (by rw [show (_ : RchState) = _ from hs]; decide)) q
      · exact raiseRch_inv _ _ _ h1 q
    · exact h
  · rename_i hs
    cases e
    have q := quiet_of_state h (by rw [hs]; decide)
    unfold runWaitingChunk
    split; · exact abortRch_inv h
    split
    · split
      · rename_i hc
        refine gotoRch_inv _ _ ?_ (fun _ => q) (fun _ => hc.1) (fun e => nomatch e)
        exact consume_inv h s.rchMsg s.rxSop s.rxHdr h.messages.2.1 (by rw [hs]; decide)
      · exact interruptRch_inv _ _ (consume_inv h s.rchCur s.rxSop s.rxHdr h.messages.2.2.2.1 (by rw [hs]; decide)) q
    split
    · exact raiseRch_inv _ _ _ h q
    · exact h
  · cases e; exact gotoRch_inv _ _ h (fun e => absurd rfl e) (fun e => nomatch e) (fun e => nomatch e)
  · cases e; exact gotoRch_inv _ _ h (fun e => absurd rfl e) (fun e => nomatch e) (fun e => nomatch e)

theorem gotoTch_inv (t : TchState) (s : State) (h : Inv s)
    (q : t ≠ .waitForRequestFromPe → s.rch.state = .waitForMessage ∧ s.rch.msgReceived = false)
    (hm : t ≠ .messageReceived)
    (c : t = .constructChunkedMessage ∨ t = .sendingChunkedMessage → s.nextChunkToSend ≤ 15)
    (o : t = .constructChunkedMessage ∨ t = .sendingChunkedMessage ∨ t = .waitChunkRequest →
      s.sendOffset = maxChunkBytes * s.nextChunkToSend)
    (l : t = .sendingChunkedMessage → s.sendChunkLen = chunkLen s) : Inv (gotoTch t s) := by
  obtain ⟨p, ⟨t1, t2, t3, t4, t5, t6⟩, r, re, ⟨l1, l2, l3⟩, rp, me, rq, ra, ⟨b1, b2, b3, b4, b5, b6, b7, b8, b9⟩⟩ := h
  have f := timerOwned_left t5
  cases t
  · rw [gotoTch_waitForRequestFromPe]
    exact ⟨p, ⟨t1, t2, t3, t4, f, t6⟩, r, re, ⟨l1, l2, fun e => absurd rfl e⟩, rp, me, rq, ra,
      ⟨b1, b2, b3, Nat.zero_le _, Nat.zero_le _, Nat.zero_le _, fun _ => Nat.zero_le _, fun _ => rfl,
          (fun e => nomatch e)⟩⟩
  · rw [gotoTch_constructChunkedMessage]
    exact ⟨p, ⟨t1, t2, t3, t4, f, t6⟩, r, re, ⟨l1, l2, fun _ _ => q (by decide)⟩, rp, me, rq, ra,
      ⟨b1, b2, b3, b4, b5, b6, fun _ => c (.inl rfl), fun _ => o (.inl rfl), (fun e => nomatch e)⟩⟩
  · rw [gotoTch_waitForTransmissionComplete]
    exact ⟨p, ⟨t1, t2, t3, t4, f, t6⟩, r, re, ⟨l1, l2, fun _ _ => q (by decide)⟩, rp, me, rq, ra,
      ⟨b1, b2, b3, b4, b5, b6, (fun e => by simp at e), (fun e => by simp at e), (fun e => nomatch e)⟩⟩
  · rw [gotoTch_sendingChunkedMessage]
    exact ⟨p, ⟨t1, t2, t3, t4, f, t6⟩, r, re, ⟨l1, l2, fun _ _ => q (by decide)⟩, rp, me, rq, ra,
      ⟨b1, b2, b3, b4, b5, b6, fun _ => c (.inr rfl), fun _ => o (.inr (.inl rfl)), fun _ => l rfl⟩⟩
  · rw [gotoTch_waitChunkRequest]
    exact ⟨p, ⟨t1, t2, t3, t4, timerOwned_on, t6⟩, r, re, ⟨l1, l2, fun _ _ => q (by decide)⟩, rp, me, rq, ra,
      ⟨b1, b2, b3, b4, b5, b6, (fun e => by simp at e), fun _ => o (.inr (.inr rfl)), (fun e => nomatch e)⟩⟩
  · rw [gotoTch_messageSent]
    exact ⟨p, ⟨t1, t2, t3, t4, f, t6⟩, r, re, ⟨l1, l2, fun _ _ => q (by decide)⟩, rp, me, rq, ra,
      ⟨b1, b2, b3, b4, b5, b6, (fun e => by simp [afterSent] at e), (fun e => by simp [afterSent] at e),
          (fun e => nomatch e)⟩⟩
  · have := raiseErr_tch s.tchErr s.sendSop s
    rw [raiseErr] at this
    rw [this]
    exact ⟨p, ⟨t1, t2, t3, t4, f, t6⟩, r, re, ⟨l1, l2, fun _ _ => q (by decide)⟩, rp, me, rq, ra,
      ⟨b1, b2, b3, b4, b5, b6, (fun e => by simp [afterTchError] at e), (fun e => by simp [afterTchError] at e),
          (fun e => nomatch e)⟩⟩
  · exact absurd rfl hm

theorem gotoTch_idle_inv {s : State} (h : Inv s) : Inv (gotoTch .waitForRequestFromPe s) :=
  gotoTch_inv _ _ h (fun e => absurd rfl e) (by decide) (by simp) (by simp) (by simp)

theorem raiseTch_inv (k : ErrKind) (v : Sop) (s : State) (h : Inv s) (q : s.rch.state = .waitForMessage ∧
    s.rch.msgReceived = false) :
    Inv (raiseErr .tch k v s) := by
  obtain ⟨p, t, r, re, la, rp, me, rq, ra, se⟩ := h
  exact gotoTch_inv _ { s with tchErr := k, sendSop := v } ⟨p, t, r, re, la, rp, me, rq, ra, se⟩ (fun _ => q)
      (by decide) (by simp) (by simp) (by simp)

theorem afterPreempted_inv {s : State} (h : Inv s) (w : s.prlHr.state = .waitForRequest) : Inv
    (afterPreempted { s with timers := tchTimersOff s }) := by
  obtain ⟨p, ⟨t1, t2, t3, t4, t5, t6⟩, ⟨r1, r2, r3⟩, re, ⟨l1, l2, l3⟩, rp, ⟨m1, m2, m3, m4⟩, rq, ra, ⟨b1, b2, b3, b4,
      b5, b6, b7, b8, b9⟩⟩ := h
  have f := timerOwned_left t5
  exact ⟨p, ⟨t1, t2, t3, t4, f, t6⟩, ⟨r1, r2, fun e => absurd w e⟩, re, ⟨(fun e => nomatch e.2), l2,
      fun _ e => absurd rfl e⟩, rp, ⟨m1, m3, m3, m4⟩, rq, ra,
      ⟨b1, b2, b3, b4, b5, b6, (fun e => by simp [afterPreempted] at e), (fun e => by simp [afterPreempted] at e),
          (fun e => nomatch e)⟩⟩

theorem preemptTch_inv {s t : State} (h : Inv s) (w : s.prlHr.state = .waitForRequest) (e : preemptTch s = .next t)
    : Inv t := by
  rw [preemptTch_eq] at e
  split at e
  · cases e
  · cases e
    exact afterPreempted_inv h w

/-- Clearing TCH's flags. -/
theorem tchFlags_inv {s : State} (h : Inv s) (b c d e : Bool) :
    Inv { s with tch := { s.tch with abort := b, txDone := c, txError := d, txDiscarded := e } } := by
  obtain ⟨p, t, r, re, la, rp, me, rq, ra, se⟩ := h
  exact ⟨p, t, r, re, la, rp, me, rq, ra, se⟩

theorem tchTrace_inv {s : State} (h : Inv s) (l : List Emit) : Inv { s with trace := l } := by
  obtain ⟨p, t, r, re, la, rp, me, rq, ra, se⟩ := h
  exact ⟨p, t, r, re, la, rp, me, rq, ra, se⟩

theorem tchMsg_inv {s : State} (h : Inv s) (b : Bool) (hb : b = true → s.tch.msgRequest = true)
    : Inv { s with tch := { s.tch with msgReceived := false, msgRequest := b } } := by
  obtain ⟨p, t, ⟨r1, r2, r3⟩, re, ⟨l1, l2, l3⟩, rp, me, rq, ra, se⟩ := h
  refine ⟨p, t, ⟨r1, r2, fun e => ?_⟩, re, ⟨(fun e => nomatch e.2), l2, l3⟩, rp, me, rq, ra, se⟩
  obtain ⟨x1, x2, x3, x4, x5, x6, x7⟩ := r3 e
  refine ⟨x1, x2, x3, x4, ?_, rfl, x7⟩
  cases b
  · rfl
  · rw [hb rfl] at x5; cases x5

theorem submit_inv {s : State} (c : Client) (sl : TxSlot) (h : Inv s) (w : s.prlHr.state = .waitForRequest) (hs :
    sl.words.length = sl.ndo.toNat) :
    Inv (submit c sl s) := by
  obtain ⟨p, t, ⟨r1, r2, r3⟩, re, la, rp, ⟨m1, m2, m3, m4, m5, m6⟩, rq, ra, se⟩ := h
  exact ⟨p, t, ⟨r1, r2, fun e => absurd w e⟩, re, la, rp, ⟨m1, m2, m3, m4, hs, m6⟩, rq, ra, se⟩

theorem busy_of_state {s : State} (h : Inv s) (h1 : s.tch.state ≠ .waitForRequestFromPe) (h2 :
    s.tch.state ≠ .messageReceived) :
    s.rch.state = .waitForMessage ∧ s.rch.msgReceived = false := h.latches.2.2 h1 h2

theorem extSlot_consistent (p : Params) (v : Sop) (ty : BitVec 5) (tot : Nat) (c : Bool) (k len : Nat) (pl :
    List Byte) (hl : pl.length = len) (hb : len ≤ maxChunkBytes) :
    (extSlot p v ty tot c k len pl).words.length = (extSlot p v ty tot c k len pl).ndo.toNat := by
  have := ndoOfLen_le len hb
  simp only [extSlot, length_packExt, hl, BitVec.toNat_ofNat]
  omega

theorem takeRequest_inv {s : State} (h : Inv s) (w : s.prlHr.state = .waitForRequest) (hs :
    s.tch.state = .waitForRequestFromPe)
    (q : s.rch.state = .waitForMessage ∧ s.rch.msgReceived = false) : Inv (takeRequest s) := by
  obtain ⟨q1, q2, q3, q4⟩ := h.request
  have h1 : Inv { s with tch := { s.tch with msgRequest := false }, sendSop := s.peReq.sop, sendType := s.peReq.typ, nextChunkToSend := 0 } := by
    obtain ⟨p, t, ⟨r1, r2, r3⟩, re, la, rp, me, rq, ra, ⟨b1, b2, b3, b4, b5, b6, b7, b8, b9⟩⟩ := h
    exact ⟨p, t, ⟨r1, r2, fun e => absurd w e⟩, re, la, rp, me, rq, ra, ⟨b1, b2, b3, b4, b5, Nat.zero_le _,
        fun _ => Nat.zero_le _, (fun e => by simp [hs] at e), (fun e => by simp [hs] at e)⟩⟩
  have go : ∀ sl : TxSlot, sl.words.length = sl.ndo.toNat → Inv (gotoTch .waitForTransmissionComplete
      (submit .tch sl { s with tch := { s.tch with msgRequest := false }, sendSop := s.peReq.sop, sendType := s.peReq.typ, nextChunkToSend := 0 })) := fun sl hl =>
    gotoTch_inv _ _ (submit_inv _ _ h1 w hl) (fun _ => q) (by decide) (by simp) (by simp) (by simp)
  cases hk : s.peReq.kind
  · simp only [takeRequest, hk]
    exact go _ rfl
  · simp only [takeRequest, hk]
    refine go _ ?_
    simp only [dataSlot, List.length_take, q1, BitVec.toNat_ofNat]
    simp only [maxDataObjects] at q2
    omega
  · simp only [takeRequest, hk, extendedRequest]
    split
    · refine gotoTch_inv _ _ ?_ (fun _ => q) (by decide) (fun _ => Nat.zero_le _) (fun _ => rfl) (by simp)
      obtain ⟨p, t, r, re, la, rp, me, rq, ra, ⟨b1, b2, b3, b4, b5, b6, b7, b8, b9⟩⟩ := h1
      refine ⟨p, t, r, re, la, rp, me, rq, ra, ⟨Memory.wf_bufWrite _ _ _ b1, Memory.below_bufWrite _ _ _ _ b2 ?_, q4,
          Nat.zero_le _, b5, b6, b7, fun _ => rfl, (fun e => by simp [hs] at e)⟩⟩
      simp only [List.length_take, q3, Params.maxSendLen] at q4 ⊢
      omega
    split
    · rename_i hl
      exact go _ (extSlot_consistent _ _ _ _ _ _ _ _ (by simp [q3]) hl)
    · exact raiseTch_inv _ _ _ h1 q

theorem abortTch_inv {s : State} (h : Inv s) : Inv (abortTch s) :=
  gotoTch_idle_inv (tchFlags_inv h false s.tch.txDone s.tch.txError s.tch.txDiscarded)

theorem tchDiscarded_inv {s t : State} (h : Inv s) (w : s.prlHr.state = .waitForRequest) (e :
    tchDiscarded s = .next t) : Inv t := by
  have h1 := tchFlags_inv h s.tch.abort s.tch.txDone s.tch.txError false
  unfold tchDiscarded at e
  dsimp only at e
  split at e
  · exact preemptTch_inv h1 w e
  · cases e
    exact gotoTch_idle_inv (tchTrace_inv h1 _)

theorem tchFailed_inv {s : State} (h : Inv s) (q : s.rch.state = .waitForMessage ∧ s.rch.msgReceived = false) : Inv
    (tchFailed s) :=
  raiseTch_inv _ _ _ (tchFlags_inv h s.tch.abort s.tch.txDone false s.tch.txDiscarded) q

/-- A run of TCH keeps the invariant. -/
theorem runTch_inv {s t : State} (h : Inv s) (w : s.prlHr.state = .waitForRequest) (e : runTch s = .next t)
    : Inv t := by
  unfold runTch at e
  split at e
  · rename_i hs
    have h1 := tchFlags_inv h false false false false
    unfold runWaitForRequestFromPe at e
    dsimp only at e
    split at e
    · unfold forwardChecked at e
      split at e
      · cases e
      · cases e
        obtain ⟨p, t, ⟨r1, r2, r3⟩, re, ⟨l1, l2, l3⟩, rp, ⟨m1, m2, m3, m4⟩, rq, ra, se⟩ := h1
        exact ⟨p, t, ⟨r1, r2, fun e => absurd w e⟩, re, ⟨(fun e => nomatch e.2), l2, fun e => absurd hs e⟩, rp, ⟨m1,
            m3, m3, m4⟩, rq, ra, se⟩
    split at e
    · rename_i hq
      cases e
      simp only [tchMayStart, Bool.and_eq_true, decide_eq_true_eq, Bool.not_eq_true'] at hq
      exact takeRequest_inv h1 w hs ⟨hq.1.1.2, hq.1.2⟩
    · cases e; exact h1
  · rename_i hs
    have q := busy_of_state h (by rw [hs]; decide) (by rw [hs]; decide)
    unfold runConstructChunkedMessage at e
    split at e; · cases e; exact abortTch_inv h
    split at e; · exact preemptTch_inv h w e
    cases e
    have hb := h.send
    refine gotoTch_inv _ _ (submit_inv _ _ ?_ w ?_) (fun _ => q) (by decide) (fun _ => hb.2.2.2.2.2.2.1 (.inl hs))
        (fun _ => hb.2.2.2.2.2.2.2.1 (.inl hs)) (fun _ => rfl)
    · obtain ⟨p, t, r, re, la, rp, me, rq, ra, ⟨b1, b2, b3, b4, b5, b6, b7, b8, b9⟩⟩ := h
      exact ⟨p, t, r, re, la, rp, me, rq, ra, ⟨b1, b2, b3, b4, Nat.min_le_left _ _, b6, b7, b8,
          (fun e => by simp [hs] at e)⟩⟩
    · exact extSlot_consistent _ _ _ _ _ _ _ _ (by simp) (Nat.min_le_left _ _)
  · rename_i hs
    have q := busy_of_state h (by rw [hs]; decide) (by rw [hs]; decide)
    unfold runWaitForTransmissionComplete at e
    split at e
    · cases e
      exact gotoTch_inv _ _ (tchFlags_inv h s.tch.abort false s.tch.txError s.tch.txDiscarded) (fun _ => q)
          (by decide) (by simp) (by simp) (by simp)
    split at e; · cases e; exact tchFailed_inv h q
    split at e; · exact tchDiscarded_inv h w e
    cases e; exact h
  · rename_i hs
    have q := busy_of_state h (by rw [hs]; decide) (by rw [hs]; decide)
    unfold runSendingChunkedMessage at e
    split at e
    · cases e
      unfold chunkConfirmed
      dsimp only
      obtain ⟨p, ⟨t1, t2, t3, t4, t5, t6⟩, r, re, ⟨l1, l2, l3⟩, rp, me, rq, ra, ⟨b1, b2, b3, b4, b5, b6, b7, b8, b9⟩⟩
          := h
      have c7 := b7 (.inr hs)
      have c8 := b8 (.inr (.inl hs))
      have c9 := b9 hs
      unfold chunkLen maxChunkBytes at c9
      unfold maxChunkBytes at c8
      have f := timerOwned_left t5
      split
      · rw [gotoTch_messageSent]
        exact ⟨p, ⟨t1, t2, t3, t4, f, t6⟩, r, re, ⟨l1, l2, fun _ _ => q⟩, rp, me, rq, ra,
          ⟨b1, b2, b3, (show s.sendOffset + s.sendChunkLen ≤ s.sendLen by omega), b5, Nat.succ_le_succ c7,
              (fun e => by simp [afterSent] at e), (fun e => by simp [afterSent] at e), (fun e => nomatch e)⟩⟩
      · rename_i hlt
        rw [gotoTch_waitChunkRequest]
        exact ⟨p, ⟨t1, t2, t3, t4, timerOwned_on, t6⟩, r, re, ⟨l1, l2, fun _ _ => q⟩, rp, me, rq, ra,
          ⟨b1, b2, b3, (show s.sendOffset + s.sendChunkLen ≤ s.sendLen by omega), b5, Nat.succ_le_succ c7,
              (fun e => by simp at e),
           fun _ => (show s.sendOffset + s.sendChunkLen = 26 * (s.nextChunkToSend + 1) by omega),
               (fun e => nomatch e)⟩⟩
    split at e; · cases e; exact tchFailed_inv h q
    split at e; · exact tchDiscarded_inv h w e
    cases e; exact h
  · rename_i hs
    have q := busy_of_state h (by rw [hs]; decide) (by rw [hs]; decide)
    obtain ⟨b1, b2, b3, b4, b5, b6, b7, b8, b9⟩ := h.send
    unfold runWaitChunkRequest at e
    split at e; · cases e; exact abortTch_inv h
    split at e
    · split at e
      · have h1 := tchMsg_inv h s.tch.msgRequest id
        dsimp only at e
        split at e
        · rename_i hn
          cases e
          have := (msgXHdr s.params s.tchMsg).chunkNumber.isLt
          exact gotoTch_inv _ _ h1 (fun _ => q) (by decide) (fun _ => by show s.nextChunkToSend ≤ 15; omega)
              (fun _ => b8 (.inr (.inr hs))) (by simp)
        · cases e
          exact raiseTch_inv _ _ _ h1 q
      · exact preemptTch_inv h w e
    split at e
    · cases e
      exact gotoTch_inv _ _ h (fun _ => q) (by decide) (by simp) (by simp) (by simp)
    · cases e; exact h
  · cases e; exact gotoTch_idle_inv h
  · cases e; exact gotoTch_idle_inv h
  · cases e; exact gotoTch_idle_inv h

/-! ### PRL-RX -/

theorem setLoop_inv {s : State} (h : Inv s) (l : Loop) (h1 : beforeTick l = beforeTick s.loop) (h2 :
    inBody l = true → s.prlHr.state = .waitForRequest) :
    Inv { s with loop := l } := by
  obtain ⟨p, ⟨t1, t2, t3, t4, t5, t6⟩, ⟨r1, r2, r3⟩, re, la, rp, me, rq, ra, se⟩ := h
  exact ⟨p, ⟨t1, t2, t3, t4, t5, by rw [show ({ s with loop := l } : State).loop = l from rfl, h1]; exact t6⟩, ⟨r1, h2, r3⟩, re, la, rp,
      me, rq, ra, se⟩

theorem inputs_inv {s : State} (h : Inv s) (l : List Input) : Inv { s with inputs := l } := by
  obtain ⟨p, t, r, re, la, rp, me, rq, ra, se⟩ := h
  exact ⟨p, t, r, re, la, rp, me, rq, ra, se⟩

theorem whole_consistent (m : Msg) (h : msgConsistent m) : msgConsistent (whole m) := by
  show (m.words.take (msgNdo m)).length = msgNdo m
  have : m.words.length = msgNdo m := h
  simp [this]

theorem accept_inv (m : Msg) {s : State} (h : Inv s) (w : s.prlHr.state = .waitForRequest) : Inv (accept m s) := by
  have h1 : Inv (if txPending s then gotoPrlTx .discardMessage (keepConfirmation s) else s) := by
    split
    · exact gotoPrlTx_inv _ _ (txOwed_inv h _) fun e => nomatch e
    · exact h
  have w1 : (if txPending s then gotoPrlTx .discardMessage (keepConfirmation s) else s).prlHr.state = .waitForRequest := by
    split
    · rw [gotoPrlTx_discardMessage]; exact w
    · exact w
  unfold accept
  generalize (if txPending s then gotoPrlTx .discardMessage (keepConfirmation s) else s) = u at *
  obtain ⟨p, t, ⟨r1, r2, r3⟩, re, la, rp, me, rq, ra, se⟩ := h1
  exact ⟨p, t, ⟨r1, r2, fun e => absurd w1 e⟩, re, la, rp, me, rq, ra, se⟩

/-- What acceptance leaves alone. -/
theorem accept_fields (m : Msg) (s : State) : (accept m s).tch.msgReceived = s.tch.msgReceived ∧
    (accept m s).rch.msgReceived = s.rch.msgReceived ∧
    (accept m s).prlHr = s.prlHr ∧ (accept m s).tch.state = s.tch.state ∧ (accept m s).rch.state = s.rch.state := by
  rw [accept_eq, afterAccept, afterDiscard]
  split
  · cases s.txClient <;> exact ⟨rfl, rfl, rfl, rfl, rfl⟩
  · exact ⟨rfl, rfl, rfl, rfl, rfl⟩

theorem route_inv (m : Msg) {s : State} (h : Inv s) (w : s.prlHr.state = .waitForRequest) (hm : msgConsistent m)
    (h1 : s.rch.msgReceived = false) (h2 : s.tch.msgReceived = false) : Inv (route m s) := by
  have hw := whole_consistent m hm
  unfold route
  split
  · obtain ⟨p, t, ⟨r1, r2, r3⟩, re, ⟨l1, l2, l3⟩, rp, ⟨m1, m2, m3, m4⟩, rq, ra, se⟩ := h
    split
    · rename_i hs
      exact ⟨p, t, ⟨r1, r2, fun e => absurd w e⟩, re,
          ⟨(fun e => by rw [show (_ : Bool) = _ from h2] at e; exact nomatch e.2), l2, fun e => absurd hs e⟩, rp,
              ⟨m1, hw, m3, m4⟩, rq, ra, se⟩
    · exact ⟨p, t, ⟨r1, r2, fun e => absurd w e⟩, re,
        ⟨(fun e => by rw [show (_ : Bool) = _ from h1] at e; exact nomatch e.1), l2, l3⟩, rp, ⟨m1, m2, hw, m4⟩, rq,
            ra, se⟩
  · exact tchTrace_inv h _

theorem rearmRch_inv {s : State} (h : Inv s) : Inv (rearmRch s) := by
  obtain ⟨p, ⟨t1, t2, t3, t4, t5⟩, ⟨r1, r2, r3⟩, re, ⟨l1, l2, l3⟩, rp, ⟨m1, m2, m3, m4, m5, m6⟩, rq, ⟨a1, a2, a3, a4,
      a5, a6, a7⟩, se⟩ := h
  have o := timerOwned_left t4
  rw [rearmRch_eq]
  refine ⟨p, ⟨t1, t2, t3, o, t5⟩, ⟨r1, r2, fun e => ?_⟩, re, ⟨(fun e => nomatch e.1), rfl, fun e1 e2 => ⟨rfl, rfl⟩⟩,
      rp,
      ⟨m1, m2, m3, m4, m5, (fun e => nomatch e)⟩, rq, ⟨a1, a2, Nat.zero_le _, Nat.zero_le _, Nat.zero_le _,
          fun _ => rfl, fun e => absurd rfl e⟩, se⟩
  obtain ⟨x1, x2, x3, x4, x5, x6, x7⟩ := r3 e
  exact ⟨x1, x2, x3, x4, x5, x6, rfl⟩

theorem rearmTch_inv {s : State} (h : Inv s) : Inv (rearmTch s) := by
  obtain ⟨p, ⟨t1, t2, t3, t4, t5, t6⟩, ⟨r1, r2, r3⟩, re, ⟨l1, l2, l3⟩, rp, me, rq, ra, ⟨b1, b2, b3, b4, b5, b6, b7,
      b8, b9⟩⟩ := h
  have f := timerOwned_left t5
  rw [rearmTch_eq]
  refine ⟨p, ⟨t1, t2, t3, t4, f, t6⟩, ⟨r1, r2, fun e => ?_⟩, re, ⟨(fun e => nomatch e.2), l2, fun e => absurd rfl e⟩,
      rp, me, rq, ra,
      ⟨b1, b2, Nat.zero_le _, Nat.zero_le _, Nat.zero_le _, Nat.zero_le _, fun _ => Nat.zero_le _, fun _ => rfl,
          (fun e => nomatch e)⟩⟩
  obtain ⟨x1, x2, x3, x4, x5, x6, x7⟩ := r3 e
  exact ⟨x1, x2, x3, x4, rfl, rfl, x7⟩

theorem prlTxFlags_inv {s : State} (h : Inv s) (b c d : Bool) (hb : b = true → s.prlHr.state = .waitForRequest) :
    Inv { s with prlTx := { s.prlTx with txRequest := b, txCompleteOk := c, txCompleteFail := d } } := by
  obtain ⟨p, t, ⟨r1, r2, r3⟩, re, la, rp, me, rq, ra, se⟩ := h
  refine ⟨p, t, ⟨r1, r2, fun e => ?_⟩, re, la, rp, me, rq, ra, se⟩
  obtain ⟨x1, x2, x3, x4, x5⟩ := r3 e
  refine ⟨x1, x2, x3, ?_, x5⟩
  cases b
  · rfl
  · exact absurd (hb rfl) e

theorem resetIds_inv (v : Sop) {s : State} (h : Inv s) : Inv (resetIds v s) := by
  obtain ⟨p, t, ⟨r1, r2, r3⟩, re, la, rp, me, rq, ra, se⟩ := h
  refine ⟨p, t, ⟨r1, r2, fun e => ?_⟩, re, la, rp, me, rq, ra, se⟩
  obtain ⟨x1, x2, x3⟩ := r3 e
  refine ⟨?_, ?_, x3⟩
  · show s.txCounter.set v 0 = _
    rw [x1, PerSop.set_fill]
  · show s.rxRecord.set v none = _
    rw [x2, PerSop.set_fill]

theorem softResetReceived_inv (v : Sop) {s : State} (h : Inv s) : Inv (softResetReceived v s) := by
  unfold softResetReceived
  dsimp only
  have h1 : Inv (if sendPending s then s.emit .peReportDiscard else s) := by
    split
    · exact tchTrace_inv h _
    · exact h
  generalize (if sendPending s then s.emit .peReportDiscard else s) = u at *
  have h2 := resetIds_inv v (txOwed_inv h1 (if s.txSop = v then s.txOwed else (keepConfirmation s).txOwed))
  have h3 := gotoPrlTx_inv .phyReset _ (prlTxFlags_inv h2 false false false fun e => nomatch e) fun e => nomatch e
  exact tchTrace_inv (rearmTch_inv (rearmRch_inv h3)) _

theorem acceptThen_inv (m : Msg) (f : State → State) {s : State} (h : Inv s) (hf : Inv (accept m s) → Inv (f
    (accept m s))) (w : s.prlHr.state = .waitForRequest) : Inv (acceptThen m f s) := by
  unfold acceptThen
  split
  · exact h
  · exact hf (accept_inv m h w)

theorem runPrlRx_inv {s t : State} (h : Inv s) (w : s.prlHr.state = .waitForRequest) (e : runPrlRx s = .next t)
    : Inv t := by
  unfold runPrlRx fetchMsg at e
  by_cases hb : latchBusy s = true
  · simp only [hb, if_true] at e
    cases e; exact h
  simp only [hb] at e
  have hb' : s.rch.msgReceived = false ∧ s.tch.msgReceived = false := by simpa [latchBusy] using hb
  cases hq : s.rxq with
  | nil => simp only [hq] at e; cases e; exact h
  | cons m rest =>
    simp only [hq] at e
    have hm : msgConsistent m := h.messages.1 m (by rw [hq]; exact List.mem_cons_self ..)
    have h1 : Inv ({ s with rxq := rest, trace := s.trace ++ [.tpDequeueMessage] }) := by
      obtain ⟨p, t, r, re, la, rp, ⟨m1, m2⟩, rq, ra, se⟩ := h
      exact ⟨p, t, r, re, la, rp, ⟨fun x hx => m1 x (by rw [hq]; exact List.mem_cons_of_mem _ hx), m2⟩, rq, ra, se⟩
    have e : exec (decodeMsg s.params m)
        { s with rxq := rest, trace := s.trace ++ [.tpDequeueMessage] } = .next t := e
    have hr : Inv (acceptThen m (route m) { s with rxq := rest, trace := s.trace ++ [.tpDequeueMessage] }) := by
      refine acceptThen_inv m _ h1 (fun h2 => ?_) w
      have af := accept_fields m { s with rxq := rest, trace := s.trace ++ [.tpDequeueMessage] }
      refine route_inv m h2 ?_ hm ?_ ?_
      · rw [af.2.2.1]; exact w
      · rw [af.2.1]; exact hb'.1
      · rw [af.1]; exact hb'.2
    unfold decodeMsg at e
    split at e
    · cases e; exact h1
    · cases e; exact softResetReceived_inv _ h1
    · cases e; exact acceptThen_inv m _ h1 (fun h2 => tchTrace_inv h2 _) w
    all_goals (cases e; exact hr)

/-! ### PRL-HR -/

/-- The goto to ResetLayer keeps the invariant (R172). -/
theorem resetLayer_inv {s : State} (h : Inv s) (hb : inBody s.loop = false) : Inv (gotoPrlHr .resetLayer s) := by
  unfold gotoPrlHr
  rw [exitPrlHr_eq]
  obtain ⟨p, ⟨t1, t2, t3, t4, t5⟩, ⟨r1, r2, r3⟩, re, ⟨l1, l2, l3⟩, rp, me, rq, ra, se⟩ := h
  have o := timerOwned_left t3
  exact ⟨p, ⟨t1, t2, o, t4, t5⟩, ⟨rfl, (fun e : inBody s.loop = true => by rw [hb] at e; cases e), fun _ =>
      ⟨rfl, rfl, rfl, rfl, rfl, rfl, rfl⟩⟩,
    ⟨p, p, p, p, p, p⟩, ⟨(fun e => nomatch e.1), rfl, fun e1 e2 => ⟨(l3 e1 e2).1, rfl⟩⟩, rp, me, rq, ra, se⟩

theorem gotoPrlHr_waitForPhy (s : State) :
    gotoPrlHr .waitForPhyHardResetComplete s =
      { s with
        prlHr := { s.prlHr with state := .waitForPhyHardResetComplete }
        txOutstanding := s.txOutstanding + 1
        trace := s.trace ++ [.tpTransmitHardReset]
        timers := { s.timers with hrComplete := Timer.on } } := by
  rw [gotoPrlHr, exitPrlHr_eq]
  rfl

/-- The goto to WaitForPhyHardResetComplete keeps the invariant (R174). -/
theorem waitForPhy_inv {s : State} (h : Inv s) (hb : inBody s.loop = false) (hn : s.prlHr.state ≠ .waitForRequest)
    : Inv (gotoPrlHr .waitForPhyHardResetComplete s) := by
  rw [gotoPrlHr_waitForPhy]
  have hx : s.rxEnabled = false := by rw [h.hardReset.1, decide_eq_false hn]
  exact ⟨h.params, ⟨h.timers.1, h.timers.2.1, timerOwned_on, h.timers.2.2.2⟩,
    ⟨hx, (fun e : inBody s.loop = true => by rw [hb] at e; cases e), fun _ => h.hardReset.2.2 hn⟩,
    h.revisions, h.latches, h.rp, h.messages, h.request, h.reassembly, h.send⟩

/-- The goto to WaitForPeHardResetComplete, after a flag of PRL-HR and the trace may have changed, keeps the invariant
(R173, R174). -/
theorem waitForPe_inv {s : State} (h : Inv s) (hb : inBody s.loop = false) (hn : s.prlHr.state ≠ .waitForRequest)
    (d : Bool) (l : List Emit)
    : Inv (gotoPrlHr .waitForPeHardResetComplete
        { s with prlHr := { s.prlHr with phyHardResetDone := d }, trace := l }) := by
  unfold gotoPrlHr
  rw [exitPrlHr_eq]
  obtain ⟨p, ⟨t1, t2, t3, t4, t5⟩, ⟨r1, r2, r3⟩, re, la, rp, me, rq, ra, se⟩ := h
  have o := timerOwned_left t3
  have hx : s.rxEnabled = false := by rw [r1, decide_eq_false hn]
  exact ⟨p, ⟨t1, t2, o, t4, t5⟩, ⟨hx, (fun e : inBody s.loop = true => by rw [hb] at e; cases e),
      fun _ => r3 hn⟩, re, la, rp, me, rq, ra, se⟩

/-- The final exit and the return to WaitForRequest keep the invariant (R175, R177). -/
theorem finalExit_inv {s : State} (h : Inv s)
    : Inv (gotoPrlHr .waitForRequest (hrFinalExit { s with prlHr := { s.prlHr with peHardResetDone := false } })) := by
  have h1 := rearmTch_inv (rearmRch_inv (gotoPrlTx_inv .phyReset _
    (prlTxFlags_inv h false false false fun e => nomatch e) fun e => nomatch e))
  have h1 : Inv (rearmTch (rearmRch (rearmPrlTx s))) := h1
  rw [rearmPrlTx_eq, rearmRch_eq, rearmTch_eq] at h1
  obtain ⟨p, ⟨t1, t2, t3, t4, t5⟩, ⟨r1, r2, r3⟩, re, la, rp, me, rq, ra, se⟩ := h1
  have o := timerOwned_left t3
  unfold gotoPrlHr
  rw [exitPrlHr_eq]
  simp only [hrFinalExit, rearmPrlTx_eq, rearmRch_eq, rearmTch_eq]
  exact ⟨p, ⟨t1, t2, o, t4, t5⟩, ⟨rfl, fun _ => rfl, fun e => absurd rfl e⟩, re, la, rp, me, rq, ra, se⟩

theorem runPrlHr_inv {s : State} (h : Inv s) (hb : inBody s.loop = false) : Inv (runPrlHr s) := by
  unfold runPrlHr
  split
  · split
    · exact resetLayer_inv h hb
    · exact h
  · rename_i hs
    have hn : s.prlHr.state ≠ .waitForRequest := by rw [hs]; decide
    split
    · exact waitForPe_inv h hb hn s.prlHr.phyHardResetDone _
    · exact waitForPhy_inv h hb hn
  · rename_i hs
    have hn : s.prlHr.state ≠ .waitForRequest := by rw [hs]; decide
    split
    · exact waitForPe_inv h hb hn false _
    · exact h
  · split
    · exact finalExit_inv h
    · exact h

/-! ### Events -/

theorem setTimer_inv {s : State} (h : Inv s) (i : TimerId) (hi : (s.timers.get i).armed = true)
    : Inv { s with timers := s.timers.set i ⟨true, true⟩ } := by
  obtain ⟨p, ⟨⟨t1, u1⟩, ⟨t2, u2⟩, ⟨t3, u3⟩, ⟨t4, u4⟩, ⟨t5, u5⟩, ⟨t6, u6⟩⟩, r, re, la, rp, me, rq, ra, se⟩ := h
  cases i
  · exact ⟨p, ⟨⟨hi ▸ t1, fun _ => rfl⟩, ⟨t2, u2⟩, ⟨t3, u3⟩, ⟨t4, u4⟩, ⟨t5, u5⟩, ⟨t6, u6⟩⟩, r, re, la, rp, me, rq, ra,
      se⟩
  · exact ⟨p, ⟨⟨t1, u1⟩, ⟨hi ▸ t2, fun _ => rfl⟩, ⟨t3, u3⟩, ⟨t4, u4⟩, ⟨t5, u5⟩, ⟨t6, u6⟩⟩, r, re, la, rp, me, rq, ra,
      se⟩
  · exact ⟨p, ⟨⟨t1, u1⟩, ⟨t2, u2⟩, ⟨hi ▸ t3, fun _ => rfl⟩, ⟨t4, u4⟩, ⟨t5, u5⟩, ⟨t6, u6⟩⟩, r, re, la, rp, me, rq, ra,
      se⟩
  · exact ⟨p, ⟨⟨t1, u1⟩, ⟨t2, u2⟩, ⟨t3, u3⟩, ⟨hi ▸ t4, fun _ => rfl⟩, ⟨t5, u5⟩, ⟨t6, u6⟩⟩, r, re, la, rp, me, rq, ra,
      se⟩
  · exact ⟨p, ⟨⟨t1, u1⟩, ⟨t2, u2⟩, ⟨t3, u3⟩, ⟨t4, u4⟩, ⟨hi ▸ t5, fun _ => rfl⟩, ⟨t6, u6⟩⟩, r, re, la, rp, me, rq, ra,
      se⟩
  · exact ⟨p, ⟨⟨t1, u1⟩, ⟨t2, u2⟩, ⟨t3, u3⟩, ⟨t4, u4⟩, ⟨t5, u5⟩, ⟨hi ▸ t6, fun _ => rfl⟩⟩, r, re, la, rp, me, rq, ra,
      se⟩

theorem expireTimer_inv {s t : State} (h : Inv s) (i : TimerId) (e : expireTimer i s = .next t) : Inv t := by
  unfold expireTimer at e
  split at e
  · rename_i ha
    split at e
    · cases e
    · cases e; exact setTimer_inv h i ha
  · cases e

theorem wakeLoop_inv {s : State} (h : Inv s) : Inv (wakeLoop s) := by
  unfold wakeLoop
  split
  · rename_i hl
    exact setLoop_inv h _ (by rw [hl]; rfl) (fun e => nomatch e)
  · exact h

theorem latchRequest_inv {s : State} (r : PeReq) (h : Inv s) (he : peSendEnabled s = true)
    (hr : r.words.length = r.ndo ∧ r.ndo ≤ maxDataObjects ∧ r.bytes.length = r.len ∧ r.len ≤ s.params.maxSendLen)
        : Inv (latchRequest r s) := by
  have w : s.prlHr.state = .waitForRequest := by
    simp only [peSendEnabled, Bool.and_eq_true, decide_eq_true_eq] at he
    exact he.1.1.2
  obtain ⟨p, t, ⟨r1, r2, r3⟩, re, la, rp, me, rq, ra, se⟩ := h
  exact ⟨p, t, ⟨r1, r2, fun e => absurd w e⟩, re, la, rp, me, hr, ra, se⟩

theorem setRev_inv {s : State} (v : Sop) (r : BitVec 2) (h : Inv s) (hr : r ≠ revReserved) (w :
    s.prlHr.state = .waitForRequest) :
    Inv { s with rev := s.rev.set v r } := by
  obtain ⟨p, t, ⟨r1, r2, r3⟩, ⟨g1, g2, g3, g4, g5, g6⟩, la, rp, me, rq, ra, se⟩ := h
  refine ⟨p, t, ⟨r1, r2, fun e => absurd w e⟩, ?_, la, rp, me, rq, ra, se⟩
  cases v
  · exact ⟨hr, g2, g3, g4, g5, g6⟩
  · exact ⟨g1, hr, g3, g4, g5, g6⟩
  · exact ⟨g1, g2, hr, g4, g5, g6⟩
  · exact ⟨g1, g2, g3, hr, g5, g6⟩
  · exact ⟨g1, g2, g3, g4, hr, g6⟩
  · exact ⟨g1, g2, g3, g4, g5, hr⟩

theorem execEvent_inv {i : Instr} {s t : State} (h : Inv s) (hi : isEvent i = true) (e : exec i s = .next t)
    : Inv t := by
  have plain : ∀ {u : State}, Inv u → Host.Outcome.next (φ := Fault) (ρ := Refusal) u = .next t →
      Inv t := fun hu e => by cases e; exact hu
  cases i <;> simp only [isEvent, Bool.false_eq_true] at hi <;> simp only [exec] at e
  case peSendCtrlMessage v ty =>
    unfold execPeSendCtrlMessage at e
    split at e
    · rename_i he
      exact plain (latchRequest_inv _ h he ⟨rfl, Nat.zero_le _, rfl, Nat.zero_le _⟩) e
    · cases e
  case peSendDataMessage v ty ndo ws =>
    unfold execPeSendDataMessage at e
    split at e
    · rename_i hn
      split at e
      · rename_i he
        exact plain (latchRequest_inv _ h he ⟨hn.2.2, hn.2.1, rfl, Nat.zero_le _⟩) e
      · cases e
    · cases e
  case peSendExtendedMessage v ty len bs =>
    unfold execPeSendExtendedMessage at e
    split at e
    · rename_i hn
      split at e
      · rename_i he
        exact plain (latchRequest_inv _ h he ⟨rfl, Nat.zero_le _, hn.2, hn.1⟩) e
      · cases e
    · cases e
  case peExecuteHardReset =>
    obtain ⟨p, t, r, re, la, rp, me, rq, ra, se⟩ := h
    obtain rfl := Host.Outcome.next.inj e
    exact ⟨p, t, r, re, la, rp, me, rq, ra, se⟩
  case peHardResetComplete =>
    unfold execPeHardResetComplete at e
    split at e
    · obtain ⟨p, t, r, re, la, rp, me, rq, ra, se⟩ := h
      obtain rfl := Host.Outcome.next.inj e
      exact ⟨p, t, r, re, la, rp, me, rq, ra, se⟩
    · cases e
  case peSetRevision v r =>
    unfold execPeSetRevision at e
    split at e
    · cases e
    split at e
    · rename_i hr w
      exact plain (setRev_inv v r h hr w) e
    · cases e
  case peResetMessageIds v =>
    unfold execPeResetMessageIds at e
    split at e
    · exact plain (resetIds_inv v h) e
    · cases e
  case peAbort =>
    obtain ⟨p, t, r, re, la, rp, me, rq, ra, se⟩ := h
    obtain rfl := Host.Outcome.next.inj e
    exact ⟨p, t, r, re, la, rp, me, rq, ra, se⟩
  case tpRx m =>
    unfold execTpRx at e
    split at e
    · rename_i hm
      split at e
      · obtain ⟨p, t, r, re, la, rp, ⟨m1, m2⟩, rq, ra, se⟩ := h
        obtain rfl := Host.Outcome.next.inj e
        refine ⟨p, t, r, re, la, rp, ⟨fun x hx => ?_, m2⟩, rq, ra, se⟩
        rcases List.mem_append.mp hx with hx | hx
        · exact m1 x hx
        · rw [List.mem_singleton.mp hx]; exact hm
      · cases e
    · cases e
  case tpTxCompleteOk =>
    unfold execTpTxCompleteOk completion at e
    split at e
    · obtain ⟨p, t, r, re, la, rp, me, rq, ra, se⟩ := h
      obtain rfl := Host.Outcome.next.inj e
      exact ⟨p, t, r, re, la, rp, me, rq, ra, se⟩
    · cases e
  case tpTxCompleteFail =>
    unfold execTpTxCompleteFail completion at e
    split at e
    · obtain ⟨p, t, r, re, la, rp, me, rq, ra, se⟩ := h
      obtain rfl := Host.Outcome.next.inj e
      exact ⟨p, t, r, re, la, rp, me, rq, ra, se⟩
    · cases e
  case tpHardResetReceived =>
    obtain ⟨p, t, r, re, la, rp, me, rq, ra, se⟩ := h
    obtain rfl := Host.Outcome.next.inj e
    exact ⟨p, t, r, re, la, rp, me, rq, ra, se⟩
  case tpHardResetSent =>
    unfold execTpHardResetSent completion at e
    split at e
    · obtain ⟨p, t, r, re, la, rp, me, rq, ra, se⟩ := h
      obtain rfl := Host.Outcome.next.inj e
      exact ⟨p, t, r, re, la, rp, me, rq, ra, se⟩
    · cases e
  case timerExpireTxResponse => exact expireTimer_inv h _ e
  case timerExpireSrcCa => exact expireTimer_inv h _ e
  case timerExpireHrComplete => exact expireTimer_inv h _ e
  case timerExpireChunkResponse => exact expireTimer_inv h _ e
  case timerExpireChunkRequest => exact expireTimer_inv h _ e
  case timerExpireWakeCeiling =>
    unfold execTimerExpireWakeCeiling at e
    cases hx : expireTimer .wakeCeiling s with
    | next u => rw [hx] at e; exact plain (wakeLoop_inv (expireTimer_inv h _ hx)) e
    | fault => rw [hx] at e; cases e
    | refused => rw [hx] at e; cases e
  case wake =>
    unfold execWake at e
    split at e
    · exact plain (wakeLoop_inv h) e
    · cases e
  all_goals
    obtain ⟨p, t, r, re, la, rp, me, rq, ra, se⟩ := h
    obtain rfl := Host.Outcome.next.inj e
    exact ⟨p, t, r, re, la, rp, me, rq, ra, se⟩

end Sys2Proof.Machine
end

