-- ==== Sys2Proof/Laws/Transmit.lean ====
section
/-! SUPPORT. What is transmitted, and under which message ID: RCH, TCH, PRL-HR, PRL-RX and the events transmit no
message and leave alone the variant that WaitForPhyResponse has bound (log 17); RCH and TCH leave alone every variant's
counter, record and revision too (R239); a run of PRL-TX transmits with the counter's ID and binds the variant (R148,
R150). -/

namespace Sys2Proof.Machine

/-- `TP.transmit` (R150). -/
def isTransmit : Emit → Bool
  | .tpTransmit _ _ _ => true
  | .peMessageReceived _ => false
  | .peMessageSent => false
  | .peReportDiscard => false
  | .peReportError _ _ => false
  | .peGotSoftReset => false
  | .peGotHardReset => false
  | .peHardResetSent => false
  | .tpTransmitHardReset => false
  | .tpSetRxEnable _ => false
  | .tpSetRp _ => false
  | .tpDequeueMessage => false

/-- The variant bound by the last transmission, and the transmissions of the trace. -/
abbrev sent (s : State) : Sop × List Emit := (s.txSop, s.trace.filter isTransmit)

/-- The counters, records and revisions of every variant: what a Hard Reset resets across the machines (R178, R179). -/
abbrev perSop (s : State) : PerSop (BitVec 3) × PerSop (Option (BitVec 3)) × PerSop (BitVec 2) :=
  (s.txCounter, s.rxRecord, s.rev)

/-- Where PRL-TX stands with a transmission: its state, the confirmation not yet counted, and the one owed. -/
abbrev confirmation (s : State) : PrlTxState × Bool × Option Sop := (s.prlTx.state, s.prlTx.txCompleteOk, s.txOwed)

/-- What RCH and TCH leave alone (R239): the counters, records and revisions, PRL-TX's confirmations, and what has been
sent. -/
abbrev ids (s : State) := ((perSop s, confirmation s), sent s)

theorem sent_append {s t : State} {l : List Emit} (h1 : t.txSop = s.txSop) (h2 : t.trace = s.trace ++ l)
    (h3 : l.filter isTransmit = []) : sent t = sent s := by
  simp only [sent, h1, h2, List.filter_append, h3, List.append_nil]

theorem ids_append {s t : State} {l : List Emit} (h0 : (perSop t, confirmation t) = (perSop s, confirmation s))
    (h1 : t.txSop = s.txSop)
    (h2 : t.trace = s.trace ++ l) (h3 : l.filter isTransmit = []) : ids t = ids s := by
  rw [ids, h0, sent_append h1 h2 h3]

/-- The message ID read back from a header that was built with it (R92, R93). -/
theorem hdrId_makeHdr (e : Bool) (n i : BitVec 3) (p : Bool) (r : BitVec 2) (d : Bool) (t : BitVec 5) :
    hdrId (makeHdr e n i p r d t) = i := by
  apply BitVec.eq_of_getLsbD_eq
  intro k hk
  unfold hdrId makeHdr
  have : k = 0 ∨ k = 1 ∨ k = 2 := by omega
  rcases this with rfl | rfl | rfl <;> rw [BitVec.getLsbD_extractLsb'] <;> simp only [BitVec.getLsbD_append] <;> simp

/-! ### RCH and TCH (R239) -/

theorem gotoRch_ids (t : RchState) (s : State) : ids (gotoRch t s) = ids s := by
  cases t
  case reportError =>
    cases h : s.rch.passInterrupting
    · rw [gotoRch_reportError s h]; exact ids_append rfl rfl rfl rfl
    · rw [gotoRch_reportError_passing s h]
      refine ids_append (l := [.peMessageReceived s.rchOut, .peReportError s.rchErr s.rxSop]) rfl rfl ?_ rfl
      simp [afterRchError]
  case passUpMessage => rw [gotoRch_passUpMessage]; exact ids_append rfl rfl rfl rfl
  all_goals (unfold gotoRch; rw [exitRch_eq]; rfl)
theorem gotoTch_ids (t : TchState) (s : State) : ids (gotoTch t s) = ids s := by
  unfold gotoTch
  rw [exitTch_eq]
  cases t
  case messageSent => exact ids_append rfl rfl rfl rfl
  case reportError => exact ids_append rfl rfl rfl rfl
  case messageReceived => exact ids_append rfl rfl rfl rfl
  all_goals rfl
theorem raiseErr_ids (r : Raiser) (k : ErrKind) (v : Sop) (s : State) : ids (raiseErr r k v s) = ids s := by
  cases r
  · exact gotoRch_ids _ _
  · exact gotoTch_ids _ _
theorem interruptRch_ids (m : Msg) (k : ErrKind) (s : State) : ids (interruptRch m k s) = ids s := by
  unfold interruptRch; split
  · exact raiseErr_ids _ _ _ _
  · exact raiseErr_ids _ _ _ _

theorem runRch_ids {s t : State} (h : runRch s = .next t) : ids t = ids s := by
  have fr : ∀ {u}, finishOrRequest u = .next t → ids t = ids u := by
    intro u h
    unfold finishOrRequest requestChunk at h
    split at h
    · cases h; exact gotoRch_ids _ _
    split at h
    · cases h
    · cases h; exact gotoRch_ids _ _
  unfold runRch at h
  split at h
  · cases h
    unfold runRchWaitForMessage rchTake
    dsimp only
    split
    · split
      · rfl
      · exact gotoRch_ids _ _
      · exact gotoRch_ids _ _
      · exact gotoRch_ids _ _
      · exact gotoRch_ids _ _
      · split
        · exact gotoRch_ids _ _
        · exact raiseErr_ids _ _ _ _
      · split
        · exact raiseErr_ids _ _ _ _
        · exact gotoRch_ids _ _
      · exact raiseErr_ids _ _ _ _
    · rfl
  · split at h
    · cases h; exact gotoRch_ids _ _
    · unfold processChunk at h
      dsimp only at h
      split at h
      · cases h; exact raiseErr_ids _ _ _ _
      split at h
      · split at h
        · cases h; exact raiseErr_ids _ _ _ _
        · have k := fr h; exact k
      · have k := fr h; exact k
  · cases h
    unfold runRequestingChunk
    dsimp only
    split; · exact gotoRch_ids _ _
    split; · exact gotoRch_ids _ _
    split; · exact raiseErr_ids _ _ _ _
    split
    · split
      · exact interruptRch_ids _ _ _
      · exact raiseErr_ids _ _ _ _
    · rfl
  · cases h
    unfold runWaitingChunk
    split; · exact gotoRch_ids _ _
    split
    · split
      · exact gotoRch_ids _ _
      · exact interruptRch_ids _ _ _
    split
    · exact raiseErr_ids _ _ _ _
    · rfl
  · cases h; exact gotoRch_ids _ _
  · cases h; exact gotoRch_ids _ _

theorem runTch_ids {s t : State} (h : runTch s = .next t) : ids t = ids s := by
  have pre : ∀ {u}, preemptTch u = .next t → ids t = ids u := by
    intro u h
    unfold preemptTch at h
    split at h
    · cases h
    · cases h; exact gotoTch_ids _ _
  have dis : tchDiscarded s = .next t → ids t = ids s := by
    intro h
    unfold tchDiscarded at h
    dsimp only at h
    split at h
    · have k := pre h; exact k
    · cases h; exact (gotoTch_ids _ _).trans (ids_append rfl rfl rfl rfl)
  unfold runTch at h
  split at h
  · unfold runWaitForRequestFromPe forwardChecked at h
    dsimp only at h
    split at h
    · split at h <;> cases h; rfl
    split at h
    · cases h
      unfold takeRequest extendedRequest
      dsimp only
      split
      · exact gotoTch_ids _ _
      · exact gotoTch_ids _ _
      · split
        · exact gotoTch_ids _ _
        split
        · exact gotoTch_ids _ _
        · exact raiseErr_ids _ _ _ _
    · cases h; rfl
  · unfold runConstructChunkedMessage at h
    split at h; · cases h; exact gotoTch_ids _ _
    split at h; · have k := pre h; exact k
    cases h; exact gotoTch_ids _ _
  · unfold runWaitForTransmissionComplete at h
    split at h; · cases h; exact gotoTch_ids _ _
    split at h; · cases h; exact raiseErr_ids _ _ _ _
    split at h; · exact dis h
    cases h; rfl
  · unfold runSendingChunkedMessage at h
    split at h
    · cases h
      unfold chunkConfirmed
      dsimp only
      split <;> exact gotoTch_ids _ _
    split at h; · cases h; exact raiseErr_ids _ _ _ _
    split at h; · exact dis h
    cases h; rfl
  · unfold runWaitChunkRequest at h
    dsimp only at h
    split at h; · cases h; exact gotoTch_ids _ _
    split at h
    · split at h
      · split at h
        · cases h; exact gotoTch_ids _ _
        · cases h; exact raiseErr_ids _ _ _ _
      · have k := pre h; exact k
    split at h
    · cases h; exact gotoTch_ids _ _
    · cases h; rfl
  · cases h; exact gotoTch_ids _ _
  · cases h; exact gotoTch_ids _ _
  · cases h; exact gotoTch_ids _ _

/-! ### PRL-RX, PRL-HR and the events -/

theorem accept_sent (m : Msg) (s : State) : sent (accept m s) = sent s := by
  rw [accept_eq, afterAccept, afterDiscard]; split <;> rfl

theorem route_sent (m : Msg) (s : State) : sent (route m s) = sent s := by
  unfold route
  split
  · split <;> rfl
  · exact sent_append rfl rfl rfl

theorem acceptThen_sent (m : Msg) (f : State → State) (hf : ∀ u, sent (f u) = sent u) (s : State) :
    sent (acceptThen m f s) = sent s := by
  unfold acceptThen
  split
  · rfl
  · rw [hf, accept_sent]

theorem softResetReceived_sent (v : Sop) (s : State) : sent (softResetReceived v s) = sent s := by
  unfold softResetReceived
  simp only [gotoPrlTx_phyReset, rearmRch_eq, rearmTch_eq]
  split
  · exact sent_append (l := [.peReportDiscard, .peGotSoftReset]) rfl (by simp [State.emit, resetIds]) rfl
  · exact sent_append rfl rfl rfl

theorem runPrlRx_sent {s t : State} (h : runPrlRx s = .next t) : sent t = sent s := by
  unfold runPrlRx fetchMsg at h
  split at h
  · cases h; rfl
  rename_i m s1 hm
  have hs1 : sent s1 = sent s := by
    split at hm
    · cases hm
    split at hm <;> cases hm
    exact sent_append rfl rfl rfl
  rw [← hs1]
  unfold decodeMsg at h
  split at h
  · cases h; rfl
  · cases h; exact softResetReceived_sent _ _
  · cases h
    exact acceptThen_sent m (fun t => t.emit (.peMessageReceived (.empty m.sop m.hdr)))
      (fun _ => sent_append rfl rfl rfl) s1
  all_goals (cases h; exact acceptThen_sent _ _ (route_sent _) _)

theorem gotoPrlHr_sent (t : PrlHrState) (s : State) : sent (gotoPrlHr t s) = sent s := by
  unfold gotoPrlHr
  rw [exitPrlHr_eq]
  cases t
  case resetLayer => exact sent_append rfl rfl rfl
  case waitForPhyHardResetComplete => exact sent_append rfl rfl rfl
  all_goals rfl

theorem hrFinalExit_sent (s : State) : sent (hrFinalExit s) = sent s := by
  simp only [hrFinalExit, rearmPrlTx_eq, rearmRch_eq, rearmTch_eq]
  exact sent_append rfl rfl rfl

theorem runPrlHr_sent (s : State) : sent (runPrlHr s) = sent s := by
  unfold runPrlHr
  split <;> split
  · exact gotoPrlHr_sent _ _
  · rfl
  · exact (gotoPrlHr_sent _ _).trans (sent_append rfl rfl rfl)
  · exact gotoPrlHr_sent _ _
  · exact (gotoPrlHr_sent _ _).trans (sent_append rfl rfl rfl)
  · rfl
  · exact (gotoPrlHr_sent _ _).trans (hrFinalExit_sent _)
  · rfl

theorem execEvent_txSop {i : Instr} {s t : State} (hi : isEvent i = true) (h : exec i s = .next t) :
    t.txSop = s.txSop := by
  cases i <;> simp only [isEvent, Bool.false_eq_true] at hi <;>
    simp only [exec, execPeSendCtrlMessage, execPeSendDataMessage, execPeSendExtendedMessage, execPeExecuteHardReset,
      execPeHardResetComplete, execPeSetRevision, execPeResetMessageIds, execPeAbort, execTpRx, execTpTxCompleteOk,
      execTpTxCompleteFail, execTpHardResetReceived, execTpHardResetSent, completion, expireTimer, wakeLoop,
      execTimerExpireTxResponse, execTimerExpireSrcCa, execTimerExpireHrComplete, execTimerExpireChunkResponse,
      execTimerExpireChunkRequest, execTimerExpireWakeCeiling, execTcSetPowerRole, execTcSetDataRole, execTcSetFrs,
      execTcSetCcSinkTx, execWake, thenState_ite, thenState_next, thenState_refused] at h
  all_goals (repeat' split at h)
  all_goals first | (cases h; rfl) | cases h

/-! ### PRL-TX -/

/-- A goto of PRL-TX other than the one that transmits. -/
theorem gotoPrlTx_sent (t : PrlTxState) (s : State) (ht : t ≠ .waitForPhyResponse) :
    sent (gotoPrlTx t s) = sent s := by
  cases t
  case waitForPhyResponse => exact absurd rfl ht
  case waitForMessageRequest =>
    rw [gotoPrlTx_waitForMessageRequest]
    refine sent_append rfl rfl ?_
    split <;> rfl
  case srcCollisionAvoidance => rw [gotoPrlTx_srcCollisionAvoidance]; exact sent_append rfl rfl rfl
  case phyReset => rw [gotoPrlTx_phyReset]
  case layerResetForTransmit => rw [gotoPrlTx_layerResetForTransmit]
  case snkCollisionAvoidance => rw [gotoPrlTx_snkCollisionAvoidance]
  case discardMessage => rw [gotoPrlTx_discardMessage]

theorem notify_sent (x : TxOutcome) (s : State) : sent (notify x s) = sent s := by rw [notify_eq]

/-- A run of PRL-TX sends nothing, or, from a state other than WaitForPhyResponse, sends one message. -/
theorem runPrlTx_sent (s : State) :
    sent (runPrlTx s) = sent s ∨
    (s.prlTx.state ≠ .waitForPhyResponse ∧ runPrlTx s = afterTransmit { s with timers := prlTxTimersOff s }) := by
  unfold runPrlTx
  split
  · exact .inl (gotoPrlTx_sent _ _ (by decide))
  · rename_i hs
    unfold runWaitForMessageRequest
    split
    · split
      · exact .inl (gotoPrlTx_sent _ _ (by decide))
      split
      · split <;> exact .inl (gotoPrlTx_sent _ _ (by decide))
      · exact .inr ⟨by rw [hs]; decide, gotoPrlTx_waitForPhyResponse s⟩
    · exact .inl rfl
  · rename_i hs; exact .inr ⟨by rw [hs]; decide, gotoPrlTx_waitForPhyResponse s⟩
  · rename_i hs
    split
    · exact .inr ⟨by rw [hs]; decide, gotoPrlTx_waitForPhyResponse s⟩
    · exact .inl rfl
  · rename_i hs
    split
    · exact .inr ⟨by rw [hs]; decide, gotoPrlTx_waitForPhyResponse s⟩
    · exact .inl rfl
  · refine .inl ?_
    unfold runWaitForPhyResponse
    split
    · rw [gotoPrlTx_sent _ _ (by decide), notify_sent]; rfl
    split
    · rw [gotoPrlTx_sent _ _ (by decide), notify_sent]
    split
    · rw [gotoPrlTx_sent _ _ (by decide), notify_sent]
    · rfl
  · exact .inl (gotoPrlTx_sent _ _ (by decide))

end Sys2Proof.Machine
end

