-- ==== Sys2Proof/Tests/Slice0.lean ====
section
/-! SUPPORT. Tests on fixed values, taken from 95_test_vectors and from the tables of 30_encoding, and for each statement
of Obligations.lean that has hypotheses a state and operands that meet them. -/

namespace Sys2Proof.Tests

open Sys2Proof.Machine

/-! ### Reading outcomes -/

/-- Does the outcome go on, to a state with this property. -/
def goesTo (r : Result) (p : State → Bool) : Bool :=
  match r with
  | .next t => p t
  | .fault _ => false
  | .refused _ => false

/-- Is the outcome this refusal. -/
def refuses (r : Result) (e : Refusal) : Bool :=
  match r with
  | .next _ => false
  | .fault _ => false
  | .refused x => decide (x = e)

/-- Does the decoder give this instruction, with nothing left over. -/
def reads (p : Params) (c : Code) (i : Instr) : Bool :=
  match decode p c with
  | .ok (j, rest) => decide (j = i) && rest.isEmpty
  | .error _ => false

/-- Does the decoder reject with this error. -/
def rejects (p : Params) (c : Code) (e : DecodeError) : Bool :=
  match decode p c with
  | .ok _ => false
  | .error x => decide (x = e)

/-! ### States -/

/-- S0 of 95_test_vectors section 0: after reset and one tick. -/
def s0 : State := { State.reset with prlTx := ⟨.waitForMessageRequest, false, false, false⟩ }

/-- S0 with REV20 on SOP. -/
def s20 : State := { s0 with rev := s0.rev.set .plain rev20 }

/-- A tick at PRL-RX's sub-step with one message in the queue. -/
def received (m : Msg) (s : State) : State :=
  { s with loop := .tick .prlRx, rxq := [m], timers := { s.timers with wakeCeiling := Timer.off } }

/-- A tick at a later sub-step. -/
def inTick (p : SubStep) (s : State) : State :=
  { s with loop := .tick p, timers := { s.timers with wakeCeiling := Timer.off } }

/-- The event falls now. -/
def due (bytes : List Byte) (s : State) : State := { s with inputs := [⟨0, bytes⟩] }

/-- A control message sent and in flight (V-TX-1, V-TX-3 after the first tick). -/
def sending : State :=
  { s20 with
    tch := { s20.tch with state := .waitForTransmissionComplete }
    txSlot := ⟨.plain, 3, 0, false, []⟩
    prlTx := ⟨.waitForPhyResponse, false, false, false⟩
    timers := { s20.timers with txResponse := Timer.on }
    txOutstanding := 1 }

/-- TCH waits for the request for chunk 1 of a message of 30 bytes (V-TCH-1 after step 4). -/
def awaitingRequest : State :=
  { s0 with
    tch := { s0.tch with state := .waitChunkRequest }
    sendType := 0x11
    sendLen := 30
    sendOffset := 26
    nextChunkToSend := 1
    sendChunkLen := 26
    txCounter := s0.txCounter.set .plain 1
    timers := { s0.timers with chunkRequest := Timer.on } }

/-- The words of `C0` and `C1` (V-ENC-14, V-ENC-15). -/
def c0Words : List Word := [0x1110041E, 0x15141312, 0x19181716, 0x1D1C1B1A, 0x21201F1E, 0x25242322, 0x29282726]
def c1Words : List Word := [0x2B2A141E, 0x00002D2C]
def c0 : Msg := ⟨.plain, 0xF1B1, c0Words⟩
def c1 : Msg := ⟨.plain, 0xA3B1, c1Words⟩

/-- The first 26 bytes of `B30`. -/
def b26 : List Byte :=
  [0x10, 0x11, 0x12, 0x13, 0x14, 0x15, 0x16, 0x17, 0x18, 0x19, 0x1A, 0x1B, 0x1C, 0x1D, 0x1E, 0x1F, 0x20, 0x21, 0x22,
    0x23, 0x24, 0x25, 0x26, 0x27, 0x28, 0x29]

/-- RCH waits for chunk 1 of a message of 30 bytes (V-RCH-1 after step 3). -/
def awaitingChunk : State :=
  { s0 with
    rch := { s0.rch with state := .waitingChunk }
    rxBuf := Memory.bufWrite [] 0 b26
    bytesReceived := 26
    nextExpectedChunk := 1
    rxTotal := 30
    rxHdr := 0xF1B1
    rxRecord := s0.rxRecord.set .plain (some 0)
    timers := { s0.timers with chunkResponse := Timer.on } }

/-- A confirmed transmission that PRL-TX has not stepped, with a new request set over it. -/
def overtaken : State := { sending with prlTx := ⟨.waitForPhyResponse, true, true, false⟩ }

/-- PRL-RX has forced PRL-TX off that transmission. -/
def owing : State := { s20 with prlTx := ⟨.discardMessage, false, false, false⟩, txOwed := some .plain }

/-- A Hard Reset waits for the PE (V-HR-1 after step 4). -/
def awaitingPe : State :=
  { s0 with prlHr := { s0.prlHr with state := .waitForPeHardResetComplete, peHardReset := true }, rxEnabled := false }

/-- PRL-HR has just entered ResetLayer (V-HR-1 after step 1). -/
def resetting : State :=
  { s0 with prlHr := { s0.prlHr with state := .resetLayer, peHardReset := true }, rxEnabled := false }

/-- The default parameters with the other layout. -/
def pd30 : Params := { Params.default with extHdrLayout := .pd30 }

/-! ### WellFormed: an ill-formed term for each check -/

theorem test_wf_words_too_few : ¬Instr.WellFormed Params.default (.data ⟨.plain, 0x15A1, []⟩) := by decide
theorem test_wf_words_too_many : ¬Instr.WellFormed Params.default (.control ⟨.plain, 0x0083, [1]⟩) := by decide
theorem test_wf_malformedExt : ¬Instr.WellFormed Params.default (.malformedExt ⟨.plain, 0x0083, []⟩) := by decide
theorem test_wf_softReset : ¬Instr.WellFormed Params.default (.softReset ⟨.plain, 0x0083, []⟩) := by decide
theorem test_wf_ping : ¬Instr.WellFormed Params.default (.ping ⟨.plain, 0x07AD, []⟩) := by decide
theorem test_wf_control : ¬Instr.WellFormed Params.default (.control ⟨.plain, 0x0285, []⟩) := by decide
theorem test_wf_data : ¬Instr.WellFormed Params.default (.data ⟨.plain, 0x9091, [0x1C00]⟩) := by decide
theorem test_wf_extChunkRequest : ¬Instr.WellFormed Params.default (.extChunkRequest c0) := by decide
theorem test_wf_extChunk : ¬Instr.WellFormed Params.default (.extChunk ⟨.plain, 0x9091, [0x1C00]⟩) := by decide
theorem test_wf_extUnchunked : ¬Instr.WellFormed Params.default (.extUnchunked c0) := by decide
theorem test_wf_layout_pd30 : ¬Instr.WellFormed Params.default (.extChunkPd30 c0) := by decide
theorem test_wf_layout_doc : ¬Instr.WellFormed pd30 (.extChunkRequest ⟨.plain, 0x9091, [0x8C00]⟩) := by decide
theorem test_wf_data_zero : ¬Instr.WellFormed Params.default (.peSendDataMessage .plain 1 0 []) := by decide
theorem test_wf_data_eight :
    ¬Instr.WellFormed Params.default (.peSendDataMessage .plain 1 8 [0, 0, 0, 0, 0, 0, 0, 0]) := by decide
theorem test_wf_data_length : ¬Instr.WellFormed Params.default (.peSendDataMessage .plain 1 2 [0]) := by decide
theorem test_wf_ext_len :
    ¬Instr.WellFormed Params.default (.peSendExtendedMessage .plain 1 261 (List.replicate 261 0)) := by decide
theorem test_wf_ext_bytes : ¬Instr.WellFormed Params.default (.peSendExtendedMessage .plain 1 2 [0]) := by decide
theorem test_wf_revision : ¬Instr.WellFormed Params.default (.peSetRevision .plain 3) := by decide
theorem test_wf_tpRx : ¬Instr.WellFormed Params.default (.tpRx ⟨.plain, 0x1041, []⟩) := by decide

/-! ### Decoding: each constructor's word, written out from R91, R95, R71 and R104 -/

theorem test_decode_malformedExt :
    reads Params.default (.message .plain [0x00, 0x80]) (.malformedExt ⟨.plain, 0x8000, []⟩) := by decide
/-- V-ENC-2. -/
theorem test_decode_softReset :
    reads Params.default (.message .plain [0xAD, 0x07]) (.softReset ⟨.plain, 0x07AD, []⟩) := by decide
/-- V-ENC-3. -/
theorem test_decode_ping : reads Params.default (.message .plain [0x85, 0x02]) (.ping ⟨.plain, 0x0285, []⟩) := by decide
/-- V-ENC-20. -/
theorem test_decode_control :
    reads Params.default (.message .plain [0x83, 0x00]) (.control ⟨.plain, 0x0083, []⟩) := by decide
/-- V-ENC-1, V-ENC-21. -/
theorem test_decode_data :
    reads Params.default (.message .plain [0xA1, 0x15, 0x78, 0x56, 0x34, 0x12])
      (.data ⟨.plain, 0x15A1, [0x12345678]⟩) := by decide
/-- V-ENC-22, V-ENC-23. -/
theorem test_decode_extChunkRequest :
    reads Params.default (.message .plain [0x91, 0x90, 0x00, 0x1C, 0x00, 0x00])
      (.extChunkRequest ⟨.plain, 0x9091, [0x1C00]⟩) := by decide
/-- V-ENC-15. -/
theorem test_decode_extChunk :
    reads Params.default (.message .plain [0xB1, 0xA3, 0x1E, 0x14, 0x2A, 0x2B, 0x2C, 0x2D, 0x00, 0x00])
      (.extChunk c1) := by decide
/-- V-ENC-22. -/
theorem test_decode_extUnchunked :
    reads Params.default (.message .prime [0xB1, 0xA1, 0x04, 0x00, 0x10, 0x11, 0x12, 0x13, 0x00, 0x00])
      (.extUnchunked ⟨.prime, 0xA1B1, [0x11100004, 0x1312]⟩) := by decide
/-- V-ENC-8. -/
theorem test_decode_extChunkRequestPd30 :
    reads pd30 (.message .plain [0x91, 0x90, 0x00, 0x8C, 0x00, 0x00])
      (.extChunkRequestPd30 ⟨.plain, 0x9091, [0x8C00]⟩) := by decide
/-- V-ENC-7. -/
theorem test_decode_extChunkPd30 :
    reads pd30 (.message .plain [0xB1, 0xA3, 0x1E, 0x88, 0x2A, 0x2B, 0x2C, 0x2D, 0x00, 0x00])
      (.extChunkPd30 ⟨.plain, 0xA3B1, [0x2B2A881E, 0x2D2C]⟩) := by decide
theorem test_decode_extUnchunkedPd30 :
    reads pd30 (.message .plain [0xB1, 0xA1, 0x04, 0x00, 0x10, 0x11, 0x12, 0x13, 0x00, 0x00])
      (.extUnchunkedPd30 ⟨.plain, 0xA1B1, [0x11100004, 0x1312]⟩) := by decide

theorem test_decode_peSendCtrlMessage :
    reads Params.default (.event [0x01, 0x00, 0x03]) (.peSendCtrlMessage .plain 3) := by decide
theorem test_decode_peSendDataMessage :
    reads Params.default (.event [0x02, 0x01, 0x02, 0x00, 0x2C, 0xB1, 0x04, 0x13])
      (.peSendDataMessage .prime 2 1 [0x1304B12C]) := by decide
theorem test_decode_peSendExtendedMessage :
    reads Params.default (.event [0x03, 0x00, 0x11, 0x03, 0x00, 0xAA, 0xBB, 0xCC])
      (.peSendExtendedMessage .plain 0x11 3 [0xAA, 0xBB, 0xCC]) := by decide
theorem test_decode_peExecuteHardReset : reads Params.default (.event [0x04]) .peExecuteHardReset := by decide
theorem test_decode_peHardResetComplete : reads Params.default (.event [0x05]) .peHardResetComplete := by decide
theorem test_decode_peSetRevision :
    reads Params.default (.event [0x06, 0x05, 0x01]) (.peSetRevision .doublePrimeDebug 1) := by decide
theorem test_decode_peResetMessageIds :
    reads Params.default (.event [0x07, 0x03]) (.peResetMessageIds .debug) := by decide
theorem test_decode_peAbort : reads Params.default (.event [0x08]) .peAbort := by decide
theorem test_decode_tpRx :
    reads Params.default (.event [0x10, 0x00, 0x41, 0x10, 0x01, 0x78, 0x56, 0x34, 0x12])
      (.tpRx ⟨.plain, 0x1041, [0x12345678]⟩) := by decide
theorem test_decode_tpTxCompleteOk : reads Params.default (.event [0x11]) .tpTxCompleteOk := by decide
theorem test_decode_tpTxCompleteFail : reads Params.default (.event [0x12]) .tpTxCompleteFail := by decide
theorem test_decode_tpHardResetReceived : reads Params.default (.event [0x13]) .tpHardResetReceived := by decide
theorem test_decode_tpHardResetSent : reads Params.default (.event [0x14]) .tpHardResetSent := by decide
theorem test_decode_timerExpireTxResponse : reads Params.default (.event [0x20]) .timerExpireTxResponse := by decide
theorem test_decode_timerExpireSrcCa : reads Params.default (.event [0x21]) .timerExpireSrcCa := by decide
theorem test_decode_timerExpireHrComplete : reads Params.default (.event [0x22]) .timerExpireHrComplete := by decide
theorem test_decode_timerExpireChunkResponse :
    reads Params.default (.event [0x23]) .timerExpireChunkResponse := by decide
theorem test_decode_timerExpireChunkRequest : reads Params.default (.event [0x24]) .timerExpireChunkRequest := by decide
theorem test_decode_timerExpireWakeCeiling : reads Params.default (.event [0x25]) .timerExpireWakeCeiling := by decide
theorem test_decode_tcSetPowerRole : reads Params.default (.event [0x30, 0x01]) (.tcSetPowerRole .source) := by decide
theorem test_decode_tcSetDataRole : reads Params.default (.event [0x31, 0x01]) (.tcSetDataRole .dfp) := by decide
theorem test_decode_tcSetFrs : reads Params.default (.event [0x32, 0x01]) (.tcSetFrs true) := by decide
theorem test_decode_tcSetCcSinkTx : reads Params.default (.event [0x33, 0x01]) (.tcSetCcSinkTx .ng) := by decide
theorem test_decode_wake : reads Params.default (.event [0x40]) .wake := by decide

/-- V-REF-14. -/
theorem test_reject_codes :
    rejects Params.default (.event [0x09]) (.invalidEventCode 0x09) ∧
    rejects Params.default (.event [0x15]) (.invalidEventCode 0x15) ∧
    rejects Params.default (.event [0x26]) (.invalidEventCode 0x26) ∧
    rejects Params.default (.event [0x34]) (.invalidEventCode 0x34) ∧
    rejects Params.default (.event [0x41]) (.invalidEventCode 0x41) := by decide
theorem test_reject_operands :
    rejects Params.default (.event []) .noBytes ∧
    rejects Params.default (.event [0x07]) .truncatedOperands ∧
    rejects Params.default (.event [0x07, 0x06]) (.sopOutOfRange 6) ∧
    rejects Params.default (.event [0x01, 0x00, 0x20]) (.typeOutOfRange 0x20) ∧
    rejects Params.default (.event [0x06, 0x00, 0x04]) (.revisionOutOfRange 4) ∧
    rejects Params.default (.event [0x30, 0x02]) (.choiceOutOfRange 2) := by decide

/-- Rows of the opcode table under the host's numbering: a class word (V-ENC-23) and an event code. -/
theorem test_table_words :
    decodeTableWord 32 0x1C009091 = some (.extChunkRequest ⟨.plain, 0x9091, [0x1C00]⟩) ∧
    decodeTableWord 16 0x07AD = some (.softReset ⟨.plain, 0x07AD, []⟩) ∧
    decodeTableWord 8 0x40 = some .wake ∧ decodeTableWord 8 0x41 = none := by decide

/-- `withFetchWord` puts an event, and a class word, where the next step runs it. -/
theorem test_fetch_wake : goesTo (step (State.reset.withFetchWord 8 0x40)) (fun t => t.loop == .tick .start) := by decide
theorem test_fetch_softReset :
    goesTo (step (State.reset.withFetchWord 16 0x07AD))
      (fun t => t.trace == [.tpDequeueMessage, .peGotSoftReset]) := by decide

/-! ### Encodings -/

/-- V-ENC-4. -/
theorem test_header_fields :
    hdrExt 0xF1B1 = true ∧ hdrNdo 0xF1B1 = 7 ∧ hdrId 0xF1B1 = 0 ∧ hdrPr 0xF1B1 = true ∧ hdrRev 0xF1B1 = 2 ∧
    hdrDr 0xF1B1 = true ∧ hdrType 0xF1B1 = 0x11 := by decide
/-- V-ENC-10, V-ENC-11. -/
theorem test_xh_encode :
    xhEncode .doc 260 true false 0 = 0x0504 ∧ xhEncode .pd30 260 true false 0 = 0x8104 ∧
    xhEncode .doc 511 true true 15 = 0xFDFF ∧ xhEncode .pd30 511 true true 15 = 0xFDFF := by decide
/-- V-ENC-12, V-ENC-13. -/
theorem test_xh_decode :
    xhDecode .doc 0x881E = ⟨30, false, true, 8⟩ ∧ xhDecode .pd30 0x141E = ⟨30, false, true, 2⟩ := by decide
/-- V-ENC-15, V-ENC-16, V-ENC-17. -/
theorem test_pack :
    packExt (xhEncode .doc 30 true false 1) [0x2A, 0x2B, 0x2C, 0x2D] = c1Words ∧
    packExt (xhEncode .doc 0 true false 0) [] = [0x400] ∧
    packExt (xhEncode .doc 3 false false 0) [0xAA, 0xBB, 0xCC] = [0xBBAA0003, 0xCC] := by decide
/-- V-ENC-18. -/
theorem test_chunk_counts :
    [0, 26, 27, 52, 260, 416].map chunkCount = [1, 1, 2, 2, 10, 16] := by decide

/-! ### PRL-RX -/

/-- V-RX-1: dropped, nothing recorded. -/
theorem test_malformedExt :
    goesTo (step (received ⟨.plain, 0x8000, []⟩ sending)) (fun t =>
      t.trace == [.tpDequeueMessage] && t.rxRecord.get .plain == none &&
      t.prlTx == ⟨.waitForPhyResponse, false, false, false⟩) := by decide
/-- V-RX-3 step 3. -/
theorem test_softReset_discards :
    goesTo (step (received ⟨.plain, 0x07AD, []⟩ { sending with txCounter := s0.txCounter.set .plain 4 })) (fun t =>
      t.trace == [.tpDequeueMessage, .peReportDiscard, .peGotSoftReset] && t.txCounter.get .plain == 0 &&
      t.timers.txResponse == Timer.off && t.txOutstanding == 1 && t.rev.get .plain == rev20) := by decide
/-- V-RX-5: the other variant keeps its counter. -/
theorem test_softReset_other_variant :
    goesTo (step (received ⟨.prime, 0x07AD, []⟩
      { s0 with txCounter := (s0.txCounter.set .plain 3).set .prime 6, rxRecord := s0.rxRecord.set .prime (some 1) }))
      (fun t => t.txCounter.get .plain == 3 && t.txCounter.get .prime == 0 && t.rxRecord.get .prime == none) := by decide
/-- V-RX-6. -/
theorem test_ping :
    goesTo (step (received ⟨.plain, 0x0285, []⟩ s0)) (fun t =>
      t.trace == [.tpDequeueMessage, .peMessageReceived (.empty .plain 0x0285)] &&
      t.rxRecord.get .plain == some 1) := by decide
/-- V-RX-7: no preemption of TCH. -/
theorem test_ping_in_send :
    goesTo (step (received ⟨.plain, 0x0085, []⟩ awaitingRequest)) (fun t =>
      t.trace == [.tpDequeueMessage, .peMessageReceived (.empty .plain 0x0085)] &&
      t.tch == awaitingRequest.tch) := by decide
/-- V-RX-11 step 2, PRL-RX's part. -/
theorem test_data_discards :
    goesTo (step (received ⟨.plain, 0x1041, [0x12345678]⟩ sending)) (fun t =>
      t.trace == [.tpDequeueMessage, .peMessageReceived (.whole ⟨.plain, 0x1041, [0x12345678]⟩)] &&
      t.prlTx.state == .discardMessage && t.tch.txDiscarded) := by decide
/-- V-RX-2 step 2: a duplicate. -/
theorem test_data_duplicate :
    goesTo (step (received ⟨.plain, 0x15A1, [1]⟩ { s20 with rxRecord := s20.rxRecord.set .plain (some 2) }))
      (fun t => t.trace == [.tpDequeueMessage]) := by decide
/-- V-TCH-11: at REV30 a message goes to TCH while it is sending. -/
theorem test_control_to_tch :
    goesTo (step (received ⟨.plain, 0x0283, []⟩ awaitingRequest)) (fun t =>
      t.tch.msgReceived && t.tchMsg == ⟨.plain, 0x0283, []⟩ && t.rch.msgReceived == false) := by decide
/-- V-RX-8: at REV30 a message goes to RCH while TCH is idle. -/
theorem test_control_to_rch :
    goesTo (step (received ⟨.plain, 0x0083, []⟩ s0)) (fun t =>
      t.rch.msgReceived && t.rchMsg == ⟨.plain, 0x0083, []⟩ && t.trace == [.tpDequeueMessage]) := by decide
/-- V-TCH-1 step 5. -/
theorem test_extChunkRequest :
    goesTo (step (received ⟨.plain, 0x9091, [0x1C00]⟩ awaitingRequest)) (fun t =>
      t.tch.msgReceived && t.tchMsg == ⟨.plain, 0x9091, [0x1C00]⟩) := by decide
/-- V-RCH-1 step 4. -/
theorem test_extChunk :
    goesTo (step (received c1 awaitingChunk)) (fun t =>
      t.rch.msgReceived && t.rchMsg == c1 && t.rxRecord.get .plain == some 1) := by decide
/-- V-RCH-5. -/
theorem test_extUnchunked :
    goesTo (step (received ⟨.plain, 0xA1B1, [0x11100004, 0x1312]⟩ s0)) (fun t =>
      t.rch.msgReceived && t.rchMsg == ⟨.plain, 0xA1B1, [0x11100004, 0x1312]⟩) := by decide
/-- The same under PD30, where the class words differ. -/
theorem test_extChunkRequestPd30 :
    goesTo (step (received ⟨.plain, 0x9091, [0x8C00]⟩ { s0 with params := pd30 }))
      (fun t => t.rchMsg == ⟨.plain, 0x9091, [0x8C00]⟩) := by decide
theorem test_extChunkPd30 :
    goesTo (step (received ⟨.plain, 0xA3B1, [0x2B2A881E, 0x2D2C]⟩ { awaitingChunk with params := pd30 }))
      (fun t => t.rchMsg == ⟨.plain, 0xA3B1, [0x2B2A881E, 0x2D2C]⟩) := by decide
theorem test_extUnchunkedPd30 :
    goesTo (step (received ⟨.plain, 0xA1B1, [0x11100004, 0x1312]⟩ { s0 with params := pd30 }))
      (fun t => t.rchMsg == ⟨.plain, 0xA1B1, [0x11100004, 0x1312]⟩) := by decide
/-- V-RX-10: a full latch holds the queue. -/
theorem test_back_pressure :
    goesTo (step (received c1 { s0 with rch := { s0.rch with msgReceived := true } })) (fun t =>
      t.rxq == [c1] && t.trace == []) := by decide

/-! ### Events -/

theorem test_peSendCtrlMessage :
    goesTo (step (due [0x01, 0x00, 0x03] s0)) (fun t =>
      t.tch.msgRequest && t.peReq == ⟨.ctrl, .plain, 3, 0, [], [], 0⟩) := by decide
/-- V-REF-1. -/
theorem test_peSendCtrlMessage_refused : refuses (step (due [0x01, 0x00, 0x03] sending)) .peSendNotEnabled := by decide
theorem test_peSendDataMessage :
    goesTo (exec (.peSendDataMessage .plain 1 1 [0x2C91912C]) s0) (fun t =>
      t.tch.msgRequest && t.peReq == ⟨.data, .plain, 1, 1, [0x2C91912C], [], 0⟩) := by decide
/-- V-REF-3, V-REF-4. -/
theorem test_peSendDataMessage_refused :
    refuses (exec (.peSendDataMessage .plain 1 0 []) s0) .dataObjectCount ∧
    refuses (exec (.peSendDataMessage .plain 1 8 [0, 0, 0, 0, 0, 0, 0, 0]) s0) .dataObjectCount := by decide
theorem test_peSendExtendedMessage :
    goesTo (exec (.peSendExtendedMessage .plain 0x11 260 (List.replicate 260 7)) s0) (fun t =>
      t.tch.msgRequest && t.peReq.len == 260) := by decide +kernel
/-- V-REF-5. -/
theorem test_peSendExtendedMessage_refused :
    refuses (exec (.peSendExtendedMessage .plain 0x11 261 (List.replicate 261 7)) s0) .extendedLength := by decide
theorem test_peExecuteHardReset : goesTo (step (due [0x04] s0)) (fun t => t.prlHr.peHardReset) := by decide
theorem test_peHardResetComplete : goesTo (step (due [0x05] awaitingPe)) (fun t => t.prlHr.peHardResetDone) := by decide
/-- V-REF-6. -/
theorem test_peHardResetComplete_refused : refuses (step (due [0x05] s0)) .hardResetNotAwaitingPe := by decide
theorem test_peSetRevision :
    goesTo (step (due [0x06, 0x01, 0x01] s0)) (fun t =>
      t.rev.get .prime == rev20 && t.rev.get .plain == rev30) := by decide
/-- V-REF-7, V-REF-8. -/
theorem test_peSetRevision_refused :
    refuses (step (due [0x06, 0x00, 0x03] s0)) .reservedRevision ∧
    refuses (step (due [0x06, 0x00, 0x01] resetting)) .hardResetInProgress := by decide
theorem test_peResetMessageIds :
    goesTo (step (due [0x07, 0x00] { awaitingChunk with txCounter := s0.txCounter.set .plain 5 })) (fun t =>
      t.txCounter.get .plain == 0 && t.rxRecord.get .plain == none) := by decide
theorem test_peAbort : goesTo (step (due [0x08] s0)) (fun t => t.rch.abort && t.tch.abort) := by decide
theorem test_tpRx :
    goesTo (step (due [0x10, 0x00, 0x41, 0x10, 0x01, 0x05, 0x00, 0x00, 0x00] s0)) (fun t =>
      t.rxq == [⟨.plain, 0x1041, [5]⟩]) := by decide
/-- V-REF-10, V-REF-11. -/
theorem test_tpRx_refused :
    refuses (step (due [0x10, 0x00, 0x43, 0x00, 0x00] resetting)) .receiveDisabled ∧
    refuses (step (due [0x10, 0x00, 0x41, 0x10, 0x00] s0)) .payloadLength := by decide
theorem test_tpTxCompleteOk :
    goesTo (step (due [0x11] sending)) (fun t => t.prlTx.txCompleteOk && t.txOutstanding == 0) := by decide
/-- V-REF-9. -/
theorem test_completions_refused :
    refuses (step (due [0x11] s0)) .noTransmissionOutstanding ∧
    refuses (step (due [0x12] s0)) .noTransmissionOutstanding ∧
    refuses (step (due [0x14] s0)) .noTransmissionOutstanding := by decide
theorem test_tpTxCompleteFail :
    goesTo (step (due [0x12] sending)) (fun t => t.prlTx.txCompleteFail && t.txOutstanding == 0) := by decide
theorem test_tpHardResetReceived : goesTo (step (due [0x13] s0)) (fun t => t.prlHr.portPartnerHardReset) := by decide
theorem test_tpHardResetSent :
    goesTo (step (due [0x14] sending)) (fun t => t.prlHr.phyHardResetDone && t.txOutstanding == 0) := by decide
theorem test_timerExpireTxResponse :
    goesTo (step (due [0x20] sending)) (fun t => t.timers.txResponse == ⟨true, true⟩) := by decide
theorem test_timerExpireSrcCa :
    goesTo (step (due [0x21] { s0 with timers := { s0.timers with srcCa := Timer.on } })) (fun t =>
      t.timers.srcCa == ⟨true, true⟩) := by decide
theorem test_timerExpireHrComplete :
    goesTo (step (due [0x22] { s0 with timers := { s0.timers with hrComplete := Timer.on } })) (fun t =>
      t.timers.hrComplete == ⟨true, true⟩) := by decide
theorem test_timerExpireChunkResponse :
    goesTo (step (due [0x23] awaitingChunk)) (fun t => t.timers.chunkResponse == ⟨true, true⟩) := by decide
/-- V-REF-12. -/
theorem test_timerExpireChunkResponse_refused : refuses (step (due [0x23] s0)) .timerNotArmed := by decide
theorem test_timerExpireChunkRequest :
    goesTo (step (due [0x24] awaitingRequest)) (fun t => t.timers.chunkRequest == ⟨true, true⟩) := by decide
/-- V-LOOP-2. -/
theorem test_timerExpireWakeCeiling :
    goesTo (step (due [0x25] s0)) (fun t =>
      t.timers.wakeCeiling == ⟨true, true⟩ && t.loop == .tick .start) := by decide
/-- V-REF-13. -/
theorem test_timerExpireWakeCeiling_refused :
    refuses (step (due [0x25] { s0 with timers := { s0.timers with wakeCeiling := ⟨true, true⟩ } }))
      .timerAlreadyExpired := by decide
theorem test_tcSetPowerRole : goesTo (step (due [0x30, 0x01] s0)) (fun t => t.powerRole == .source) := by decide
theorem test_tcSetDataRole : goesTo (step (due [0x31, 0x01] s0)) (fun t => t.dataRole == .dfp) := by decide
theorem test_tcSetFrs : goesTo (step (due [0x32, 0x01] s0)) (fun t => t.frsActive) := by decide
theorem test_tcSetCcSinkTx : goesTo (step (due [0x33, 0x01] s0)) (fun t => t.ccSinkTx == .ng) := by decide
theorem test_wake : goesTo (step (due [0x40] s0)) (fun t => t.loop == .tick .start) := by decide
/-- V-REF-15. -/
theorem test_wake_refused : refuses (step (due [0x40] (inTick .rch1 s0))) .loopNotWaiting := by decide

/-! ### The machines -/

/-- V-TX-1, its second tick: confirmed. -/
theorem test_prlTx_confirmed :
    goesTo (step (inTick .prlTx { sending with prlTx := ⟨.waitForPhyResponse, false, true, false⟩ })) (fun t =>
      t.txCounter.get .plain == 1 && t.tch.txDone && t.prlTx.state == .waitForMessageRequest &&
      t.timers.txResponse == Timer.off) := by decide
/-- The slot overwritten after the transmission: the variant that was transmitted is counted (R150, R158, log 17). -/
theorem test_prlTx_counts_bound_variant :
    goesTo (step (inTick .prlTx
      { sending with
        txSlot := ⟨.prime, 3, 0, false, []⟩
        prlTx := ⟨.waitForPhyResponse, true, true, false⟩ })) (fun t =>
      t.txCounter.get .plain == 1 && t.txCounter.get .prime == 0 && t.prlTx.txRequest) := by decide
/-- V-TX-5, its first tick: collision avoidance as Source. -/
theorem test_prlTx_source_ca :
    goesTo (step (inTick .prlTx
      { s0 with powerRole := .source, prlTx := ⟨.waitForMessageRequest, true, false, false⟩ })) (fun t =>
      t.trace == [.tpSetRp .ng] && t.prlTx.state == .srcCollisionAvoidance && t.timers.srcCa == Timer.on) := by decide
/-- V-RX-12: a confirmed transmission is not discarded, and is reported sent. -/
theorem test_confirmed_not_discarded :
    goesTo (tick { sending with prlTx := ⟨.waitForPhyResponse, false, true, false⟩, rxq := [⟨.plain, 0x1041, [0x12345678]⟩] })
      (fun t => t.txCounter.get .plain == 1 && t.trace == [.tpDequeueMessage,
        .peMessageReceived (.whole ⟨.plain, 0x1041, [0x12345678]⟩), .peMessageSent]) := by decide

/-- R339, R123 (b): nor by a Soft Reset on SOP', which resets the IDs of SOP' alone. -/
theorem test_confirmed_across_soft_reset :
    goesTo (tick { overtaken with txCounter := ⟨3, 6, 0, 0, 0, 0⟩, rxq := [⟨.prime, 0x07AD, []⟩] })
      (fun t => t.txCounter.get .plain == 4 && t.txCounter.get .prime == 0) := by decide

/-- V-TX-9: a Soft Reset leaves with message ID 0. -/
theorem test_prlTx_soft_reset_id :
    goesTo (step (inTick .prlTx
      { s20 with txSlot := ⟨.plain, 0x0D, 0, false, []⟩, prlTx := ⟨.layerResetForTransmit, true, false, false⟩ }))
      (fun t => t.trace == [.tpTransmit .plain 0x004D []]) := by decide
/-- V-RCH-1 step 2: the chunk request RCH sends. -/
theorem test_rch_request_transmitted :
    goesTo (step (inTick .prlTx
      { s0 with
        txSlot := chunkRequestSlot awaitingChunk
        txClient := .rch
        prlTx := ⟨.waitForMessageRequest, true, false, false⟩ }))
      (fun t => t.trace == [.tpTransmit .plain 0x9091 [0x1C00]]) := by decide
/-- V-RCH-1 step 1: chunk 0 stored and the next chunk requested. -/
theorem test_rch_stores_chunk :
    goesTo (step (inTick .rch2
      { s0 with rch := { s0.rch with state := .processingExtendedMessage }, rxHdr := 0xF1B1, rchCur := c0 })) (fun t =>
      t.bytesReceived == 26 && t.nextExpectedChunk == 1 && t.rch.state == .requestingChunk && t.prlTx.txRequest &&
      t.rxBuf.bufRead 0 26 == b26) := by decide
/-- V-RCH-2: the wrong number. -/
theorem test_rch_wrong_number :
    goesTo (step (inTick .rch2
      { s0 with
        rch := { s0.rch with state := .processingExtendedMessage }
        rchCur := ⟨.plain, 0xA1B1, packExt (xhEncode .doc 30 true false 2) [0x10, 0x11, 0x12, 0x13]⟩ })) (fun t =>
      t.trace == [.peReportError .chunkSequence .plain] && t.rch.state == .reportError) := by decide
/-- V-RCH-3: the timeout. -/
theorem test_rch_timeout :
    goesTo (step (inTick .rch1
      { awaitingChunk with timers := { awaitingChunk.timers with chunkResponse := ⟨true, true⟩ } })) (fun t =>
      t.trace == [.peReportError .chunkTimeout .plain] && t.timers.chunkResponse == Timer.off) := by decide
/-- V-TCH-2: a request for the wrong chunk. -/
theorem test_tch_wrong_request :
    goesTo (step (inTick .tch1
      { awaitingRequest with
        tch := { awaitingRequest.tch with msgReceived := true }
        tchMsg := ⟨.plain, 0x9091, [(xhEncode .doc 0 true true 2).setWidth 32]⟩ })) (fun t =>
      t.trace == [.peReportError .tchUnexpected .plain] && t.tch.state == .reportError) := by decide
/-- V-TCH-3: preempted by a message. -/
theorem test_tch_preempted :
    goesTo (step (inTick .tch1
      { awaitingRequest with
        tch := { awaitingRequest.tch with msgReceived := true }
        tchMsg := ⟨.plain, 0x1081, [0x12345678]⟩ })) (fun t =>
      t.trace == [.peReportDiscard] && t.rch.msgReceived && t.rchMsg == ⟨.plain, 0x1081, [0x12345678]⟩) := by decide
/-- V-HR-1 step 2: the local path. -/
theorem test_hr_local :
    goesTo (step (inTick .prlHr resetting)) (fun t =>
      t.trace == [.tpTransmitHardReset] && t.prlHr.state == .waitForPhyHardResetComplete &&
      t.timers.hrComplete == Timer.on && t.txOutstanding == 1) := by decide
/-- V-HR-1 step 6: the final exit. -/
theorem test_hr_final_exit :
    goesTo (step (inTick .prlHr { awaitingPe with prlHr := { awaitingPe.prlHr with peHardResetDone := true } }))
      (fun t => t.trace == [.tpSetRxEnable true] && t.prlHr == s0.prlHr && t.prlTx.state == .phyReset) := by decide

/-- V-LOOP-1: one tick from reset gives S0. -/
theorem test_first_tick : tick State.reset = .next s0 := rfl

/-! ### Witnesses: for each statement with hypotheses, a state and operands that meet them -/

/-- RCH with the next chunk to process, at the second pass. -/
def processing : State :=
  { inTick .rch2 awaitingChunk with
    rch := { s0.rch with state := .processingExtendedMessage }
    rchCur := c1
    timers := { s0.timers with wakeCeiling := Timer.off } }

/-- RCH with chunk 0 of 30 bytes to process while a transmission is pending. -/
def processingPending : State :=
  { inTick .rch2 s0 with
    rch := { s0.rch with state := .processingExtendedMessage }
    rxHdr := 0xF1B1
    rchCur := c0
    prlTx := ⟨.waitForMessageRequest, true, false, false⟩
    txClient := .rch }

/-- V-RCH-7 and V-RCH-8: an ordinary message that ends a reassembly is passed up before the error, a chunk request is
not (R192, R203). -/
theorem test_interrupted_reassembly :
    let latched (m : Msg) : State :=
      { inTick .rch1 awaitingChunk with rch := { awaitingChunk.rch with msgReceived := true }, rchMsg := m, trace := [] }
    goesTo (step (latched ⟨.plain, 0x13A1, [0xCAFEF00D]⟩)) (fun t =>
      t.trace == [.peMessageReceived (.whole ⟨.plain, 0x13A1, [0xCAFEF00D]⟩), .peReportError .chunkSequence .plain]) ∧
    goesTo (step (latched ⟨.plain, 0x93B1, [0x1C00]⟩)) (fun t =>
      t.trace == [.peReportError .chunkSequence .plain]) := by decide

/-- RCH has its chunk request in the slot. -/
def requesting : State :=
  { s0 with
    rch := { s0.rch with state := .requestingChunk }
    rxBuf := Memory.bufWrite [] 0 b26
    bytesReceived := 26
    nextExpectedChunk := 1
    rxTotal := 30
    rxHdr := 0xF1B1 }

/-- TCH with chunk 0 of a message of 30 bytes to build. -/
def building : State :=
  { s0 with
    tch := { s0.tch with state := .constructChunkedMessage }
    txBuf := Memory.bufWrite [] 0 b26
    sendType := 0x11
    sendLen := 30 }

/-- TCH waits for the outcome of chunk 0. -/
def sendingChunk : State :=
  { building with tch := { s0.tch with state := .sendingChunkedMessage, txDone := true }, sendChunkLen := 26 }

theorem inv_s0 : Inv s0 := by constructor <;> decide
theorem inv_sending : Inv sending := by constructor <;> decide
theorem inv_awaitingRequest : Inv awaitingRequest := by constructor <;> decide
theorem inv_awaitingChunk : Inv awaitingChunk := by constructor <;> decide
theorem inv_processing : Inv processing := by constructor <;> decide
theorem inv_processingPending : Inv processingPending := by constructor <;> decide
theorem inv_requesting : Inv requesting := by constructor <;> decide
theorem inv_building : Inv building := by constructor <;> decide
theorem inv_sendingChunk : Inv sendingChunk := by constructor <;> decide
theorem inv_awaitingPe : Inv awaitingPe := by constructor <;> decide
theorem inv_resetting : Inv resetting := by constructor <;> decide

theorem witness_DecodeInvertsEncode :
    (Instr.peSendDataMessage .prime 2 7 [0, 0, 0, 0, 0, 0, 0]).WellFormed Params.default ∧
    (Instr.peSendExtendedMessage .plain 0x11 0 []).WellFormed Params.default ∧
    (Instr.extChunk c1).WellFormed Params.default ∧
    (Instr.extChunkPd30 ⟨.plain, 0xA3B1, [0x2B2A881E, 0x2D2C]⟩).WellFormed pd30 := by decide

theorem witness_EncodeInvertsDecode :
    decode Params.default (.event [0x07, 0x03, 0x40]) = .ok (.peResetMessageIds .debug, [0x40]) ∧
    decode Params.default (.message .plain [0xAD, 0x07, 0x01]) = .ok (.softReset ⟨.plain, 0x07AD, []⟩, [0x01]) :=
  ⟨rfl, rfl⟩

theorem witness_EventCodes :
    decodeEvent [0x30, 0x01] = .ok (.tcSetPowerRole .source, []) ∧
    (0x00 : Byte) ∉ ([0x01, 0x02, 0x03, 0x04, 0x05, 0x06, 0x07, 0x08, 0x10, 0x11, 0x12, 0x13, 0x14, 0x20, 0x21, 0x22,
      0x23, 0x24, 0x25, 0x30, 0x31, 0x32, 0x33, 0x40] : List Byte) := ⟨rfl, by decide⟩

theorem witness_ResetMeetsInvariant : Params.default.WellFormed ∧ { pd30 with revDefault := rev10 }.WellFormed := by
  decide

/-- While waiting the event falls whatever its number; in a tick when the number is 0, and not before. -/
theorem witness_StepRunsDueEvent :
    ({ s0 with inputs := [⟨3, [0x08]⟩] }.loop = .waiting ∧
      decode s0.params (.event [0x08, 0x00]) = .ok (.peAbort, [0x00]) ∧ ∀ b ∈ ([0x00] : List Byte), b = 0) ∧
    ({ inTick .rch1 s0 with inputs := [⟨0, [0x08]⟩] }.inputs = [⟨0, [0x08]⟩]) ∧
    (decode s0.params (.event [0x08, 0x01]) = .ok (.peAbort, [0x01]) ∧ ∃ b ∈ ([0x01] : List Byte), b ≠ 0) ∧
    decode s0.params (.event [0x09]) = .error (.invalidEventCode 0x09) ∧
    ∃ t, step { inTick .rch1 s0 with inputs := [⟨1, [0x08]⟩, ⟨0, [0x40]⟩] } = .next t ∧
      t.inputs = [⟨0, [0x08]⟩, ⟨0, [0x40]⟩] :=
  ⟨⟨rfl, rfl, by decide⟩, rfl, ⟨rfl, by decide⟩, rfl, _, rfl, rfl⟩

theorem witness_StepRunsQueuedMessage :
    let s := received ⟨.plain, 0x0083, []⟩ { s0 with inputs := [⟨1, [0x08]⟩] }
    s.loop = .tick .prlRx ∧ NoEventFor 1 s [⟨0, [0x08]⟩] ∧ s.rxq = [⟨.plain, 0x0083, []⟩] ∧ s.rch.msgReceived = false ∧
    s.tch.msgReceived = false ∧ msgConsistent ⟨.plain, 0x0083, []⟩ ∧
    (inTick .prlRx s0).loop = .tick .prlRx ∧ NoEventFor 1 (inTick .prlRx s0) [] ∧ (inTick .prlRx s0).rxq = [] :=
  ⟨rfl, .inr ⟨_, _, _, rfl, rfl⟩, rfl, rfl, rfl, rfl, rfl, .inl ⟨rfl, rfl⟩, rfl⟩

/-- A tick with an event still to come, one sub-step and eight sub-steps away, and one with none. -/
theorem witness_WakeRunsOneTick :
    (s0.loop = .waiting ∧ s0.prlHr.state = .waitForRequest ∧ NoEventFor 8 s0 [] ∧
      NoEventFor 8 { s0 with inputs := [⟨8, [0x08]⟩] } [⟨0, [0x08]⟩]) ∧
    (resetting.loop = .waiting ∧ resetting.prlHr.state ≠ .waitForRequest ∧ NoEventFor 2 resetting []) ∧
    (inTick .start s0).loop ≠ .waiting ∧ NoEventFor 1 { inTick .tch2 s0 with inputs := [⟨1, [0x08]⟩] } [⟨0, [0x08]⟩] :=
  ⟨⟨rfl, rfl, .inl ⟨rfl, rfl⟩, .inr ⟨_, _, _, rfl, rfl⟩⟩, ⟨rfl, by decide, .inl ⟨rfl, rfl⟩⟩, by decide,
    .inr ⟨_, _, _, rfl, rfl⟩⟩

theorem witness_LoopStepsComplete :
    (Inv s0 ∧ s0.loop = .waiting ∧ s0.inputs = [] ∧ ∃ t, step s0 = .next t) ∧
    (Inv processing ∧ processing.loop ≠ .waiting ∧ NoEventFor 1 processing [] ∧ ∃ t, step processing = .next t) ∧
    Inv processingPending ∧ NoEventFor 1 processingPending [] ∧
      step processingPending = .fault .rchSubmitWhileTxPending :=
  ⟨⟨inv_s0, rfl, rfl, _, rfl⟩, ⟨inv_processing, by decide, .inl ⟨rfl, rfl⟩, _, rfl⟩, inv_processingPending,
    .inl ⟨rfl, rfl⟩, rfl⟩

theorem witness_IdleLoopChangesNothing :
    s0.loop = .waiting ∧ s0.inputs = [] ∧ s0.prlTx = ⟨.waitForMessageRequest, false, false, false⟩ ∧
    s0.prlHr.state = .waitForRequest ∧ s0.prlHr.peHardReset = false ∧ s0.prlHr.portPartnerHardReset = false ∧
    s0.rch = ⟨.waitForMessage, false, false, false, false, false, false⟩ ∧
    s0.tch = ⟨.waitForRequestFromPe, false, false, false, false, false, false⟩ ∧ s0.rxq = [] ∧ OwedUntilStepped s0 := by
  decide

theorem witness_MalformedMessageDropped : hdrExt 0x8000 = true ∧ hdrNdo 0x8000 = 0 := by decide

theorem witness_SoftResetReceived :
    hdrExt 0x07AD = false ∧ hdrNdo 0x07AD = 0 ∧ hdrType 0x07AD = Params.default.ctrlSoftReset := by decide

theorem witness_DuplicateDropped :
    let s : State := { s0 with rxRecord := s0.rxRecord.set .plain (some 2) }
    let m : Msg := ⟨.plain, 0x15A1, [1]⟩
    Instr.data m ∈ dedupClasses m ∧ s.rxRecord.get m.sop = some (hdrId m.hdr) := by decide

theorem witness_PingDelivered : s0.rxRecord.get .plain ≠ some (hdrId 0x0285) := by decide

/-- The three destinations: RCH, TCH, the PE. -/
theorem witness_MessageRouted :
    Instr.extChunk c0 ∈ routedClasses c0 ∧ s0.rxRecord.get c0.sop ≠ some (hdrId c0.hdr) ∧
    (s0.rev.get c0.sop = rev30 ∧ s0.tch.state = .waitForRequestFromPe) ∧
    (awaitingRequest.rxRecord.get c0.sop ≠ some (hdrId c0.hdr) ∧ awaitingRequest.rev.get c0.sop = rev30 ∧
      awaitingRequest.tch.state ≠ .waitForRequestFromPe) ∧
    (s20.rxRecord.get c0.sop ≠ some (hdrId c0.hdr) ∧ s20.rev.get c0.sop ≠ rev30) := by decide

theorem witness_SecondDeliveryDropped :
    let m : Msg := ⟨.plain, 0x0285, []⟩
    let n : Msg := ⟨.plain, 0x0283, []⟩
    Instr.ping m ∈ dedupClasses m ∧ Instr.control n ∈ dedupClasses n ∧ n.sop = m.sop ∧ hdrId n.hdr = hdrId m.hdr ∧
    goesTo (exec (.ping m) s0) (fun _ => true) := by decide

theorem witness_PrlRxNeverBlocksOrReports :
    Instr.malformedExt c0 ∈ allClasses c0 ∧ Instr.extUnchunkedPd30 c0 ∈ allClasses c0 := by decide

/-- Both ends of each range, and the value next to it. -/
theorem witness_PeSendsLatchRequest :
    PeSendAllowed s0 ∧ PeSendAllowed { s0 with tch := { s0.tch with state := .messageSent } } ∧
    ¬PeSendAllowed sending ∧ ¬PeSendAllowed resetting ∧
    ([0] : List Word).length = 1 ∧ ([0, 0, 0, 0, 0, 0, 0] : List Word).length = 7 ∧
    ¬(1 ≤ 0 ∧ 0 ≤ 7 ∧ ([] : List Word).length = 0) ∧
    ¬(1 ≤ 8 ∧ 8 ≤ 7 ∧ ([0, 0, 0, 0, 0, 0, 0, 0] : List Word).length = 8) ∧
    0 ≤ min 511 s0.params.maxExtMsgBytes ∧ 260 ≤ min 511 s0.params.maxExtMsgBytes ∧
    ¬261 ≤ min 511 s0.params.maxExtMsgBytes ∧ ([] : List Byte).length = 0 := by decide

theorem witness_PeSendsLatchRequest_longest : (List.replicate 260 (0 : Byte)).length = 260 :=
  List.length_replicate

theorem witness_HardResetCompleteEvent :
    awaitingPe.prlHr.state = .waitForPeHardResetComplete ∧ s0.prlHr.state ≠ .waitForPeHardResetComplete := by decide

theorem witness_RevisionAndIdEvents :
    s0.prlHr.state = .waitForRequest ∧ (2 : BitVec 2) ≠ 3 ∧ (0 : BitVec 2) ≠ 3 ∧
    resetting.prlHr.state ≠ .waitForRequest := by decide

theorem witness_ReceiveEventQueues :
    c0.words.length = (hdrNdo c0.hdr).toNat ∧ s0.rxEnabled = true ∧ resetting.rxEnabled = false ∧
    (⟨.plain, 0x1041, []⟩ : Msg).words.length ≠ (hdrNdo 0x1041).toNat := by decide

theorem witness_CompletionEvents : 0 < sending.txOutstanding ∧ sending.txOutstanding = 1 ∧ s0.txOutstanding = 0 := by
  decide

theorem witness_TimerExpiryEvents :
    let armed : State := { s0 with timers := ⟨Timer.on, Timer.on, Timer.on, Timer.on, Timer.on, Timer.on⟩ }
    armed.timers.txResponse = Timer.on ∧ armed.timers.srcCa = Timer.on ∧ armed.timers.hrComplete = Timer.on ∧
    armed.timers.chunkResponse = Timer.on ∧ armed.timers.chunkRequest = Timer.on ∧
    armed.timers.wakeCeiling = Timer.on ∧ s0.timers.wakeCeiling = Timer.on ∧ s0.timers.txResponse.armed = false ∧
    (⟨true, true⟩ : Timer).armed = true ∧ (⟨true, true⟩ : Timer).expired = true := by decide

theorem witness_EventsOnlySetInputs :
    isEvent .peAbort = true ∧ ∃ t, exec .peAbort s0 = .next t := ⟨rfl, _, rfl⟩

theorem witness_SubmissionAndReport : sending.txClient = .tch ∧ processingPending.txClient = .rch := by decide

theorem witness_PrlTxTakesMessage :
    s0.prlTx.state = .waitForMessageRequest ∧ processingPending.prlTx.state = .waitForMessageRequest := by decide

theorem witness_SoftResetSentWithIdZero :
    let s : State :=
      { s20 with txSlot := ⟨.plain, 0x0D, 0, false, []⟩, prlTx := ⟨.waitForMessageRequest, true, false, false⟩ }
    s.prlTx.state = .waitForMessageRequest ∧ s.prlTx.txRequest = true ∧ s.txSlot.ext = false ∧ s.txSlot.ndo = 0 ∧
    s.txSlot.typ = s.params.ctrlSoftReset ∧ (runPrlTx s).prlTx.state = .layerResetForTransmit := by decide

theorem witness_CollisionAvoidance :
    { s0 with prlTx := ⟨.srcCollisionAvoidance, false, false, false⟩ }.prlTx.state = .srcCollisionAvoidance ∧
    { s0 with prlTx := ⟨.snkCollisionAvoidance, false, false, false⟩ }.prlTx.state = .snkCollisionAvoidance := by
  decide

theorem witness_TransmissionOutcome :
    sending.prlTx.state = .waitForPhyResponse ∧ sending.txOwed = none ∧ owing.txOwed = some .plain := by decide

theorem witness_PrlTxTransientStates :
    State.reset.prlTx.state = .phyReset ∧
    { s0 with prlTx := ⟨.discardMessage, false, false, false⟩ }.prlTx.state = .discardMessage := by decide

/-- A confirmation counted by PRL-TX's run, one reset by PE.reset_message_ids, one that PRL-TX was forced off; and the
sub-steps from PRL-RX to PRL-TX, on a message accepted over a new request, and on a Soft Reset on the same variant. -/
theorem witness_CounterOnlyCountsConfirmed :
    (∃ t, step (inTick .prlTx { sending with prlTx := ⟨.waitForPhyResponse, false, true, false⟩ }) = .next t ∧
      t.txCounter.get .plain = 1) ∧
    (∃ t, step (due [0x07, 0x00] { s0 with txCounter := PerSop.fill 7 }) = .next t ∧ t.txCounter.get .plain = 0 ∧
      t.txCounter.get .prime = 7) ∧
    (OwedUntilStepped (inTick .prlTx owing) ∧ ∃ t, step (inTick .prlTx owing) = .next t ∧ t.txCounter.get .plain = 1) ∧
    (OwedUntilStepped (received ⟨.plain, 0x1041, [1]⟩ overtaken) ∧
      ∃ t, steps 4 (received ⟨.plain, 0x1041, [1]⟩ overtaken) = .next t ∧ t.txCounter.get .plain = 1) ∧
    ∃ t, steps 4 (received ⟨.plain, 0x07AD, []⟩ overtaken) = .next t ∧ t.txCounter.get .plain = 0 :=
  ⟨⟨_, rfl, rfl⟩, ⟨_, rfl, rfl, rfl⟩, ⟨by decide, _, rfl, rfl⟩, ⟨by decide, _, rfl, rfl⟩, _, rfl, rfl⟩

/-- A step that transmits, and one that does not. -/
theorem witness_TransmittedIdFollowsCounter :
    (OwedUntilStepped (inTick .prlTx { s20 with prlTx := ⟨.waitForMessageRequest, true, false, false⟩ }) ∧
      ∃ t h, step (inTick .prlTx { s20 with prlTx := ⟨.waitForMessageRequest, true, false, false⟩ }) = .next t ∧
        t.trace = [.tpTransmit .plain h []]) ∧
    (OwedUntilStepped (inTick .rch1 sending) ∧ ∃ t, step (inTick .rch1 sending) = .next t ∧ t.trace = []) ∧
    OwedUntilStepped (inTick .prlTx owing) ∧ ∃ t, step (inTick .prlTx owing) = .next t ∧ t.trace = [] :=
  ⟨⟨by decide, _, _, rfl, rfl⟩, ⟨by decide, _, rfl, rfl⟩, by decide, _, rfl, rfl⟩

theorem witness_HardResetEntered :
    { s0 with prlHr := { s0.prlHr with peHardReset := true } }.prlHr.state = .waitForRequest ∧
    awaitingPe.prlHr.state ≠ .waitForPhyHardResetComplete := by decide

theorem witness_HardResetPaths :
    resetting.prlHr.state = .resetLayer ∧
    { resetting with prlHr := { resetting.prlHr with state := .waitForPhyHardResetComplete } }.prlHr.state =
      .waitForPhyHardResetComplete := by decide

theorem witness_HardResetFinalExit : awaitingPe.prlHr.state = .waitForPeHardResetComplete := by decide

/-- Within the Hard Reset; then, after it, the message still queued in V-HR-6 (ID 1), a revision negotiated at once, and
a transmission that completes: each of the three writes that end R178's span. -/
theorem witness_HardResetPreempts :
    (Inv resetting ∧ resetting.prlHr.state ≠ .waitForRequest ∧ ∃ t, step (due [0x40] resetting) = .next t) ∧
    (OwedUntilStepped s0 ∧ s0.txCounter.get .plain = 0 ∧ s0.rxRecord.get .plain = none ∧
      s0.rev.get .plain = s0.params.revDefault) ∧
    (∃ t, step (received ⟨.plain, 0x1241, [2]⟩ s0) = .next t ∧ t.rxRecord.get .plain = some 1 ∧
      t.rxRecord.get .prime = none) ∧
    (∃ t, step (due [0x06, 0x00, 0x01] s0) = .next t ∧ t.rev.get .plain = rev20 ∧ t.rev.get .prime = rev30) ∧
    ∃ t, step (inTick .prlTx { sending with prlTx := ⟨.waitForPhyResponse, false, true, false⟩ }) = .next t ∧
      t.txCounter.get .plain = 1 ∧ t.txCounter.get .prime = 0 :=
  ⟨⟨inv_resetting, by decide, _, rfl⟩, by decide, ⟨_, rfl, rfl, rfl⟩, ⟨_, rfl, rfl, rfl⟩, _, rfl, rfl, rfl⟩

theorem witness_RchTakesMessage :
    s0.rch.state = .waitForMessage ∧ s0.rch.passInterrupting = false ∧
    { s0 with rch := { s0.rch with msgReceived := true }, rchMsg := c0 }.rch.passInterrupting = false := by decide

theorem witness_RchProcessesChunk :
    processing.rch.state = .processingExtendedMessage ∧ processing.rch.passInterrupting = false := by decide

/-- The last chunk, and a chunk for which the buffer has no byte left to take. -/
theorem witness_ChunkBytesStored :
    c1.words.length = (hdrNdo c1.hdr).toNat ∧ awaitingChunk.rxBuf.wf = true ∧
    (min 26 (min (awaitingChunk.rxTotal - awaitingChunk.bytesReceived) (4 * (hdrNdo c1.hdr).toNat - 2))) = 4 ∧
    c0.words.length = (hdrNdo c0.hdr).toNat ∧ s0.rxBuf.wf = true ∧ s0.rxTotal - s0.bytesReceived = 0 := by decide

theorem witness_RchRequestsChunk :
    requesting.rch.state = .requestingChunk ∧ requesting.rch.passInterrupting = false := by decide

theorem witness_RchWaitsForChunk :
    awaitingChunk.rch.state = .waitingChunk ∧ awaitingChunk.rch.passInterrupting = false := by decide

/-- Lengths 0, 30 and 416; the last needs a larger buffer than the default. -/
theorem witness_ChunkRoundTrip :
    s0.params.extHdrLayout = building.params.extHdrLayout ∧ building.sendLen ≤ 416 ∧
    building.sendLen ≤ s0.params.maxExtMsgBytes ∧ s0.sendLen = 0 ∧
    416 ≤ { Params.default with maxExtMsgBytes := 416 }.maxExtMsgBytes ∧ s0.params.chunking = true ∧
    s0.rxBuf.wf = true ∧ s0.rch = ⟨.waitForMessage, false, false, false, false, false, false⟩ ∧
    s0.bytesReceived = 0 ∧ s0.nextExpectedChunk = 0 ∧ s0.prlTx = ⟨.waitForMessageRequest, false, false, false⟩ ∧
    (hdrExt 0xF1B1 = true ∧ hdrNdo 0xF1B1 = (chunkSlot { building with sendOffset := 26 * 0, nextChunkToSend := 0 }).ndo) ∧
    hdrExt 0xA3B1 = true ∧
      hdrNdo 0xA3B1 = (chunkSlot { building with sendOffset := 26 * 1, nextChunkToSend := 1 }).ndo := by decide

/-- For every sender there are headers that meet the hypothesis of `ChunkRoundTrip`. -/
theorem witness_ChunkRoundTrip_headers (f : Nat → BitVec 3) :
    ∃ hdr : Nat → Half, ∀ k, hdrExt (hdr k) = true ∧ hdrNdo (hdr k) = f k := by
  have h : ∀ n : BitVec 3, hdrExt (makeHdr true n 0 false 0 false 0) = true ∧
      hdrNdo (makeHdr true n 0 false 0 false 0) = n := by decide
  exact ⟨fun k => makeHdr true (f k) 0 false 0 false 0, fun k => h (f k)⟩

theorem witness_TchTakesRequest :
    s0.tch.state = .waitForRequestFromPe ∧
    { s0 with tch := { s0.tch with msgRequest := true } }.tch.state = .waitForRequestFromPe := by decide

theorem witness_TchBuildsChunk : building.tch.state = .constructChunkedMessage := by decide

/-- The first chunk of nothing, the first of 30 bytes and the last of 416. -/
theorem witness_ChunkCarriesItsSlice :
    (s0.nextChunkToSend = 0 ∧ s0.sendOffset = 26 * 0 ∧ s0.sendLen ≤ 511) ∧
    (building.nextChunkToSend = 0 ∧ building.sendOffset = 26 * 0 ∧ building.sendLen ≤ 511) ∧
    (let s : State := { building with nextChunkToSend := 15, sendOffset := 390, sendLen := 416 }
     s.nextChunkToSend = 15 ∧ 15 ≤ 15 ∧ s.sendOffset = 26 * 15 ∧ s.sendLen ≤ 511) := by decide

theorem witness_TchRelaysOutcome :
    sendingChunk.tch.state = .sendingChunkedMessage ∧ sending.tch.state = .waitForTransmissionComplete := by decide

theorem witness_TchAnswersChunkRequest : awaitingRequest.tch.state = .waitChunkRequest := by decide

theorem witness_TransientStatesReturnToIdle :
    { s0 with rch := { s0.rch with state := .passUpMessage } }.rch.state = .passUpMessage ∧
    { s0 with rch := { s0.rch with state := .reportError } }.rch.state = .reportError ∧
    { s0 with tch := { s0.tch with state := .messageSent } }.tch.state = .messageSent ∧
    { s0 with tch := { s0.tch with state := .reportError } }.tch.state = .reportError ∧
    { s0 with tch := { s0.tch with state := .messageReceived } }.tch.state = .messageReceived := by decide

theorem witness_InvariantKept :
    (Inv processing ∧ ∃ t, step processing = .next t) ∧ (Inv s0 ∧ ∃ t, step s0 = .next t) ∧
    OwedUntilStepped (inTick .rch1 owing) ∧ ∃ t, step (inTick .rch1 owing) = .next t ∧ t.txOwed = some .plain :=
  ⟨⟨inv_processing, _, rfl⟩, ⟨inv_s0, _, rfl⟩, by decide, _, rfl, rfl⟩

theorem witness_ParametersFixedTraceGrows : ∃ t, step processing = .next t ∧ t.trace ≠ [] := ⟨_, rfl, by decide⟩

theorem witness_PortsIndependent :
    ∃ qs rs, stepPort 0 [inTick .rch1 s0, s0] = .next qs ∧ stepPort 1 qs = .next rs := ⟨_, _, rfl, rfl⟩

end Sys2Proof.Tests
end

section
/-! PROOFS. The product of ports (R11, R264): one port's step stated as an update of the list, from which the frame and
the commutation of two ports' steps follow. -/

namespace Sys2Proof.Machine

/-- All that a step of port `p` can answer: its own next state, put in its place. -/
theorem stepPort_eq_next_iff {p : Nat} {ps qs : Ports} :
    stepPort p ps = .next qs ↔ ∃ s t, ps[p]? = some s ∧ step s = .next t ∧ qs = ps.set p t := by
  unfold stepPort
  cases ps[p]? with
  | none => simp
  | some s => cases hs : step s <;> simp [hs, eq_comm]

theorem stepPort_length {p : Nat} {ps qs : Ports} (h : stepPort p ps = .next qs) : qs.length = ps.length := by
  obtain ⟨_, t, -, -, rfl⟩ := stepPort_eq_next_iff.mp h
  exact List.length_set

theorem stepPort_getElem?_ne {p q : Nat} {ps qs : Ports} (h : stepPort p ps = .next qs) (hq : q ≠ p) :
    qs[q]? = ps[q]? := by
  obtain ⟨_, t, -, -, rfl⟩ := stepPort_eq_next_iff.mp h
  exact List.getElem?_set_ne hq.symm

theorem stepPort_getElem?_self {p : Nat} {ps qs : Ports} (h : stepPort p ps = .next qs) :
    ∃ s t, ps[p]? = some s ∧ step s = .next t ∧ qs[p]? = some t := by
  obtain ⟨s, t, hp, hs, rfl⟩ := stepPort_eq_next_iff.mp h
  obtain ⟨hlt, -⟩ := List.getElem?_eq_some_iff.mp hp
  exact ⟨s, t, hp, hs, List.getElem?_set_self hlt⟩

/-- Each port steps from a context the other's step left alone, and the two updates are at different places. -/
theorem stepPort_comm {p q : Nat} {ps qs rs : Ports} (hp : stepPort p ps = .next qs) (hne : q ≠ p)
    (hq : stepPort q qs = .next rs) : ∃ us, stepPort q ps = .next us ∧ stepPort p us = .next rs := by
  obtain ⟨sq, tq, hsq, hstepq, rfl⟩ := stepPort_eq_next_iff.mp hq
  rw [stepPort_getElem?_ne hp hne] at hsq
  have hfirst : stepPort q ps = .next (ps.set q tq) := stepPort_eq_next_iff.mpr ⟨sq, tq, hsq, hstepq, rfl⟩
  obtain ⟨sp, tp, hsp, hstepp, rfl⟩ := stepPort_eq_next_iff.mp hp
  rw [← stepPort_getElem?_ne hfirst hne.symm] at hsp
  have hsecond : stepPort p (ps.set q tq) = .next ((ps.set p tp).set q tq) :=
    stepPort_eq_next_iff.mpr ⟨sp, tp, hsp, hstepp, List.set_comm _ _ hne.symm⟩
  exact ⟨_, hfirst, hsecond⟩

/-- Settles O59, by reading the step of a port as an update of the list at that port. -/
theorem portsIndependent : Obligations.PortsIndependent := fun _ _ _ h =>
  ⟨stepPort_length h, fun _ hne => stepPort_getElem?_ne h hne, stepPort_getElem?_self h,
    fun _ _ hne hq => stepPort_comm h hne hq⟩

end Sys2Proof.Machine
end

section
/-! PROOFS. The port at reset and over any step: the reset state meets the invariant (R55, R330), and no step changes a
parameter or takes back an entry of the trace (R51, R53). -/

namespace Sys2Proof.Machine

/-! ### Reset -/

/-- At reset only T_WAKE_CEILING is armed, and the loop is in the wait that arms it (R258, log 7). -/
theorem boot_timersOwned (p : Params) (l : Launch) : TimersOwned (State.boot p l) :=
  ⟨timerOwned_off, timerOwned_off, timerOwned_off, timerOwned_off, timerOwned_off, timerOwned_on⟩

/-- PRL-HR is idle at reset, so the conditions of a Hard Reset in progress ask nothing. -/
theorem boot_hardResetHeld (p : Params) (l : Launch) : HardResetHeld (State.boot p l) :=
  ⟨rfl, fun _ => rfl, fun busy => absurd rfl busy⟩

/-- Every variant's revision is REV_DEFAULT, which a legal choice of the parameters keeps off the reserved code. -/
theorem boot_revisionsLegal {p : Params} (l : Launch) (hp : p.WellFormed) : RevisionsLegal (State.boot p l) :=
  ⟨hp, hp, hp, hp, hp, hp⟩

theorem boot_latchesShared (p : Params) (l : Launch) : LatchesShared (State.boot p l) :=
  ⟨fun both => Bool.false_ne_true both.1, rfl, fun _ _ => ⟨rfl, rfl⟩⟩

/-- The queue is empty, and the blank message that fills each latch (log 5) has no data object and no word. -/
theorem boot_messagesConsistent (p : Params) (l : Launch) : MessagesConsistent (State.boot p l) :=
  have blank : msgConsistent Msg.blank := by decide
  ⟨fun _ hm => absurd hm List.not_mem_nil, blank, blank, blank, rfl, fun working => nomatch working⟩

theorem boot_requestBounded (p : Params) (l : Launch) : RequestBounded (State.boot p l) :=
  ⟨rfl, Nat.zero_le _, rfl, Nat.zero_le _⟩

theorem boot_reassemblyBounded (p : Params) (l : Launch) : ReassemblyBounded (State.boot p l) :=
  ⟨rfl, rfl, Nat.le_refl _, Nat.zero_le _, Nat.zero_le _, fun _ => rfl, fun begun => absurd rfl begun⟩

theorem boot_sendBounded (p : Params) (l : Launch) : SendBounded (State.boot p l) :=
  ⟨rfl, rfl, Nat.zero_le _, Nat.le_refl _, Nat.zero_le _, Nat.zero_le _, fun _ => Nat.zero_le _, fun _ => rfl,
    fun sending => nomatch sending⟩

theorem boot_inv {p : Params} (l : Launch) (hp : p.WellFormed) : Inv (State.boot p l) where
  params := hp
  timers := boot_timersOwned p l
  hardReset := boot_hardResetHeld p l
  revisions := boot_revisionsLegal l hp
  latches := boot_latchesShared p l
  rp := fun _ => rfl
  messages := boot_messagesConsistent p l
  request := boot_requestBounded p l
  reassembly := boot_reassemblyBounded p l
  send := boot_sendBounded p l

/-- PRL-TX owes no confirmation at reset (log 19). -/
theorem boot_owedUntilStepped (p : Params) (l : Launch) : OwedUntilStepped (State.boot p l) :=
  fun owed => absurd rfl owed

/-- Settles O9, one part of the invariant at a time; the core's reset state is its definition evaluated. -/
theorem resetMeetsInvariant : Obligations.ResetMeetsInvariant :=
  ⟨fun p l hp => ⟨boot_inv l hp, boot_owedUntilStepped p l⟩, rfl⟩

/-! ### Parameters and trace -/

theorem step_params_trace {s t : State} (h : step s = .next t) :
    t.params = s.params ∧ ∃ l, t.trace = s.trace ++ l := by
  rcases step_cases h with ⟨_, _, _, _, -, -, hdec, hexec⟩ | ⟨-, -, rfl⟩ | ⟨_, _, -, -, hsub⟩
  · -- an event emits nothing
    obtain ⟨hparams, htrace, -⟩ := execEvent_kept (decodeLoneEvent_isEvent hdec) hexec
    exact ⟨hparams, [], htrace.trans (List.append_nil _).symm⟩
  · -- the loop waits and nothing falls
    exact ⟨rfl, [], (List.append_nil _).symm⟩
  · obtain ⟨hparams, -, htrace⟩ := runSubStep_kept hsub
    exact ⟨hparams, htrace⟩

/-- Settles O58, by what a step can be: an event, a stutter of the waiting loop, or a sub-step of the tick. -/
theorem parametersFixedTraceGrows : Obligations.ParametersFixedTraceGrows := fun _ _ => step_params_trace

end Sys2Proof.Machine
end

section
/-! PROOFS. What an environment event can write (46_external_events.md, preamble): input fields, flags, latches and
transport-side state; and, by the two PE operations on a variant alone, a revision or the message IDs. -/

namespace Sys2Proof.Machine

/-! ### The fields that events write -/

/-- The port `s` with the fields that environment events write, and no other, taken from `u`: the control point (WAKE),
the PE request latch, the machines' flags (their states stay those of `s`), the Type-C inputs, the transport's queue and
count of outstanding transmissions, and the timers. -/
def State.withInputsOf (s u : State) : State :=
  { s with
    loop := u.loop
    peReq := u.peReq
    prlTx := { u.prlTx with state := s.prlTx.state }
    prlHr := { u.prlHr with state := s.prlHr.state }
    rch := { u.rch with state := s.rch.state }
    tch := { u.tch with state := s.tch.state }
    powerRole := u.powerRole
    dataRole := u.dataRole
    frsActive := u.frsActive
    ccSinkTx := u.ccSinkTx
    rxq := u.rxq
    txOutstanding := u.txOutstanding
    timers := u.timers }

/-- `t` differs from `s` in fields that events write and in nothing else. -/
def WritesInputs (s t : State) : Prop := ∃ u, t = s.withInputsOf u

theorem WritesInputs.trans {s t u : State} (hst : WritesInputs s t) (htu : WritesInputs t u) : WritesInputs s u := by
  obtain ⟨_, rfl⟩ := hst
  obtain ⟨v, rfl⟩ := htu
  exact ⟨v, rfl⟩

theorem WritesInputs.of_next {s t : State} (u : State)
    (h : Host.Outcome.next (φ := Fault) (ρ := Refusal) (s.withInputsOf u) = .next t) : WritesInputs s t :=
  ⟨u, (Host.Outcome.next.inj h).symm⟩

/-! ### The operations that events share -/

/-- An event behind a precondition that answers a next state answers what stands behind the precondition. -/
theorem next_of_guarded {c : Prop} [Decidable c] {r : Result} {e : Refusal} {t : State}
    (h : (if c then r else .refused e) = .next t) : r = .next t := by
  split at h
  · exact h
  · nomatch h

theorem expireTimer_writesInputs {i : TimerId} {s t : State} (h : expireTimer i s = .next t) : WritesInputs s t := by
  unfold expireTimer at h
  split at h
  · split at h
    · nomatch h
    · exact .of_next { s with timers := s.timers.set i ⟨true, true⟩ } h
  · nomatch h

theorem wakeLoop_writesInputs (s : State) : WritesInputs s (wakeLoop s) := by
  unfold wakeLoop
  split
  · exact ⟨{ s with loop := .tick .start }, rfl⟩
  · exact ⟨s, rfl⟩

theorem thenState_eq_next {r : Result} {f : State → State} {t : State} (h : thenState r f = .next t) :
    ∃ u, r = .next u ∧ t = f u := by
  cases r with
  | next u => exact ⟨u, rfl, (Host.Outcome.next.inj h).symm⟩
  | fault e => nomatch h
  | refused e => nomatch h

theorem execPeSetRevision_eq_next {v : Sop} {r : BitVec 2} {s t : State} (h : execPeSetRevision v r s = .next t) :
    t = { s with rev := s.rev.set v r } := by
  unfold execPeSetRevision at h
  split at h
  · nomatch h
  · exact (Host.Outcome.next.inj (next_of_guarded h)).symm

theorem execWake_writesInputs {s t : State} (h : execWake s = .next t) : WritesInputs s t := by
  unfold execWake at h
  split at h
  · obtain rfl := Host.Outcome.next.inj h
    exact wakeLoop_writesInputs s
  · nomatch h

/-! ### What an event can be -/

/-- An event writes one variant's revision (R275), resets one variant's IDs (R276), or only sets inputs. -/
theorem execEvent_cases {i : Instr} {s t : State} (hi : isEvent i = true) (h : exec i s = .next t) :
    (∃ v r, i = .peSetRevision v r ∧ t = { s with rev := s.rev.set v r }) ∨
    (∃ v, i = .peResetMessageIds v ∧ t = resetIds v s) ∨ WritesInputs s t := by
  cases i
  case peSetRevision v r => exact .inl ⟨v, r, rfl, execPeSetRevision_eq_next h⟩
  case peResetMessageIds v => exact .inr (.inl ⟨v, rfl, (Host.Outcome.next.inj (next_of_guarded h)).symm⟩)
  all_goals refine .inr (.inr ?_)
  case peSendCtrlMessage v typ => exact .of_next (latchRequest ⟨.ctrl, v, typ, 0, [], [], 0⟩ s) (next_of_guarded h)
  case peSendDataMessage v typ ndo words =>
    exact .of_next (latchRequest ⟨.data, v, typ, ndo, words, [], 0⟩ s) (next_of_guarded (next_of_guarded h))
  case peSendExtendedMessage v typ len bytes =>
    exact .of_next (latchRequest ⟨.ext, v, typ, 0, [], bytes, len⟩ s) (next_of_guarded (next_of_guarded h))
  case peExecuteHardReset => exact .of_next { s with prlHr := { s.prlHr with peHardReset := true } } h
  case peHardResetComplete =>
    exact .of_next { s with prlHr := { s.prlHr with peHardResetDone := true } } (next_of_guarded h)
  case peAbort =>
    exact .of_next { s with rch := { s.rch with abort := true }, tch := { s.tch with abort := true } } h
  case tpRx m => exact .of_next { s with rxq := s.rxq ++ [m] } (next_of_guarded (next_of_guarded h))
  case tpTxCompleteOk =>
    exact .of_next { s with prlTx := { s.prlTx with txCompleteOk := true }, txOutstanding := s.txOutstanding - 1 }
      (next_of_guarded h)
  case tpTxCompleteFail =>
    exact .of_next { s with prlTx := { s.prlTx with txCompleteFail := true }, txOutstanding := s.txOutstanding - 1 }
      (next_of_guarded h)
  case tpHardResetReceived => exact .of_next { s with prlHr := { s.prlHr with portPartnerHardReset := true } } h
  case tpHardResetSent =>
    exact .of_next { s with prlHr := { s.prlHr with phyHardResetDone := true }, txOutstanding := s.txOutstanding - 1 }
      (next_of_guarded h)
  case timerExpireTxResponse => exact expireTimer_writesInputs h
  case timerExpireSrcCa => exact expireTimer_writesInputs h
  case timerExpireHrComplete => exact expireTimer_writesInputs h
  case timerExpireChunkResponse => exact expireTimer_writesInputs h
  case timerExpireChunkRequest => exact expireTimer_writesInputs h
  case timerExpireWakeCeiling =>
    obtain ⟨u, hexpire, rfl⟩ := thenState_eq_next h
    exact (expireTimer_writesInputs hexpire).trans (wakeLoop_writesInputs u)
  case tcSetPowerRole r => exact .of_next { s with powerRole := r } h
  case tcSetDataRole r => exact .of_next { s with dataRole := r } h
  case tcSetFrs b => exact .of_next { s with frsActive := b } h
  case tcSetCcSinkTx v => exact .of_next { s with ccSinkTx := v } h
  case wake => exact execWake_writesInputs h
  -- a message class is no event
  all_goals nomatch hi

/-- Settles O32: of the three things an event can be, none writes a field that the statement freezes, and only the two
that its last clauses except write a revision, or a counter and a record. -/
theorem eventsOnlySetInputs : Obligations.EventsOnlySetInputs := by
  intro i s t hi h
  rcases execEvent_cases hi h with ⟨v, r, rfl, rfl⟩ | ⟨v, rfl, rfl⟩ | ⟨u, rfl⟩ <;>
    refine ⟨rfl, rfl, rfl, rfl, rfl, rfl, rfl, rfl, rfl, rfl, rfl, rfl, rfl, rfl, rfl, rfl, rfl, rfl, rfl, ?_, ?_⟩
  · exact fun other => absurd rfl (other v r)
  · exact fun _ => ⟨rfl, rfl⟩
  · exact fun _ => rfl
  · exact fun other => absurd rfl (other v)
  · exact fun _ => rfl
  · exact fun _ => ⟨rfl, rfl⟩

end Sys2Proof.Machine
end

section
/-! PROOFS. The formats and the decoder: the two headers bit by bit (R93, R96), the classes (R100), and the round trip
of decoder and encoder in both directions (R71, R90, R104), from which the event codes follow. -/

namespace Sys2Proof

open Sys2Proof.Machine

/-! ### Headers (R92, R93, R96) -/

theorem makeHdr_toNat (ext : Bool) (ndo id : BitVec 3) (pr : Bool) (rev : BitVec 2) (dr : Bool) (typ : BitVec 5) :
    (makeHdr ext ndo id pr rev dr typ).toNat =
      ext.toNat * 2 ^ 15 + ndo.toNat * 2 ^ 12 + id.toNat * 2 ^ 9 + pr.toNat * 2 ^ 8 + rev.toNat * 2 ^ 6 +
        dr.toNat * 2 ^ 5 + typ.toNat := by
  have hpr := pr.toNat_lt
  have hdr := dr.toNat_lt
  simp only [makeHdr, BitVec.toNat_append, BitVec.toNat_ofBool]
  repeat rw [shiftLeft_or _ _ _ (by omega)]
  omega

/-- A field of `n` bits at bit `i` as arithmetic on the whole number. -/
theorem extractLsb'_toNat_eq_div_mod {w : Nat} (x : BitVec w) (i n : Nat) :
    (x.extractLsb' i n).toNat = x.toNat / 2 ^ i % 2 ^ n := by
  rw [BitVec.extractLsb'_toNat, Nat.shiftRight_eq_div_pow]

/-- A one-bit field at bit `i` as arithmetic on the whole number. -/
theorem getLsbD_toNat_eq_div_mod {w : Nat} (x : BitVec w) (i : Nat) : (x.getLsbD i).toNat = x.toNat / 2 ^ i % 2 := by
  rw [← BitVec.testBit_toNat, Nat.toNat_testBit]

/-- Settles O4: the appended fields add up to the sum, and each field read is a quotient and a remainder. -/
theorem headerFormat : Obligations.HeaderFormat := by
  refine ⟨makeHdr_toNat, fun h => ?_, by decide⟩
  have := h.isLt
  simp only [hdrType, hdrDr, hdrRev, hdrPr, hdrId, hdrNdo, hdrExt, extractLsb'_toNat_eq_div_mod,
    getLsbD_toNat_eq_div_mod, true_and]
  omega

/-- Settles O5: each field of `xh_decode` as a quotient and a remainder, and `xh_encode` by its law. -/
theorem extendedHeaderFormat : Obligations.ExtendedHeaderFormat := by
  refine ⟨fun x => ?_, fun size n chunked req => ⟨xhEncode_toNat .doc size n chunked req,
    xhEncode_toNat .pd30 size n chunked req⟩, by decide, by decide⟩
  have := x.isLt
  simp only [xhDecode, extractLsb'_toNat_eq_div_mod, getLsbD_toNat_eq_div_mod, true_and]
  omega

/-! ### Classes (R100) -/

/-- Settles O6, by the table's own tree of conditions: at each leaf one class is the answer, and only its row holds. -/
theorem messageClasses : Obligations.MessageClasses := by
  intro p m
  cases hext : hdrExt m.hdr with
  | false =>
    by_cases hndo : hdrNdo m.hdr = 0#3
    · by_cases hsoft : hdrType m.hdr = p.ctrlSoftReset
      · simp [classify, hext, hndo, hsoft]
      · by_cases hping : hdrType m.hdr = p.ctrlPing <;> simp_all [classify]
    · simp [classify, hext, hndo]
  | true =>
    by_cases hndo : hdrNdo m.hdr = 0#3
    · simp [classify, hext, hndo]
    · cases hreq : (msgXHdr p m).requestChunk with
      | true => simp [classify, hext, hndo, hreq]
      | false => cases hchunked : (msgXHdr p m).chunked <;> simp [classify, hext, hndo, hreq, hchunked]

/-! ### Messages: decoding the encoding -/

theorem decode_msgBytes (p : Params) {m : Msg} (hm : msgConsistent m) :
    decode p (.message m.sop (msgBytes m)) = .ok (decodeMsg p m, []) := by
  have hread := readMsg_msgBytes m [] hm
  rw [List.append_nil] at hread
  simp only [decode, hread, bind, Except.bind]

/-- A well-formed message class is what its own message decodes to: the class by `classify`, and of the two rows of an
extended class the one of the port's layout (R95, R103). -/
theorem exists_decodeMsg_of_wellFormed {p : Params} {i : Instr} (hwf : i.WellFormed p) (hi : isEvent i = false) :
    ∃ m, msgConsistent m ∧ decodeMsg p m = i := by
  have leaf : ∀ {l : Option ExtHdrLayout} {c : MsgClass} {m : Msg}, m.IsClass p l c →
      (classify p m = c → (l = none ∨ l = some p.extHdrLayout) → decodeMsg p m = i) →
      ∃ m, msgConsistent m ∧ decodeMsg p m = i :=
    fun ⟨hm, hclass, hlayout⟩ hdec => ⟨_, hm, hdec hclass hlayout⟩
  cases i
  case malformedExt | softReset | ping | control | data =>
    exact leaf hwf fun hclass _ => by simp only [decodeMsg, hclass]
  case extChunkRequest | extChunk | extUnchunked | extChunkRequestPd30 | extChunkPd30 | extUnchunkedPd30 =>
    refine leaf hwf fun hclass hlayout => ?_
    have hlayout := Option.some.inj (hlayout.resolve_left (Option.some_ne_none _))
    simp only [decodeMsg, hclass, ← hlayout]
  all_goals nomatch hi

/-! ### Events: decoding the encoding, whatever bytes follow -/

section
variable (v : Sop) (typ : BitVec 5) (rest : List Byte)

theorem decodeEvent_peSendCtrlMessage :
    decodeEvent (0x01 :: sopByte v :: typ.setWidth 8 :: rest) = .ok (.peSendCtrlMessage v typ, rest) := by
  simp [decodeEvent, bind, Except.bind]

/-- The count byte holds `ndo - 1` modulo 256 (log 3). -/
theorem decodeEvent_peSendDataMessage {ws : List Word} (h : ws.length < 256) :
    decodeEvent (0x02 :: sopByte v :: typ.setWidth 8 :: BitVec.ofNat 8 (ws.length + 255) :: (dataArea ws ++ rest)) =
      .ok (.peSendDataMessage v typ ws.length ws, rest) := by
  have hcount : ((BitVec.ofNat 8 (ws.length + 255)).toNat + 1) % 256 = ws.length := by
    rw [BitVec.toNat_ofNat]
    omega
  simp [decodeEvent, bind, Except.bind, -BitVec.toNat_ofNat, hcount, readWords_dataArea]

theorem decodeEvent_peSendExtendedMessage {bs : List Byte} (h : bs.length < 2 ^ 16) :
    decodeEvent (0x03 :: sopByte v :: typ.setWidth 8 :: (halfBytes (BitVec.ofNat 16 bs.length) ++ (bs ++ rest))) =
      .ok (.peSendExtendedMessage v typ bs.length bs, rest) := by
  have hlen : (BitVec.ofNat 16 bs.length).toNat = bs.length := by rw [BitVec.toNat_ofNat, Nat.mod_eq_of_lt h]
  simp [decodeEvent, bind, Except.bind, -BitVec.toNat_ofNat, hlen, readBytes_append]

theorem decodeEvent_peSetRevision (r : BitVec 2) :
    decodeEvent (0x06 :: sopByte v :: r.setWidth 8 :: rest) = .ok (.peSetRevision v r, rest) := by
  simp [decodeEvent, bind, Except.bind]

theorem decodeEvent_peResetMessageIds :
    decodeEvent (0x07 :: sopByte v :: rest) = .ok (.peResetMessageIds v, rest) := by
  simp [decodeEvent, bind, Except.bind]

theorem readRx_append (h : Half) {ws : List Word} (hlen : ws.length < 256) :
    readRx v (halfBytes h ++ BitVec.ofNat 8 ws.length :: (dataArea ws ++ rest)) = .ok (⟨v, h, ws⟩, rest) := by
  have hcount : (BitVec.ofNat 8 ws.length).toNat = ws.length := by rw [BitVec.toNat_ofNat, Nat.mod_eq_of_lt hlen]
  simp [readRx, bind, Except.bind, -BitVec.toNat_ofNat, hcount, readWords_dataArea]

theorem decodeEvent_tpRx {m : Msg} (hlen : m.words.length < 256) :
    decodeEvent (0x10 :: sopByte m.sop ::
      (halfBytes m.hdr ++ BitVec.ofNat 8 m.words.length :: (dataArea m.words ++ rest))) = .ok (.tpRx m, rest) := by
  simp [decodeEvent, bind, Except.bind, -BitVec.toNat_ofNat, readRx_append _ _ _ hlen]

end

/-- An event is read back from its encoding, whatever bytes follow: no event's bytes begin another's. -/
theorem decodeEvent_encode {p : Params} {i : Instr} (hwf : i.WellFormed p) (hi : isEvent i = true) :
    ∃ code, encode i = .event code ∧ ∀ rest, decodeEvent (code ++ rest) = .ok (i, rest) := by
  cases i
  case peSendCtrlMessage v typ => exact ⟨_, rfl, decodeEvent_peSendCtrlMessage v typ⟩
  case peSendDataMessage v typ ndo ws =>
    obtain ⟨-, hmax, rfl⟩ := hwf
    exact ⟨_, rfl, fun rest => decodeEvent_peSendDataMessage v typ rest (hmax.trans_lt (by decide))⟩
  case peSendExtendedMessage v typ len bs =>
    obtain ⟨hmax, rfl⟩ := hwf
    have hlen : bs.length < 2 ^ 16 := (hmax.trans (min_le_left _ _)).trans_lt (by decide)
    refine ⟨_, rfl, fun rest => ?_⟩
    simpa using decodeEvent_peSendExtendedMessage v typ rest hlen
  case peSetRevision v r => exact ⟨_, rfl, fun rest => decodeEvent_peSetRevision v rest r⟩
  case peResetMessageIds v => exact ⟨_, rfl, decodeEvent_peResetMessageIds v⟩
  case tpRx m =>
    have hlen : m.words.length < 256 := by
      have hcons : m.words.length = (hdrNdo m.hdr).toNat := hwf
      have := (hdrNdo m.hdr).isLt
      omega
    exact ⟨_, rfl, fun rest => decodeEvent_tpRx rest hlen⟩
  case tcSetPowerRole r => cases r <;> exact ⟨_, rfl, fun _ => rfl⟩
  case tcSetDataRole r => cases r <;> exact ⟨_, rfl, fun _ => rfl⟩
  case tcSetFrs b => cases b <;> exact ⟨_, rfl, fun _ => rfl⟩
  case tcSetCcSinkTx level => cases level <;> exact ⟨_, rfl, fun _ => rfl⟩
  case malformedExt | softReset | ping | control | data | extChunkRequest | extChunk | extUnchunked |
      extChunkRequestPd30 | extChunkPd30 | extUnchunkedPd30 => nomatch hi
  -- an event without operands is its code alone
  all_goals exact ⟨_, rfl, fun _ => rfl⟩

/-- Settles O1, on events and on message classes apart. -/
theorem decodeInvertsEncode : Obligations.DecodeInvertsEncode := by
  intro p i hwf
  cases hi : isEvent i with
  | true =>
    obtain ⟨code, hcode, hdec⟩ := decodeEvent_encode hwf hi
    rw [hcode]
    simpa only [decode, List.append_nil] using hdec []
  | false =>
    obtain ⟨m, hm, rfl⟩ := exists_decodeMsg_of_wellFormed hwf hi
    rw [encode_decodeMsg, decode_msgBytes p hm]

/-! ### Encoding what was decoded -/

/-- A chain of readers succeeds exactly if its first reader does and then the rest of the chain. -/
theorem bind_eq_ok_iff {α β : Type} {x : Except DecodeError α} {f : α → Except DecodeError β} {b : β} :
    x >>= f = .ok b ↔ ∃ a, x = .ok a ∧ f a = .ok b := by
  cases x with
  | error e => exact ⟨(nomatch ·), fun ⟨_, h, _⟩ => nomatch h⟩
  | ok a => exact ⟨fun h => ⟨a, rfl, h⟩, fun ⟨_, h, hf⟩ => by cases h; exact hf⟩

/-- The operand of `TP.rx`: its count byte is the number of words read. -/
theorem readRx_ok {v : Sop} {bs : List Byte} {m : Msg} {rest : List Byte} (e : readRx v bs = .ok (m, rest)) :
    m.sop = v ∧ bs = halfBytes m.hdr ++ BitVec.ofNat 8 m.words.length :: (dataArea m.words ++ rest) := by
  obtain ⟨⟨h, bs₁⟩, hhdr, e⟩ := bind_eq_ok_iff.mp e
  obtain ⟨⟨c, bs₂⟩, hcount, e⟩ := bind_eq_ok_iff.mp e
  obtain ⟨⟨ws, bs₃⟩, hwords, e⟩ := bind_eq_ok_iff.mp e
  obtain ⟨hlen, hbs₂⟩ := readWords_ok hwords
  cases e
  refine ⟨rfl, ?_⟩
  rw [readHalf_ok hhdr, readByte_ok hcount, hbs₂, hlen, BitVec.ofNat_toNat, BitVec.setWidth_eq]

/-- The bytes an event was read from are its encoding, then the bytes left over. -/
theorem encode_of_decodeEvent {bytes : List Byte} {i : Instr} {rest : List Byte}
    (h : decodeEvent bytes = .ok (i, rest)) : ∃ code, encode i = .event code ∧ bytes = code ++ rest := by
  obtain _ | ⟨c, ops⟩ := bytes
  · nomatch h
  obtain ⟨n, hn⟩ : ∃ n, n = c.toNat := ⟨_, rfl⟩
  obtain rfl : c = BitVec.ofNat 8 n := by rw [hn, BitVec.ofNat_toNat, BitVec.setWidth_eq]
  rw [decodeEvent, ← hn] at h
  clear hn
  split at h
  case h_1 => -- PE.send_ctrl_message
    obtain ⟨⟨v, ops₁⟩, hv, h⟩ := bind_eq_ok_iff.mp h
    obtain ⟨⟨typ, ops₂⟩, htyp, h⟩ := bind_eq_ok_iff.mp h
    cases h
    exact ⟨_, rfl, by rw [readSop_ok hv, readType_ok htyp]; rfl⟩
  case h_2 => -- PE.send_data_message
    obtain ⟨⟨v, ops₁⟩, hv, h⟩ := bind_eq_ok_iff.mp h
    obtain ⟨⟨typ, ops₂⟩, htyp, h⟩ := bind_eq_ok_iff.mp h
    obtain ⟨⟨c, ops₃⟩, hc, h⟩ := bind_eq_ok_iff.mp h
    obtain ⟨⟨ws, ops₄⟩, hws, h⟩ := bind_eq_ok_iff.mp h
    cases h
    have hcount : BitVec.ofNat 8 ((c.toNat + 1) % 256 + 255) = c := BitVec.eq_of_toNat_eq (by
      have := c.isLt
      rw [BitVec.toNat_ofNat]
      omega)
    refine ⟨_, rfl, ?_⟩
    rw [hcount, readSop_ok hv, readType_ok htyp, readByte_ok hc, (readWords_ok hws).2]
    rfl
  case h_3 => -- PE.send_extended_message
    obtain ⟨⟨v, ops₁⟩, hv, h⟩ := bind_eq_ok_iff.mp h
    obtain ⟨⟨typ, ops₂⟩, htyp, h⟩ := bind_eq_ok_iff.mp h
    obtain ⟨⟨len, ops₃⟩, hlen, h⟩ := bind_eq_ok_iff.mp h
    obtain ⟨⟨bs, ops₄⟩, hbs, h⟩ := bind_eq_ok_iff.mp h
    cases h
    refine ⟨_, rfl, ?_⟩
    rw [BitVec.ofNat_toNat, BitVec.setWidth_eq, readSop_ok hv, readType_ok htyp, readHalf_ok hlen, (readBytes_ok hbs).2]
    rfl
  case h_6 => -- PE.set_revision
    obtain ⟨⟨v, ops₁⟩, hv, h⟩ := bind_eq_ok_iff.mp h
    obtain ⟨⟨r, ops₂⟩, hr, h⟩ := bind_eq_ok_iff.mp h
    cases h
    exact ⟨_, rfl, by rw [readSop_ok hv, readRev_ok hr]; rfl⟩
  case h_7 => -- PE.reset_message_ids
    obtain ⟨⟨v, ops₁⟩, hv, h⟩ := bind_eq_ok_iff.mp h
    cases h
    exact ⟨_, rfl, by rw [readSop_ok hv]; rfl⟩
  case h_9 => -- TP.rx
    obtain ⟨⟨v, ops₁⟩, hv, h⟩ := bind_eq_ok_iff.mp h
    obtain ⟨⟨m, ops₂⟩, hm, h⟩ := bind_eq_ok_iff.mp h
    cases h
    obtain ⟨rfl, hops₁⟩ := readRx_ok hm
    refine ⟨_, rfl, ?_⟩
    rw [readSop_ok hv, hops₁]
    simp
  case h_20 | h_21 | h_22 | h_23 => -- the four Type-C inputs, each a choice of two
    obtain ⟨⟨a, ops₁⟩, ha, h⟩ := bind_eq_ok_iff.mp h
    cases h
    rcases readChoice_ok ha with ⟨rfl, rfl⟩ | ⟨rfl, rfl⟩ <;> exact ⟨_, rfl, rfl⟩
  case h_25 => nomatch h -- no code of R104
  -- an event without operands is its code alone
  all_goals cases h; exact ⟨_, rfl, rfl⟩

/-- Settles O2: an event by the inversion of its readers, a message by that of `readMsg`. -/
theorem encodeInvertsDecode : Obligations.EncodeInvertsDecode := by
  refine fun p i rest => ⟨fun bytes h => encode_of_decodeEvent h, fun v bytes h => ?_⟩
  obtain ⟨⟨m, rest'⟩, hread, hdec⟩ := bind_eq_ok_iff.mp h
  cases hdec
  obtain ⟨rfl, -, hbytes⟩ := readMsg_ok hread
  exact ⟨_, encode_decodeMsg p m, hbytes⟩

/-! ### Event codes and sample words (R104, R91, R95, R71) -/

/-- A decoded event has the code its bytes start with: its encoding is not empty and begins those bytes. -/
theorem eventCode_of_decodeEvent {c : Byte} {ops : List Byte} {i : Instr} {rest : List Byte}
    (h : decodeEvent (c :: ops) = .ok (i, rest)) : eventCode i = some c := by
  obtain ⟨code, hcode, hbytes⟩ := encode_of_decodeEvent h
  cases code with
  | nil => cases i <;> nomatch hcode
  | cons d ds =>
    obtain ⟨rfl, -⟩ := List.cons.inj hbytes
    simp only [eventCode, hcode]

theorem decodeLoneEvent_error {bytes : List Byte} {e : DecodeError} (h : decodeEvent bytes = .error e) :
    decodeLoneEvent bytes = .error e := by
  simp only [decodeLoneEvent, h, bind, Except.bind]

/-- Settles O7: the code of a decoded event by O2's inversion, an unlisted code by the last row of the decoder. -/
theorem eventCodes : Obligations.EventCodes := by
  refine ⟨fun _ _ => rfl, fun _ _ _ _ => rfl, fun _ _ _ _ => rfl, rfl, rfl, fun _ _ => rfl, fun _ => rfl, rfl,
    fun _ => rfl, rfl, rfl, rfl, rfl, rfl, rfl, rfl, rfl, rfl, rfl, fun _ => rfl, fun _ => rfl, fun _ => rfl,
    fun _ => rfl, rfl, fun _ _ _ _ h => eventCode_of_decodeEvent h, fun c ops hc => decodeLoneEvent_error ?_⟩
  rw [decodeEvent]
  split
  case h_25 => rfl
  all_goals
    rename_i hcode
    exact absurd hc (by simp [← BitVec.toNat_inj, hcode])

/-- Settles O3, by evaluating the decoder on each of the six byte strings. -/
theorem sampleWordsDecode : Obligations.SampleWordsDecode := ⟨rfl, rfl, rfl, rfl, rfl, rfl⟩

end Sys2Proof
end

section
/-! PROOFS. PRL-RX (R120 to R132): what each message class answers, said once for all classes that PRL-RX treats alike,
and what no message class touches. -/

namespace Sys2Proof.Machine

/-! ### Fetching a message and its class (R120, R121) -/

theorem runPrlRx_message {s : State} {m : Msg} {rest : List Msg} (hq : s.rxq = m :: rest)
    (hrch : s.rch.msgReceived = false) (htch : s.tch.msgReceived = false) :
    runPrlRx s = exec (decodeMsg s.params m) { s with rxq := rest, trace := s.trace ++ [.tpDequeueMessage] } := by
  have hfetch : fetchMsg s = some (m, ({ s with rxq := rest } : State).emit .tpDequeueMessage) := by
    simp [fetchMsg, latchBusy, hrch, htch, hq]
  simp only [runPrlRx, hfetch, State.emit]

theorem runPrlRx_idle {s : State} (h : s.rxq = [] ∨ s.rch.msgReceived = true ∨ s.tch.msgReceived = true) :
    runPrlRx s = .next s := by
  have hfetch : fetchMsg s = none := by
    unfold fetchMsg latchBusy
    rcases h with hq | hrch | htch
    · simp [hq]
    · simp [hrch]
    · simp [htch]
  simp only [runPrlRx, hfetch]

/-- The row a message decodes to is the one of its class and of the port's layout (R95, R100, R103). -/
theorem decodeMsg_wellFormed {p : Params} {m : Msg} (hm : msgConsistent m) : (decodeMsg p m).WellFormed p := by
  unfold decodeMsg
  split
  case h_1 | h_2 | h_3 | h_4 | h_5 => exact ⟨hm, ‹_›, .inl rfl⟩
  all_goals -- the classes that R95 lists once for each layout
    next hclass hlayout => exact ⟨hm, hclass, .inr (congrArg some hlayout.symm)⟩

/-! ### The pending-send predicates (R124) -/

theorem txPending_iff (s : State) :
    txPending s = true ↔
      s.prlTx.txRequest = true ∨ s.prlTx.state = .layerResetForTransmit ∨ s.prlTx.state = .srcCollisionAvoidance ∨
      s.prlTx.state = .snkCollisionAvoidance ∨
      (s.prlTx.state = .waitForPhyResponse ∧ s.prlTx.txCompleteOk = false) := by
  cases hstate : s.prlTx.state <;> simp [txPending, hstate]

theorem sendPending_iff (s : State) :
    sendPending s = true ↔
      s.tch.msgRequest = true ∨ s.tch.state ≠ .waitForRequestFromPe ∨ (txPending s = true ∧ s.txClient = .tch) := by
  simp [sendPending, or_assoc]

/-! ### The classes subject to deduplication (R126 to R130) -/

/-- From `s` to `t` nothing changed that acceptance and delivery of a message must leave alone: revisions, PRL-HR, the
transmit counters and the error reports made (R132). -/
structure PrlRxSpares (s t : State) : Prop where
  rev : t.rev = s.rev
  prlHr : t.prlHr = s.prlHr
  txCounter : t.txCounter = s.txCounter
  reports : countEmits isErrorReport t.trace = countEmits isErrorReport s.trace

theorem PrlRxSpares.trans {s t u : State} (hst : PrlRxSpares s t) (htu : PrlRxSpares t u) : PrlRxSpares s u where
  rev := htu.rev.trans hst.rev
  prlHr := htu.prlHr.trans hst.prlHr
  txCounter := htu.txCounter.trans hst.txCounter
  reports := htu.reports.trans hst.reports

theorem countEmits_append (p : Emit → Bool) (l k : List Emit) :
    countEmits p (l ++ k) = countEmits p l + countEmits p k := by
  rw [countEmits, List.filter_append, List.length_append, countEmits, countEmits]

/-- A message handed to the PE is no error report. -/
theorem emit_message_spares (s : State) (b : Passed) : PrlRxSpares s (s.emit (.peMessageReceived b)) :=
  ⟨rfl, rfl, rfl, countEmits_append isErrorReport s.trace [.peMessageReceived b]⟩

theorem route_spares (m : Msg) (s : State) : PrlRxSpares s (route m s) := by
  unfold route
  split
  · split <;> exact ⟨rfl, rfl, rfl, rfl⟩
  · exact emit_message_spares s _

theorem route_rxRecord (m : Msg) (s : State) : (route m s).rxRecord = s.rxRecord := by
  unfold route
  split
  · split <;> rfl
  · rfl

theorem afterAccept_spares (m : Msg) (s : State) : PrlRxSpares s (afterAccept m s) := by
  unfold afterAccept afterDiscard
  split <;> exact ⟨rfl, rfl, rfl, rfl⟩

theorem afterAccept_trace (m : Msg) (s : State) : (afterAccept m s).trace = s.trace := by
  unfold afterAccept afterDiscard
  split <;> rfl

/-- Telling TCH that its send was discarded leaves its state. -/
theorem afterAccept_tch_state (m : Msg) (s : State) : (afterAccept m s).tch.state = s.tch.state := by
  unfold afterAccept afterDiscard
  split
  · dsimp only
    split <;> rfl
  · rfl

theorem isDuplicate_iff (m : Msg) (s : State) : isDuplicate m s = true ↔ s.rxRecord.get m.sop = some (hdrId m.hdr) := by
  simp only [isDuplicate, decide_eq_true_eq]

theorem acceptThen_duplicate {m : Msg} {s : State} (deliver : State → State)
    (h : s.rxRecord.get m.sop = some (hdrId m.hdr)) : acceptThen m deliver s = s :=
  if_pos ((isDuplicate_iff m s).mpr h)

theorem acceptThen_accepted {m : Msg} {s : State} (deliver : State → State)
    (h : s.rxRecord.get m.sop ≠ some (hdrId m.hdr)) : acceptThen m deliver s = deliver (afterAccept m s) := by
  rw [acceptThen, if_neg fun hdup => h ((isDuplicate_iff m s).mp hdup), accept_eq]

theorem exec_ping (m : Msg) (s : State) :
    exec (.ping m) s = .next (acceptThen m (fun t => t.emit (.peMessageReceived (.empty m.sop m.hdr))) s) := rfl

/-- One meaning for the eight routed classes (R129). -/
theorem exec_routed {m : Msg} {i : Instr} (hi : i ∈ routedClasses m) (s : State) :
    exec i s = .next (acceptThen m (route m) s) := by
  simp only [routedClasses, List.mem_cons, List.not_mem_nil, or_false] at hi
  rcases hi with rfl | rfl | rfl | rfl | rfl | rfl | rfl | rfl <;> rfl

/-- One shape for the nine classes subject to deduplication: acceptance, then a delivery that writes no ID. -/
theorem exec_dedup {m : Msg} {i : Instr} (hi : i ∈ dedupClasses m) :
    ∃ deliver : State → State, (∀ s, exec i s = .next (acceptThen m deliver s)) ∧
      (∀ u, PrlRxSpares u (deliver u)) ∧ ∀ u, (deliver u).rxRecord = u.rxRecord := by
  rcases List.mem_cons.mp hi with rfl | hrouted
  · exact ⟨_, exec_ping m, fun u => emit_message_spares u _, fun _ => rfl⟩
  · exact ⟨route m, exec_routed hrouted, route_spares m, route_rxRecord m⟩

/-- After a message, dropped or accepted, the variant's record is its ID (R126, R127). -/
theorem acceptThen_rxRecord (m : Msg) {deliver : State → State} (hrec : ∀ u, (deliver u).rxRecord = u.rxRecord)
    (s : State) : (acceptThen m deliver s).rxRecord.get m.sop = some (hdrId m.hdr) := by
  by_cases hdup : s.rxRecord.get m.sop = some (hdrId m.hdr)
  · rw [acceptThen_duplicate deliver hdup, hdup]
  · rw [acceptThen_accepted deliver hdup, hrec]
    exact PerSop.get_set_self _ _ _

theorem acceptThen_spares (m : Msg) {deliver : State → State} (hspares : ∀ u, PrlRxSpares u (deliver u)) (s : State) :
    PrlRxSpares s (acceptThen m deliver s) := by
  by_cases hdup : s.rxRecord.get m.sop = some (hdrId m.hdr)
  · rw [acceptThen_duplicate deliver hdup]
    exact ⟨rfl, rfl, rfl, rfl⟩
  · rw [acceptThen_accepted deliver hdup]
    exact (afterAccept_spares m s).trans (hspares _)

/-! ### Soft Reset (R123, R125) -/

/-- The confirmation that a Soft Reset on `v` leaves to be counted: the one PRL-TX is forced off, unless it is `v`'s own
(R339, D55, log 19). -/
theorem softReset_owed (v : Sop) (s : State) :
    (if s.txSop = v then s.txOwed else (keepConfirmation s).txOwed) =
      if s.txSop ≠ v ∧ s.prlTx.state = .waitForPhyResponse ∧ s.prlTx.txCompleteOk = true then some s.txSop
      else s.txOwed := by
  by_cases hv : s.txSop = v <;> simp [hv]

/-- The reports of a Soft Reset to the PE, in their order. -/
theorem softReset_trace (s : State) :
    ((if sendPending s then s.emit .peReportDiscard else s).emit .peGotSoftReset).trace =
      s.trace ++ (if sendPending s then [.peReportDiscard, .peGotSoftReset] else [.peGotSoftReset]) := by
  split <;> simp

end Sys2Proof.Machine

/-! ### The statements -/

namespace Sys2Proof

open Sys2Proof.Machine

/-- Settles O15: the class has no effect, and R100's first row names it. -/
theorem malformedMessageDropped : Obligations.MalformedMessageDropped := by
  refine ⟨fun _ _ => rfl, fun p m hext hndo => ?_⟩
  have hclass : classify p m = .malformedExt := (messageClasses p m).1.mpr ⟨hext, hndo⟩
  simp only [decodeMsg, hclass]

/-- Settles O17, the second predicate by way of the first. -/
theorem pendingSendPredicates : Obligations.PendingSendPredicates := fun s => ⟨txPending_iff s, sendPending_iff s⟩

/-- Settles O11, by R120's two cases of the fetch. -/
theorem stepRunsQueuedMessage : Obligations.StepRunsQueuedMessage := by
  intro s later hloop hnone
  rw [step_subStep hloop hnone]
  exact ⟨fun _ _ hq hrch htch => ⟨runPrlRx_message hq hrch htch, decodeMsg_wellFormed⟩, fun h => runPrlRx_idle h⟩

/-- Settles O16: the forced moves of PRL-TX, RCH and TCH as one update each, with what stays owed and the reports. -/
theorem softResetReceived : Obligations.SoftResetReceived := by
  refine ⟨fun m s => ?_, fun p m hext hndo htyp => ?_⟩
  · rw [← softReset_owed, ← softReset_trace]
    simp only [exec, execSoftReset, Machine.softResetReceived, gotoPrlTx_phyReset, rearmRch_eq, rearmTch_eq]
    split <;> rfl
  · have hclass : classify p m = .softReset := (messageClasses p m).2.1.mpr ⟨hext, hndo, htyp⟩
    simp only [decodeMsg, hclass]

/-- Settles O18: of the nine classes none gets past the dispatch with the ID on record. -/
theorem duplicateDropped : Obligations.DuplicateDropped := by
  intro m s i hi hdup
  obtain ⟨deliver, hexec, -, -⟩ := exec_dedup hi
  rw [hexec, acceptThen_duplicate deliver hdup]

/-- Settles O19. -/
theorem pingDelivered : Obligations.PingDelivered := by
  intro m s hnew
  rw [exec_ping, acceptThen_accepted _ hnew, State.emit, afterAccept_trace]

/-- Settles O20: routing reads the revision and TCH's state, and acceptance leaves both. -/
theorem messageRouted : Obligations.MessageRouted := by
  intro m s i hi hnew
  rw [exec_routed hi, acceptThen_accepted _ hnew, ← (afterAccept_spares m s).rev, ← afterAccept_tch_state m s,
    ← afterAccept_trace m s]
  simp only [route, chunkingEngaged, decide_eq_true_eq]
  rfl

/-- Settles O21: the first message leaves its ID on record, so the second is a duplicate (O18). -/
theorem secondDeliveryDropped : Obligations.SecondDeliveryDropped := by
  intro m n i j s t hi hj hsop hid hfirst
  obtain ⟨deliver, hexec, -, hrec⟩ := exec_dedup hi
  rw [hexec] at hfirst
  obtain rfl := Host.Outcome.next.inj hfirst
  refine duplicateDropped n _ j hj ?_
  rw [hsop, hid]
  exact acceptThen_rxRecord m hrec s

/-- Settles O22, by the three ways PRL-RX treats a class: dropped, Soft Reset, accepted unless a duplicate. -/
theorem prlRxNeverBlocksOrReports : Obligations.PrlRxNeverBlocksOrReports := by
  intro m s i hi
  obtain rfl | hi := List.mem_cons.mp hi
  · exact ⟨s, rfl, rfl, rfl, fun _ _ => rfl, rfl⟩
  obtain rfl | hdedup := List.mem_cons.mp hi
  · refine ⟨_, softResetReceived.1 m s, rfl, rfl, fun _ hv => PerSop.get_set_ne _ _ hv, ?_⟩
    rw [countEmits_append]
    split <;> rfl
  · obtain ⟨deliver, hexec, hspares, -⟩ := exec_dedup hdedup
    have kept := acceptThen_spares m hspares s
    exact ⟨_, hexec s, kept.rev, kept.prlHr, fun v _ => by rw [kept.txCounter], kept.reports⟩

end Sys2Proof
end

section
/-! PROOFS. PRL-TX (R140 to R160): its entries and its run in each state, each as one update of the port. -/

namespace Sys2Proof.Machine

/-! ### The client told and the timers left (R141, R147, R150) -/

theorem notify_tch {s : State} (h : s.txClient = .tch) (x : TxOutcome) :
    notify x s = { s with tch := s.tch.setOutcome x } := by rw [notify, h]

theorem notify_rch {s : State} (h : s.txClient = .rch) (x : TxOutcome) :
    notify x s = { s with rch := s.rch.setOutcome x } := by rw [notify, h]

/-- Two of PRL-TX's states own a timer; leaving any other disarms none. -/
theorem prlTxTimersOff_untimed {s : State} (hphy : s.prlTx.state ≠ .waitForPhyResponse)
    (hsrc : s.prlTx.state ≠ .srcCollisionAvoidance) : prlTxTimersOff s = s.timers := by
  simp only [prlTxTimersOff, if_neg hphy, if_neg hsrc]

theorem prlTxTimersOff_srcCollisionAvoidance {s : State} (h : s.prlTx.state = .srcCollisionAvoidance) :
    prlTxTimersOff s = { s.timers with srcCa := Timer.off } := by
  simp [prlTxTimersOff, h]

theorem prlTxTimersOff_waitForPhyResponse {s : State} (h : s.prlTx.state = .waitForPhyResponse) :
    prlTxTimersOff s = { s.timers with txResponse := Timer.off } := by
  simp [prlTxTimersOff, h]

/-- PRL-TX transmits from a state that owns no timer. -/
theorem gotoPrlTx_waitForPhyResponse_untimed {s : State} (hphy : s.prlTx.state ≠ .waitForPhyResponse)
    (hsrc : s.prlTx.state ≠ .srcCollisionAvoidance) : gotoPrlTx .waitForPhyResponse s = afterTransmit s := by
  rw [gotoPrlTx_waitForPhyResponse, prlTxTimersOff_untimed hphy hsrc]

/-- PRL-TX becomes idle from a state that owns no timer. -/
theorem gotoPrlTx_waitForMessageRequest_untimed {s : State} (hphy : s.prlTx.state ≠ .waitForPhyResponse)
    (hsrc : s.prlTx.state ≠ .srcCollisionAvoidance) : gotoPrlTx .waitForMessageRequest s = afterPrlTxIdle s := by
  rw [gotoPrlTx_waitForMessageRequest, prlTxTimersOff_untimed hphy hsrc]

/-- Telling the client and becoming idle write different fields, so their order does not matter. -/
theorem gotoPrlTx_waitForMessageRequest_notify (x : TxOutcome) (s : State) :
    gotoPrlTx .waitForMessageRequest (notify x s) = notify x (gotoPrlTx .waitForMessageRequest s) := by
  simp only [notify_eq, gotoPrlTx_waitForMessageRequest]
  rfl

/-- The end of a transmission: the client is told, and PRL-TX is idle with T_TX_RESPONSE disarmed. -/
theorem gotoPrlTx_waitForMessageRequest_response {s : State} (h : s.prlTx.state = .waitForPhyResponse) (x : TxOutcome) :
    gotoPrlTx .waitForMessageRequest (notify x s) = notify x (afterResponse s) := by
  rw [gotoPrlTx_waitForMessageRequest_notify, gotoPrlTx_waitForMessageRequest, prlTxTimersOff_waitForPhyResponse h]
  rfl

/-! ### The conditions of WaitForMessageRequest (R144, R145) -/

theorem isSoftReset_iff (p : Params) (sl : TxSlot) :
    sl.isSoftReset p = true ↔ sl.ext = false ∧ sl.ndo = 0 ∧ sl.typ = p.ctrlSoftReset := by
  simp [TxSlot.isSoftReset, and_assoc]

theorem caApplies_iff (s : State) (v : Sop) :
    caApplies s v = true ↔ v = .plain ∧ s.rev.get .plain = rev30 ∧ s.txClient = .tch ∧ s.nextChunkToSend = 0 := by
  simp [caApplies, and_assoc]

/-! ### The run in each state -/

theorem runPrlTx_phyReset {s : State} (h : s.prlTx.state = .phyReset) : runPrlTx s = afterPrlTxIdle s := by
  rw [← gotoPrlTx_waitForMessageRequest_untimed (by rw [h]; decide) (by rw [h]; decide), runPrlTx, h]

theorem runPrlTx_discardMessage {s : State} (h : s.prlTx.state = .discardMessage) : runPrlTx s = afterPrlTxIdle s := by
  rw [← gotoPrlTx_waitForMessageRequest_untimed (by rw [h]; decide) (by rw [h]; decide), runPrlTx, h]

theorem runPrlTx_waitForMessageRequest {s : State} (h : s.prlTx.state = .waitForMessageRequest) :
    runPrlTx s = runWaitForMessageRequest s := by rw [runPrlTx, h]

theorem runPrlTx_noRequest {s : State} (h : s.prlTx.state = .waitForMessageRequest) (hreq : s.prlTx.txRequest = false) :
    runPrlTx s = { s with prlTx := { s.prlTx with txCompleteOk := false, txCompleteFail := false } } := by
  rw [runPrlTx_waitForMessageRequest h, runWaitForMessageRequest, if_neg (by rw [hreq]; decide)]
  rfl

theorem runPrlTx_softReset {s : State} (h : s.prlTx.state = .waitForMessageRequest) (hreq : s.prlTx.txRequest = true)
    (hsoft : s.txSlot.ext = false ∧ s.txSlot.ndo = 0 ∧ s.txSlot.typ = s.params.ctrlSoftReset) :
    runPrlTx s =
      { s with
        prlTx := { s.prlTx with state := .layerResetForTransmit }
        txCounter := s.txCounter.set s.txSlot.sop 0
        rxRecord := s.rxRecord.set s.txSlot.sop none } := by
  rw [runPrlTx_waitForMessageRequest h, runWaitForMessageRequest, if_pos hreq, if_pos ((isSoftReset_iff _ _).mpr hsoft),
    gotoPrlTx_layerResetForTransmit, prlTxTimersOff_untimed (by rw [h]; decide) (by rw [h]; decide)]

theorem runPrlTx_collisionAvoidance {s : State} (h : s.prlTx.state = .waitForMessageRequest)
    (hreq : s.prlTx.txRequest = true)
    (hsoft : ¬(s.txSlot.ext = false ∧ s.txSlot.ndo = 0 ∧ s.txSlot.typ = s.params.ctrlSoftReset))
    (hca : s.txSlot.sop = .plain ∧ s.rev.get .plain = rev30 ∧ s.txClient = .tch ∧ s.nextChunkToSend = 0) :
    runPrlTx s =
      if s.powerRole = .source then
        { s with
          prlTx := { s.prlTx with state := .srcCollisionAvoidance }
          rpValue := .ng
          timers := { s.timers with srcCa := Timer.on }
          trace := s.trace ++ [.tpSetRp .ng] }
      else { s with prlTx := { s.prlTx with state := .snkCollisionAvoidance } } := by
  have htimers : prlTxTimersOff s = s.timers := prlTxTimersOff_untimed (by rw [h]; decide) (by rw [h]; decide)
  rw [runPrlTx_waitForMessageRequest h, runWaitForMessageRequest, if_pos hreq,
    if_neg (mt (isSoftReset_iff _ _).mp hsoft), if_pos ((caApplies_iff _ _).mpr hca)]
  split
  next hrole => rw [if_pos hrole, gotoPrlTx_srcCollisionAvoidance, htimers]
  next hrole => rw [if_neg (by rw [hrole]; decide), gotoPrlTx_snkCollisionAvoidance, htimers]

theorem runPrlTx_transmit {s : State} (h : s.prlTx.state = .waitForMessageRequest) (hreq : s.prlTx.txRequest = true)
    (hsoft : ¬(s.txSlot.ext = false ∧ s.txSlot.ndo = 0 ∧ s.txSlot.typ = s.params.ctrlSoftReset))
    (hca : ¬(s.txSlot.sop = .plain ∧ s.rev.get .plain = rev30 ∧ s.txClient = .tch ∧ s.nextChunkToSend = 0)) :
    runPrlTx s = afterTransmit s := by
  rw [runPrlTx_waitForMessageRequest h, runWaitForMessageRequest, if_pos hreq,
    if_neg (mt (isSoftReset_iff _ _).mp hsoft), if_neg (mt (caApplies_iff _ _).mp hca),
    gotoPrlTx_waitForPhyResponse_untimed (by rw [h]; decide) (by rw [h]; decide)]

theorem runPrlTx_layerResetForTransmit {s : State} (h : s.prlTx.state = .layerResetForTransmit) :
    runPrlTx s = afterTransmit s := by
  rw [← gotoPrlTx_waitForPhyResponse_untimed (by rw [h]; decide) (by rw [h]; decide), runPrlTx, h]

theorem runPrlTx_srcCollisionAvoidance {s : State} (h : s.prlTx.state = .srcCollisionAvoidance) :
    runPrlTx s =
      if s.timers.srcCa.expired then afterTransmit { s with timers := { s.timers with srcCa := Timer.off } } else s := by
  rw [← prlTxTimersOff_srcCollisionAvoidance h, ← gotoPrlTx_waitForPhyResponse, runPrlTx, h]
  rfl

theorem runPrlTx_snkCollisionAvoidance {s : State} (h : s.prlTx.state = .snkCollisionAvoidance) :
    runPrlTx s = if s.frsActive = true ∨ s.ccSinkTx = .ok then afterTransmit s else s := by
  rw [← gotoPrlTx_waitForPhyResponse_untimed (by rw [h]; decide) (by rw [h]; decide), runPrlTx, h]
  simp only [Bool.or_eq_true, decide_eq_true_eq]

/-- The order of R153: confirmation, failure, timeout, none of them. -/
theorem runPrlTx_waitForPhyResponse {s : State} (h : s.prlTx.state = .waitForPhyResponse) :
    runPrlTx s =
      if s.prlTx.txCompleteOk then
        notify .done { afterResponse s with txCounter := s.txCounter.set s.txSop (s.txCounter.get s.txSop + 1) }
      else if s.prlTx.txCompleteFail then notify .error (afterResponse s)
      else if s.timers.txResponse.expired then notify .error (afterResponse s)
      else s := by
  have hrun : runPrlTx s = runWaitForPhyResponse s := by rw [runPrlTx, h]
  rw [hrun, runWaitForPhyResponse]
  split
  · exact gotoPrlTx_waitForMessageRequest_response (by exact h) .done
  split
  · exact gotoPrlTx_waitForMessageRequest_response (by exact h) .error
  · rw [gotoPrlTx_waitForMessageRequest_response h]
    rfl

/-! ### The statements about PRL-TX alone -/

/-- Settles O33: the client's machine is the one `notify` looks up in the slot's client. -/
theorem submissionAndReport : Obligations.SubmissionAndReport := fun _ =>
  ⟨fun _ _ => rfl, fun h => ⟨notify_tch h .done, notify_tch h .error, notify_tch h .discarded⟩,
    fun h => ⟨notify_rch h .done, notify_rch h .error, notify_rch h .discarded⟩⟩

/-- Settles O34, by R144's tree of conditions, one run equation at each leaf. -/
theorem prlTxTakesMessage : Obligations.PrlTxTakesMessage := by
  refine fun s => ⟨gotoPrlTx_waitForMessageRequest s, fun h => ?_⟩
  cases hreq : s.prlTx.txRequest with
  | false => exact runPrlTx_noRequest h hreq
  | true =>
    rw [if_pos rfl]
    split
    next hsoft => exact runPrlTx_softReset h hreq hsoft
    next hsoft =>
      split
      next hca => exact runPrlTx_collisionAvoidance h hreq hsoft hca
      next hca => exact runPrlTx_transmit h hreq hsoft hca

/-- The message type read back from a header that was built with it (R92, R93). -/
theorem hdrType_makeHdr (ext : Bool) (ndo id : BitVec 3) (pr : Bool) (rev : BitVec 2) (dr : Bool) (typ : BitVec 5) :
    hdrType (makeHdr ext ndo id pr rev dr typ) = typ :=
  BitVec.extractLsb'_append_eq_right

/-- Settles O35: the first run leaves the variant's counter 0, from which the second makes the header. -/
theorem softResetSentWithIdZero : Obligations.SoftResetSentWithIdZero := by
  refine fun s => ⟨runPrlTx_layerResetForTransmit, fun h hreq hext hndo htyp => ?_⟩
  rw [runPrlTx_softReset h hreq ⟨hext, hndo, htyp⟩]
  refine ⟨rfl, PerSop.get_set_self _ _ _, PerSop.get_set_self _ _ _, ?_⟩
  rw [runPrlTx_layerResetForTransmit rfl]
  refine ⟨_, _, rfl, ?_, ?_⟩
  · rw [hdrId_makeHdr, PerSop.get_set_self]
  · rw [hdrType_makeHdr, htyp]

/-- Settles O36. -/
theorem collisionAvoidance : Obligations.CollisionAvoidance := fun s =>
  ⟨gotoPrlTx_srcCollisionAvoidance s, runPrlTx_srcCollisionAvoidance, runPrlTx_snkCollisionAvoidance⟩

/-- Settles O37. -/
theorem transmissionOutcome : Obligations.TransmissionOutcome := fun s =>
  ⟨gotoPrlTx_waitForPhyResponse s, runPrlTx_waitForPhyResponse, stepPrlTx_none,
    fun _ howed => by rw [stepPrlTx, countOwed_some howed]⟩

/-- Settles O38. -/
theorem prlTxTransientStates : Obligations.PrlTxTransientStates := by
  refine fun s => ⟨gotoPrlTx_phyReset s, ?_, rearmPrlTx_eq s, fun h => h.elim runPrlTx_phyReset runPrlTx_discardMessage⟩
  rw [gotoPrlTx_discardMessage, notify_eq]
  rfl

end Sys2Proof.Machine
end

section
/-! PROOFS. Message IDs over the whole port (R158, R159, R339): what each sub-step can do to the counters, which steps
transmit, and that a confirmed transmission is counted by the end of PRL-TX's sub-step. -/

namespace Sys2Proof.Machine

/-! ### PRL-TX -/

/-- A write to one variant leaves a variant as it was, or was to that variant. -/
theorem PerSop.get_set_cases {α : Type} (a : PerSop α) (w v : Sop) (x : α) :
    (a.set w x).get v = a.get v ∨ (v = w ∧ (a.set w x).get v = x) := by
  by_cases hv : v = w
  · subst hv
    exact .inr ⟨rfl, PerSop.get_set_self _ _ _⟩
  · exact .inl (PerSop.get_set_ne _ _ hv)

theorem notify_txCounter (x : TxOutcome) (s : State) : (notify x s).txCounter = s.txCounter := by rw [notify_eq]

/-- A run of PRL-TX leaves the counters, counts a confirmed transmission (R150), or enters LayerResetForTransmit for the
slot's variant (R146). -/
theorem runPrlTx_txCounter (s : State) :
    (runPrlTx s).txCounter = s.txCounter ∨
    (s.prlTx.state = .waitForPhyResponse ∧ s.prlTx.txCompleteOk = true ∧
      (runPrlTx s).txCounter = s.txCounter.set s.txSop (s.txCounter.get s.txSop + 1)) ∨
    (s.prlTx.state = .waitForMessageRequest ∧ s.prlTx.txRequest = true ∧
      (runPrlTx s).prlTx.state = .layerResetForTransmit ∧
      (runPrlTx s).txCounter = s.txCounter.set s.txSlot.sop 0) := by
  cases hs : s.prlTx.state with
  | phyReset => exact .inl (by rw [runPrlTx_phyReset hs]; rfl)
  | waitForMessageRequest =>
    rw [(prlTxTakesMessage s).2 hs]
    split
    next hreq =>
      split
      · exact .inr (.inr ⟨rfl, hreq, rfl, rfl⟩)
      · refine .inl ?_
        split
        · split <;> rfl
        · rfl
    next => exact .inl rfl
  | layerResetForTransmit => exact .inl (by rw [runPrlTx_layerResetForTransmit hs]; rfl)
  | srcCollisionAvoidance => exact .inl (by rw [runPrlTx_srcCollisionAvoidance hs]; split <;> rfl)
  | snkCollisionAvoidance => exact .inl (by rw [runPrlTx_snkCollisionAvoidance hs]; split <;> rfl)
  | waitForPhyResponse =>
    rw [runPrlTx_waitForPhyResponse hs]
    split
    next hok => exact .inr (.inl ⟨rfl, hok, notify_txCounter _ _⟩)
    next =>
      refine .inl ?_
      split
      · exact notify_txCounter _ _
      split
      · exact notify_txCounter _ _
      · rfl
  | discardMessage => exact .inl (by rw [runPrlTx_discardMessage hs]; rfl)

/-- PRL-TX stands in a state that PRL-RX forces it into (R123, R155). -/
abbrev ForcedOff (s : State) : Prop := s.prlTx.state = .phyReset ∨ s.prlTx.state = .discardMessage

theorem runPrlTx_forcedOff {s : State} (hoff : ForcedOff s) : runPrlTx s = afterPrlTxIdle s :=
  hoff.elim runPrlTx_phyReset runPrlTx_discardMessage

/-- Forced off and owing, PRL-TX counts what it owes and becomes idle (R339). -/
theorem stepPrlTx_owing {s : State} {v : Sop} (hoff : ForcedOff s) (howed : s.txOwed = some v) :
    stepPrlTx s =
      afterPrlTxIdle { s with txCounter := s.txCounter.set v (s.txCounter.get v + 1), txOwed := none } := by
  rw [stepPrlTx, countOwed_some howed]
  exact runPrlTx_forcedOff hoff

/-- PRL-TX's next sub-step counts a transmission on `v`: it is confirmed and PRL-TX still waits for it, or PRL-TX was
forced off it and owes it (R339, log 19). `stepPrlTx_counts` says that it does. -/
def AwaitsCount (v : Sop) (s : State) : Prop :=
  (s.prlTx.state = .waitForPhyResponse ∧ s.prlTx.txCompleteOk = true ∧ s.txOwed = none ∧ s.txSop = v) ∨
  (ForcedOff s ∧ s.txOwed = some v)

theorem stepPrlTx_counts {s : State} {v : Sop} (h : AwaitsCount v s) :
    (stepPrlTx s).txCounter.get v = s.txCounter.get v + 1 := by
  rcases h with ⟨hstate, hok, howed, rfl⟩ | ⟨hoff, howed⟩
  · rw [stepPrlTx_none howed, runPrlTx_waitForPhyResponse hstate, if_pos hok, notify_txCounter]
    exact PerSop.get_set_self _ _ _
  · rw [stepPrlTx_owing hoff howed]
    exact PerSop.get_set_self _ _ _

/-- What PRL-TX's sub-step can do to a variant's counter, where it owes nothing unless it was forced off. -/
theorem stepPrlTx_txCounter {s : State} (v : Sop) (howed : s.txOwed ≠ none → ForcedOff s) :
    (stepPrlTx s).txCounter.get v = s.txCounter.get v ∨
    ((stepPrlTx s).txCounter.get v = s.txCounter.get v + 1 ∧
      ((s.prlTx.state = .waitForPhyResponse ∧ s.prlTx.txCompleteOk = true ∧ v = s.txSop) ∨ s.txOwed = some v)) ∨
    ((stepPrlTx s).txCounter.get v = 0 ∧ s.prlTx.state = .waitForMessageRequest ∧ s.prlTx.txRequest = true ∧
      (stepPrlTx s).prlTx.state = .layerResetForTransmit ∧ s.txSlot.sop = v) := by
  by_cases hnone : s.txOwed = none
  · rw [stepPrlTx_none hnone]
    rcases runPrlTx_txCounter s with hsame | ⟨hstate, hok, hcounter⟩ | ⟨hstate, hreq, hlayer, hcounter⟩
    · exact .inl (by rw [hsame])
    · rw [hcounter]
      refine (PerSop.get_set_cases _ _ v _).imp_right ?_
      rintro ⟨rfl, hset⟩
      exact .inl ⟨hset, .inl ⟨hstate, hok, rfl⟩⟩
    · rw [hcounter]
      refine (PerSop.get_set_cases _ _ v _).imp_right ?_
      rintro ⟨rfl, hset⟩
      exact .inr ⟨hset, hstate, hreq, hlayer, rfl⟩
  · obtain ⟨w, hw⟩ := Option.ne_none_iff_exists'.mp hnone
    rw [stepPrlTx_owing (howed hnone) hw]
    refine (PerSop.get_set_cases _ w v _).imp_right ?_
    rintro ⟨rfl, hset⟩
    exact .inl ⟨hset, .inr hw⟩

/-- Forced off and owing nothing, PRL-TX counts nothing. -/
theorem stepPrlTx_txCounter_forcedOff {s : State} (hoff : ForcedOff s) (howed : s.txOwed = none) :
    (stepPrlTx s).txCounter = s.txCounter := by
  rw [stepPrlTx_none howed, runPrlTx_forcedOff hoff]
  rfl

/-! ### PRL-RX -/

/-- A message is dropped as malformed, received as a Soft Reset, or accepted unless it is a duplicate (R121). -/
theorem decodeMsg_cases (p : Params) (m : Msg) :
    decodeMsg p m = .malformedExt m ∨ (classify p m = .softReset ∧ decodeMsg p m = .softReset m) ∨
    decodeMsg p m ∈ dedupClasses m := by
  unfold decodeMsg
  split
  case h_1 => exact .inl rfl
  case h_2 => exact .inr (.inl ⟨‹_›, rfl⟩)
  all_goals exact .inr (.inr (by simp [dedupClasses, routedClasses]))

theorem route_confirmation (m : Msg) (s : State) : confirmation (route m s) = confirmation s := by
  unfold route
  split
  · split <;> rfl
  · rfl

/-- No counter moved from `s` to `t`, and PRL-TX stands with its transmission as before, or was forced off a pending
send with what it owes kept (R127, log 19). -/
def KeepsCount (s t : State) : Prop :=
  t.txCounter = s.txCounter ∧
  (confirmation t = confirmation s ∨ (t.prlTx.state = .discardMessage ∧ t.txOwed = owedBy s))

theorem afterAccept_keepsCount (m : Msg) (s : State) : KeepsCount s (afterAccept m s) := by
  refine ⟨(afterAccept_spares m s).txCounter, ?_⟩
  unfold afterAccept afterDiscard
  split
  · exact .inr ⟨rfl, rfl⟩
  · exact .inl rfl

/-- A delivery that moves no counter and leaves PRL-TX alone adds nothing to what acceptance does. -/
theorem acceptThen_keepsCount (m : Msg) {deliver : State → State} (hspares : ∀ u, PrlRxSpares u (deliver u))
    (hconf : ∀ u, confirmation (deliver u) = confirmation u) (s : State) : KeepsCount s (acceptThen m deliver s) := by
  by_cases hdup : s.rxRecord.get m.sop = some (hdrId m.hdr)
  · rw [acceptThen_duplicate deliver hdup]
    exact ⟨rfl, .inl rfl⟩
  · rw [acceptThen_accepted deliver hdup]
    obtain ⟨hcounter, hprlTx⟩ := afterAccept_keepsCount m s
    have hdeliver := hconf (afterAccept m s)
    obtain ⟨hstate, -, howed⟩ : _ ∧ _ ∧ _ := by simpa only [confirmation, Prod.mk.injEq] using hdeliver
    refine ⟨(hspares _).txCounter.trans hcounter, hprlTx.imp hdeliver.trans ?_⟩
    rintro ⟨hdiscard, howedBy⟩
    exact ⟨hstate.trans hdiscard, howed.trans howedBy⟩

theorem exec_dedup_keepsCount {m : Msg} {i : Instr} (hi : i ∈ dedupClasses m) {s t : State} (h : exec i s = .next t) :
    KeepsCount s t := by
  rcases List.mem_cons.mp hi with rfl | hrouted
  · rw [exec_ping] at h
    cases h
    exact acceptThen_keepsCount m (fun u => emit_message_spares u _) (fun _ => rfl) s
  · rw [exec_routed hrouted] at h
    cases h
    exact acceptThen_keepsCount m (route_spares m) (route_confirmation m) s

/-- PRL-RX's sub-step takes a Soft Reset on `v` (R120, R123). -/
abbrev TakesSoftReset (v : Sop) (s : State) : Prop :=
  s.rch.msgReceived = false ∧ s.tch.msgReceived = false ∧
  ∃ m rest, s.rxq = m :: rest ∧ classify s.params m = .softReset ∧ m.sop = v

/-- What PRL-RX's sub-step does to the counters and to PRL-TX's transmission: a Soft Reset restarts one counter and
forces PRL-TX off (R123, log 19), anything else moves no counter. -/
theorem runPrlRx_txCounter {s t : State} (h : runPrlRx s = .next t) :
    KeepsCount s t ∨
    ∃ v, TakesSoftReset v s ∧ t.txCounter = s.txCounter.set v 0 ∧ t.prlTx.state = .phyReset ∧
      t.txOwed =
        if s.txSop ≠ v ∧ s.prlTx.state = .waitForPhyResponse ∧ s.prlTx.txCompleteOk = true then some s.txSop
        else s.txOwed := by
  by_cases hidle : s.rxq = [] ∨ s.rch.msgReceived = true ∨ s.tch.msgReceived = true
  · rw [runPrlRx_idle hidle] at h
    cases h
    exact .inl ⟨rfl, .inl rfl⟩
  · simp only [not_or, Bool.not_eq_true] at hidle
    obtain ⟨hqueue, hrch, htch⟩ := hidle
    obtain ⟨m, rest, hq⟩ := List.exists_cons_of_ne_nil hqueue
    rw [runPrlRx_message hq hrch htch] at h
    rcases decodeMsg_cases s.params m with hmalformed | ⟨hclass, hsoft⟩ | hdedup
    · rw [hmalformed] at h
      cases h
      exact .inl ⟨rfl, .inl rfl⟩
    · rw [hsoft, Sys2Proof.softResetReceived.1] at h
      cases h
      exact .inr ⟨m.sop, ⟨hrch, htch, m, rest, hq, hclass, rfl⟩, rfl, rfl, rfl⟩
    · exact .inl (exec_dedup_keepsCount hdedup h :)

/-- PRL-RX's sub-step leaves a confirmed transmission to be counted by the next sub-step of PRL-TX, unless it takes a
Soft Reset on the same variant (R339, log 19). -/
theorem runPrlRx_awaitsCount {s t : State} (hstate : s.prlTx.state = .waitForPhyResponse)
    (hok : s.prlTx.txCompleteOk = true) (howed : s.txOwed = none) (h : runPrlRx s = .next t) :
    (t.txCounter.get s.txSop = s.txCounter.get s.txSop ∧ AwaitsCount s.txSop t) ∨
    (t.txCounter.get s.txSop = 0 ∧ ForcedOff t ∧ t.txOwed = none ∧ TakesSoftReset s.txSop s) := by
  have hsop : t.txSop = s.txSop := congrArg Prod.fst (runPrlRx_sent h)
  rcases runPrlRx_txCounter h with ⟨hcounter, hkept | ⟨hoff, htOwed⟩⟩ | ⟨v, hsoft, hcounter, hoff, htOwed⟩
  · obtain ⟨htState, htOk, htOwed⟩ : _ ∧ _ ∧ _ := by simpa only [confirmation, Prod.mk.injEq] using hkept
    exact .inl ⟨by rw [hcounter], .inl ⟨htState.trans hstate, htOk.trans hok, htOwed.trans howed, hsop⟩⟩
  · rw [owedBy, if_pos ⟨hstate, hok⟩] at htOwed
    exact .inl ⟨by rw [hcounter], .inr ⟨.inr hoff, htOwed⟩⟩
  · by_cases hv : s.txSop = v
    · subst hv
      rw [if_neg fun other => other.1 rfl] at htOwed
      exact .inr ⟨by rw [hcounter, PerSop.get_set_self], .inl hoff, htOwed.trans howed, hsoft⟩
    · rw [if_pos ⟨hv, hstate, hok⟩] at htOwed
      exact .inl ⟨by rw [hcounter, PerSop.get_set_ne _ _ hv], .inr ⟨.inl hoff, htOwed⟩⟩

/-! ### PRL-HR -/

theorem gotoPrlHr_txCounter {t : PrlHrState} (ht : t ≠ .resetLayer) (s : State) :
    (gotoPrlHr t s).txCounter = s.txCounter := by
  rw [gotoPrlHr, exitPrlHr_eq]
  cases t with
  | resetLayer => exact absurd rfl ht
  | waitForRequest => rfl
  | waitForPhyHardResetComplete => rfl
  | waitForPeHardResetComplete => rfl

theorem gotoPrlHr_resetLayer (s : State) :
    (gotoPrlHr .resetLayer s).txCounter = PerSop.fill 0 ∧ (gotoPrlHr .resetLayer s).prlHr.state = .resetLayer :=
  ⟨rfl, rfl⟩

theorem hrFinalExit_txCounter (s : State) : (hrFinalExit s).txCounter = s.txCounter := by
  simp only [hrFinalExit, rearmPrlTx_eq, rearmRch_eq, rearmTch_eq, State.setRxEnable_txCounter]

/-- A run of PRL-HR moves a counter only by entering ResetLayer (R172). -/
theorem runPrlHr_txCounter (s : State) :
    (runPrlHr s).txCounter = s.txCounter ∨
    (s.prlHr.state = .waitForRequest ∧ (runPrlHr s).prlHr.state = .resetLayer ∧
      (runPrlHr s).txCounter = PerSop.fill 0) := by
  unfold runPrlHr
  split
  next hs =>
    split
    · obtain ⟨hcounter, hstate⟩ := gotoPrlHr_resetLayer s
      exact .inr ⟨hs, hstate, hcounter⟩
    · exact .inl rfl
  next => split <;> exact .inl (gotoPrlHr_txCounter (by decide) _)
  next =>
    split
    · exact .inl (gotoPrlHr_txCounter (by decide) _)
    · exact .inl rfl
  next =>
    split
    · exact .inl ((gotoPrlHr_txCounter (by decide) _).trans (hrFinalExit_txCounter _))
    · exact .inl rfl

/-! ### Sub-steps -/

/-- What R239's frame says of the counters and of PRL-TX's transmission. -/
theorem counted_of_ids {s t : State} (h : ids t = ids s) :
    t.txCounter = s.txCounter ∧ t.prlTx.state = s.prlTx.state ∧ t.prlTx.txCompleteOk = s.prlTx.txCompleteOk ∧
    t.txOwed = s.txOwed ∧ t.txSop = s.txSop := by
  obtain ⟨⟨⟨hcounter, -, -⟩, hstate, hok, howed⟩, hsop, -⟩ : ((_ ∧ _ ∧ _) ∧ _ ∧ _ ∧ _) ∧ _ ∧ _ := by
    simpa only [Prod.mk.injEq] using h
  exact ⟨hcounter, hstate, hok, howed, hsop⟩

/-- The sub-steps of RCH and TCH, and the start of the tick, leave alone what R239 lists. -/
theorem runSubStep_ids {p : SubStep} {s t : State} (hrx : p ≠ .prlRx) (htx : p ≠ .prlTx) (hhr : p ≠ .prlHr)
    (h : runSubStep p s = .next t) : ids t = ids s := by
  cases p with
  | start => cases h; rfl
  | prlRx => exact absurd rfl hrx
  | rch1 => exact (runRch_ids h :)
  | tch1 => exact (runTch_ids h :)
  | prlTx => exact absurd rfl htx
  | rch2 => exact (runRch_ids h :)
  | tch2 => exact (runTch_ids h :)
  | prlHr => exact absurd rfl hhr

/-- PRL-TX's sub-step counts a confirmed transmission on `v` (R150), or one that it owes (R339). -/
abbrev CountsSent (v : Sop) (s t : State) : Prop :=
  s.loop = .tick .prlTx ∧ t.txCounter.get v = s.txCounter.get v + 1 ∧
  ((s.prlTx.state = .waitForPhyResponse ∧ s.prlTx.txCompleteOk = true ∧ v = s.txSop) ∨ s.txOwed = some v)

/-- A sub-step restarts `v`'s counter: a Soft Reset received (R123) or sent (R146) on `v`, or a Hard Reset (R172). -/
abbrev RestartsCounter (v : Sop) (s t : State) : Prop :=
  t.txCounter.get v = 0 ∧
  ((s.loop = .tick .prlRx ∧ TakesSoftReset v s) ∨
    (s.loop = .tick .prlTx ∧ s.prlTx.state = .waitForMessageRequest ∧ s.prlTx.txRequest = true ∧
      t.prlTx.state = .layerResetForTransmit ∧ s.txSlot.sop = v) ∨
    (s.loop = .tick .prlHr ∧ s.prlHr.state = .waitForRequest ∧ t.prlHr.state = .resetLayer))

theorem prlRx_txCounter {s t : State} (v : Sop) (hl : s.loop = .tick .prlRx) (h : runSubStep .prlRx s = .next t) :
    t.txCounter.get v = s.txCounter.get v ∨ RestartsCounter v s t := by
  rcases runPrlRx_txCounter h with ⟨hcounter, -⟩ | ⟨w, hsoft, hcounter, -, -⟩
  · exact .inl (by rw [hcounter])
  · rw [RestartsCounter, hcounter]
    refine (PerSop.get_set_cases _ w v _).imp_right ?_
    rintro ⟨rfl, hzero⟩
    exact ⟨hzero, .inl ⟨hl, hsoft⟩⟩

theorem prlTx_txCounter {s t : State} (v : Sop) (hl : s.loop = .tick .prlTx) (howed : OwedUntilStepped s)
    (h : runSubStep .prlTx s = .next t) :
    t.txCounter.get v = s.txCounter.get v ∨ CountsSent v s t ∨ RestartsCounter v s t := by
  obtain rfl := Host.Outcome.next.inj h
  rcases stepPrlTx_txCounter (s := { s with loop := .tick .rch2 }) v (fun hne => (howed hne).2) with
    hsame | ⟨hcount, hwhy⟩ | ⟨hzero, hstate, hreq, hlayer, hsop⟩
  · exact .inl hsame
  · exact .inr (.inl ⟨hl, hcount, hwhy⟩)
  · exact .inr (.inr ⟨hzero, .inr (.inl ⟨hl, hstate, hreq, hlayer, hsop⟩)⟩)

theorem prlHr_txCounter {s t : State} (v : Sop) (hl : s.loop = .tick .prlHr) (h : runSubStep .prlHr s = .next t) :
    t.txCounter.get v = s.txCounter.get v ∨ RestartsCounter v s t := by
  obtain rfl := Host.Outcome.next.inj h
  rcases runPrlHr_txCounter s with hsame | ⟨hstate, hreset, hcounter⟩
  · exact .inl (by rw [enterWait_txCounter, hsame])
  · exact .inr ⟨by rw [enterWait_txCounter, hcounter, PerSop.get_fill], .inr (.inr ⟨hl, hstate, hreset⟩)⟩

/-- What a sub-step can do to a variant's counter (R159). -/
theorem subStep_txCounter {p : SubStep} {s t : State} (v : Sop) (hl : s.loop = .tick p) (howed : OwedUntilStepped s)
    (h : runSubStep p s = .next t) :
    t.txCounter.get v = s.txCounter.get v ∨ CountsSent v s t ∨ RestartsCounter v s t := by
  by_cases hrx : p = .prlRx
  · subst hrx
    exact (prlRx_txCounter v hl h).imp_right .inr
  by_cases htx : p = .prlTx
  · subst htx
    exact prlTx_txCounter v hl howed h
  by_cases hhr : p = .prlHr
  · subst hhr
    exact (prlHr_txCounter v hl h).imp_right .inr
  exact .inl (by rw [(counted_of_ids (runSubStep_ids hrx htx hhr h)).1])

/-! ### The step -/

theorem decodeEvent_of_decodeLoneEvent {bytes : List Byte} {i : Instr} (h : decodeLoneEvent bytes = .ok i) :
    ∃ more, decodeEvent bytes = .ok (i, more) := by
  simp only [decodeLoneEvent, bind, Except.bind] at h
  split at h
  · cases h
  next decoded hdec =>
    split at h
    · cases h
      exact ⟨decoded.2, hdec⟩
    · cases h

/-- An event moves a counter only as PE.reset_message_ids on its variant (R276). -/
theorem event_txCounter {i : Instr} {s t : State} (v : Sop) (hi : isEvent i = true) (h : exec i s = .next t) :
    t.txCounter.get v = s.txCounter.get v ∨ (t.txCounter.get v = 0 ∧ i = .peResetMessageIds v) := by
  rcases execEvent_cases hi h with ⟨w, r, rfl, rfl⟩ | ⟨w, rfl, rfl⟩ | ⟨u, rfl⟩
  · exact .inl rfl
  · refine (PerSop.get_set_cases s.txCounter w v 0).imp_right ?_
    rintro ⟨rfl, hzero⟩
    exact ⟨hzero, rfl⟩
  · exact .inl rfl

/-- What a step can do to a variant's counter: the first part of O39. -/
theorem step_txCounter {s t : State} (v : Sop) (howed : OwedUntilStepped s) (h : step s = .next t) :
    t.txCounter.get v = s.txCounter.get v ∨
    (t.txCounter.get v = 0 ∧
      ∃ a bytes rest more, s.inputs = ⟨a, bytes⟩ :: rest ∧ (s.loop = .waiting ∨ a = 0) ∧
        decode s.params (.event bytes) = .ok (.peResetMessageIds v, more)) ∨
    ((∃ later, NoEventFor 1 s later) ∧ (CountsSent v s t ∨ RestartsCounter v s t)) := by
  rcases step_cases h with ⟨a, bytes, rest, i, hin, hdue, hdec, hexec⟩ | ⟨-, -, rfl⟩ | ⟨p, later, hl, hnone, hsub⟩
  · rcases event_txCounter v (decodeLoneEvent_isEvent hdec) hexec with hsame | ⟨hzero, rfl⟩
    · exact .inl hsame
    · obtain ⟨more, hdecode⟩ := decodeEvent_of_decodeLoneEvent hdec
      exact .inr (.inl ⟨hzero, a, bytes, rest, more, hin, hdue, hdecode⟩)
  · exact .inl rfl
  · rcases subStep_txCounter (s := { s with inputs := later }) v hl howed hsub with hsame | hmoved
    · exact .inl hsame
    · exact .inr (.inr ⟨⟨later, hnone⟩, hmoved⟩)

/-! ### From the confirmation to its count (R339) -/

theorem AwaitsCount.of_ids {v : Sop} {s t : State} (hids : ids t = ids s) (h : AwaitsCount v s) : AwaitsCount v t := by
  obtain ⟨-, hstate, hok, howed, hsop⟩ := counted_of_ids hids
  unfold AwaitsCount ForcedOff
  rwa [hstate, hok, howed, hsop]

theorem andThen_eq_next {r : Result} {f : State → Result} {t : State} (h : andThen r f = .next t) :
    ∃ u, r = .next u ∧ f u = .next t := by
  cases r with
  | next u => exact ⟨u, rfl, h⟩
  | fault e => nomatch h
  | refused e => nomatch h

/-- Where no event falls, the first of several steps of a tick is its next sub-step, and the others follow. -/
theorem steps_subStep {k : Nat} {p : SubStep} {s t : State} {later : List Input} (hl : s.loop = .tick p)
    (hnone : NoEventFor (k + 1) s later) (h : steps (k + 1) s = .next t) :
    ∃ now u, runSubStep p { s with inputs := now } = .next u ∧ NoEventFor k u later ∧ steps k u = .next t := by
  obtain ⟨now, hnow, hrest⟩ : ∃ now, NoEventFor 1 s now ∧ ∀ u : State, u.inputs = now → NoEventFor k u later := by
    rcases hnone with ⟨hin, rfl⟩ | ⟨a, bytes, rest, hin, rfl⟩
    · exact ⟨[], .inl ⟨hin, rfl⟩, fun u hu => .inl ⟨hu, rfl⟩⟩
    · exact ⟨⟨a + k, bytes⟩ :: rest, .inr ⟨a + k, bytes, rest, hin, rfl⟩, fun u hu => .inr ⟨a, bytes, rest, hu, rfl⟩⟩
  rw [steps, step_subStep hl hnow] at h
  obtain ⟨u, hrun, hafter⟩ := andThen_eq_next h
  obtain ⟨-, hinputs, -⟩ := runSubStep_kept hrun
  exact ⟨now, u, hrun, hrest u hinputs, hafter⟩

/-- The four sub-steps from PRL-RX's to PRL-TX's: RCH and TCH run in between and leave alone what R239 lists. -/
theorem prlRx_to_prlTx {s t : State} {later : List Input} (hl : s.loop = .tick .prlRx) (hnone : NoEventFor 4 s later)
    (h : steps 4 s = .next t) :
    ∃ u w : State, runPrlRx { s with loop := .tick .rch1, inputs := u.inputs } = .next u ∧ ids w = ids u ∧
      t = stepPrlTx w := by
  obtain ⟨now, u1, hrun1, hnone1, h1⟩ := steps_subStep hl hnone h
  have hkept1 := runPrlRx_keeps _ _ hrun1
  obtain ⟨now2, u2, hrun2, hnone2, h2⟩ := steps_subStep hkept1.loop hnone1 h1
  have hkept2 := runRch_keeps _ _ hrun2
  obtain ⟨now3, u3, hrun3, hnone3, h3⟩ := steps_subStep hkept2.loop hnone2 h2
  have hkept3 := runTch_keeps _ _ hrun3
  obtain ⟨now4, u4, hrun4, -, h4⟩ := steps_subStep hkept3.loop hnone3 h3
  obtain rfl := Host.Outcome.next.inj h4
  obtain rfl := Host.Outcome.next.inj hrun4
  refine ⟨u1, _, ?_, ?_, rfl⟩
  · rw [hkept1.inputs]
    exact hrun1
  · have hrch : ids u2 = ids u1 := (runRch_ids hrun2 :)
    have htch : ids u3 = ids u2 := (runTch_ids hrun3 :)
    exact htch.trans hrch

/-- A confirmed transmission is counted whatever PRL-RX dequeues, but for a Soft Reset on its variant: the second part
of O39. -/
theorem confirmed_counted {s t : State} {later : List Input} (howed : OwedUntilStepped s) (hl : s.loop = .tick .prlRx)
    (hstate : s.prlTx.state = .waitForPhyResponse) (hok : s.prlTx.txCompleteOk = true) (hnone : NoEventFor 4 s later)
    (h : steps 4 s = .next t) :
    t.txCounter.get s.txSop = s.txCounter.get s.txSop + 1 ∨
    (t.txCounter.get s.txSop = 0 ∧ TakesSoftReset s.txSop s) := by
  have hnotOwed : s.txOwed = none := by
    by_contra hne
    obtain ⟨hloop, -⟩ := howed hne
    simp [hl] at hloop
  obtain ⟨u, w, hrun, hids, rfl⟩ := prlRx_to_prlTx hl hnone h
  obtain ⟨hcounter, hwState, -, hwOwed, -⟩ := counted_of_ids hids
  rcases runPrlRx_awaitsCount (s := { s with loop := .tick .rch1, inputs := u.inputs }) hstate hok hnotOwed hrun with
    ⟨hsame, hawaits⟩ | ⟨hzero, hoff, huOwed, hsoft⟩
  · refine .inl ?_
    rw [stepPrlTx_counts (hawaits.of_ids hids), hcounter, hsame]
  · refine .inr ⟨?_, hsoft⟩
    have hwOff : ForcedOff w := by rwa [ForcedOff, hwState]
    rw [stepPrlTx_txCounter_forcedOff hwOff (hwOwed.trans huOwed), hcounter, hzero]

/-- Settles O39: what a step can do to a counter, and the way of a confirmed transmission through four steps. -/
theorem counterOnlyCountsConfirmed : Obligations.CounterOnlyCountsConfirmed :=
  ⟨fun _ _ v => step_txCounter v, fun _ _ _ => confirmed_counted⟩

/-! ### Transmissions (R148, R158) -/

/-- From `s` to `t` one message was transmitted, with the ID that its variant's counter holds (R148, R150). -/
structure Transmits (v : Sop) (hdr : Half) (ws : List Word) (s t : State) : Prop where
  before : s.prlTx.state ≠ .waitForPhyResponse
  after : t.prlTx.state = .waitForPhyResponse
  trace : t.trace = s.trace ++ [.tpTransmit v hdr ws]
  txSop : t.txSop = v
  id : hdrId hdr = s.txCounter.get v
  txCounter : t.txCounter = s.txCounter

/-- PRL-TX's sub-step transmits nothing, or one message; where it owes a count it transmits nothing. -/
theorem stepPrlTx_transmits {s : State} (howed : s.txOwed ≠ none → ForcedOff s) :
    sent (stepPrlTx s) = sent s ∨ ∃ v hdr ws, Transmits v hdr ws s (stepPrlTx s) := by
  by_cases hnone : s.txOwed = none
  · rw [stepPrlTx_none hnone]
    rcases runPrlTx_sent s with hsent | ⟨hbefore, hrun⟩
    · exact .inl hsent
    · rw [hrun]
      exact .inr ⟨_, _, _, hbefore, rfl, rfl, rfl, hdrId_makeHdr _ _ _ _ _ _ _, rfl⟩
  · obtain ⟨w, hw⟩ := Option.ne_none_iff_exists'.mp hnone
    rw [stepPrlTx_owing (howed hnone) hw]
    refine .inl (sent_append rfl rfl ?_)
    split <;> rfl

theorem enterWait_sent (s : State) : sent (enterWait s) = sent s := rfl

theorem subStep_transmits {p : SubStep} {s t : State} (howed : OwedUntilStepped s) (h : runSubStep p s = .next t) :
    sent t = sent s ∨ ∃ v hdr ws, Transmits v hdr ws s t := by
  by_cases hrx : p = .prlRx
  · subst hrx
    exact .inl (runPrlRx_sent h :)
  by_cases htx : p = .prlTx
  · subst htx
    obtain rfl := Host.Outcome.next.inj h
    rcases stepPrlTx_transmits (s := { s with loop := .tick .rch2 }) (fun hne => (howed hne).2) with
      hsent | ⟨v, hdr, ws, htransmits⟩
    · exact .inl hsent
    · exact .inr ⟨v, hdr, ws, { htransmits with }⟩
  by_cases hhr : p = .prlHr
  · subst hhr
    obtain rfl := Host.Outcome.next.inj h
    exact .inl ((enterWait_sent _).trans (runPrlHr_sent s))
  exact .inl (congrArg Prod.snd (runSubStep_ids hrx htx hhr h))

/-- An event transmits nothing. -/
theorem event_sent {i : Instr} {s t : State} (hi : isEvent i = true) (h : exec i s = .next t) : sent t = sent s := by
  rcases execEvent_cases hi h with ⟨w, r, rfl, rfl⟩ | ⟨w, rfl, rfl⟩ | ⟨u, rfl⟩ <;> rfl

theorem step_transmits {s t : State} (howed : OwedUntilStepped s) (h : step s = .next t) :
    sent t = sent s ∨ ∃ v hdr ws, Transmits v hdr ws s t := by
  rcases step_cases h with ⟨a, bytes, rest, i, -, -, hdec, hexec⟩ | ⟨-, -, rfl⟩ | ⟨p, later, -, -, hsub⟩
  · exact .inl (event_sent (decodeLoneEvent_isEvent hdec) hexec :)
  · exact .inl rfl
  · rcases subStep_transmits (s := { s with inputs := later }) howed hsub with hsent | ⟨v, hdr, ws, htransmits⟩
    · exact .inl hsent
    · exact .inr ⟨v, hdr, ws, { htransmits with }⟩

/-- Where nothing was sent, what was added to the trace holds no transmission. -/
theorem no_transmit_of_sent {s t : State} {l : List Emit} (htrace : t.trace = s.trace ++ l) (hsent : sent t = sent s)
    (v : Sop) (hdr : Half) (ws : List Word) : .tpTransmit v hdr ws ∉ l := by
  have hfilter : t.trace.filter isTransmit = s.trace.filter isTransmit := congrArg Prod.snd hsent
  rw [htrace, List.filter_append, List.append_right_eq_self, List.filter_eq_nil_iff] at hfilter
  exact fun hmem => hfilter _ hmem rfl

/-- Settles O60: a step that sends nothing adds no transmission, and one that sends adds that one alone. -/
theorem transmittedIdFollowsCounter : Obligations.TransmittedIdFollowsCounter := by
  intro s t howed h
  rcases step_transmits howed h with hsent | ⟨v, hdr, ws, htransmits⟩
  · obtain ⟨-, l, htrace⟩ := step_params_trace h
    exact ⟨l, htrace, fun _ _ _ hmem => absurd hmem (no_transmit_of_sent htrace hsent _ _ _),
      fun _ => congrArg Prod.fst hsent⟩
  · refine ⟨_, htransmits.trace, fun _ _ _ hmem => ?_,
      fun hnone => absurd (List.mem_singleton_self _) (hnone v hdr ws)⟩
    cases List.mem_singleton.mp hmem
    exact ⟨htransmits.before, htransmits.after, htransmits.txSop, htransmits.id, htransmits.txCounter⟩

end Sys2Proof.Machine
end

section
/-! PROOFS. PRL-HR (R170 to R177): its run in each state, as one update of the port. -/

namespace Sys2Proof.Machine

/-! ### Transitions (R171 to R174) -/

/-- One of PRL-HR's states owns a timer; leaving any other writes nothing. -/
theorem exitPrlHr_untimed {s : State} (h : s.prlHr.state ≠ .waitForPhyHardResetComplete) : exitPrlHr s = s := by
  rw [exitPrlHr_eq, if_neg h]

/-- From a state that owns no timer, a goto is the entry alone. -/
theorem gotoPrlHr_untimed {s : State} (h : s.prlHr.state ≠ .waitForPhyHardResetComplete) (t : PrlHrState) :
    gotoPrlHr t s = enterPrlHr (setPrlHrState t s) t := by
  rw [gotoPrlHr, exitPrlHr_untimed h]

theorem gotoPrlHr_waitForRequest_untimed {s : State} (h : s.prlHr.state ≠ .waitForPhyHardResetComplete) :
    gotoPrlHr .waitForRequest s = { s with prlHr := ⟨.waitForRequest, false, false, false, false⟩ } :=
  gotoPrlHr_untimed h .waitForRequest

/-- The entry of ResetLayer writes the flags of PRL-TX, RCH and TCH and leaves their states (R172). -/
theorem gotoPrlHr_resetLayer_untimed {s : State} (h : s.prlHr.state ≠ .waitForPhyHardResetComplete) :
    gotoPrlHr .resetLayer s =
      { s with
        prlHr := { s.prlHr with state := .resetLayer }
        txCounter := PerSop.fill 0
        rxRecord := PerSop.fill none
        rev := PerSop.fill s.params.revDefault
        prlTx := ⟨s.prlTx.state, false, false, false⟩
        rch := ⟨s.rch.state, false, false, false, false, false, false⟩
        tch := ⟨s.tch.state, false, false, false, false, false, false⟩
        rxEnabled := false
        trace := s.trace ++ [.tpSetRxEnable false] } :=
  gotoPrlHr_untimed h .resetLayer

theorem gotoPrlHr_waitForPe_untimed {s : State} (h : s.prlHr.state ≠ .waitForPhyHardResetComplete) :
    gotoPrlHr .waitForPeHardResetComplete s =
      { s with prlHr := { s.prlHr with state := .waitForPeHardResetComplete } } :=
  gotoPrlHr_untimed h .waitForPeHardResetComplete

/-- The end of the wait for the transport disarms T_HR_COMPLETE (R174, exit). -/
theorem gotoPrlHr_waitForPe_timed {s : State} (h : s.prlHr.state = .waitForPhyHardResetComplete) :
    gotoPrlHr .waitForPeHardResetComplete s =
      { s with
        prlHr := { s.prlHr with state := .waitForPeHardResetComplete }
        timers := { s.timers with hrComplete := Timer.off } } := by
  rw [gotoPrlHr, exitPrlHr_eq, if_pos h]
  rfl

/-! ### The final exit (R177) -/

/-- The timers with those disarmed that the states of PRL-TX, RCH and TCH armed (R147, R150, R201, R229). -/
def rearmTimersOff (s : State) : Timers :=
  { prlTxTimersOff s with
    chunkResponse := (rchTimersOff s).chunkResponse
    chunkRequest := (tchTimersOff s).chunkRequest }

/-- The three re-arms write different timers, and each looks only at its own machine's state. -/
theorem hrFinalExit_eq (s : State) :
    hrFinalExit s =
      { s with
        prlTx := ⟨.phyReset, false, false, false⟩
        rch := ⟨.waitForMessage, false, false, false, false, false, false⟩
        tch := ⟨.waitForRequestFromPe, false, false, false, false, false, false⟩
        bytesReceived := 0
        nextExpectedChunk := 0
        rxTotal := 0
        sendLen := 0
        sendOffset := 0
        nextChunkToSend := 0
        sendChunkLen := 0
        rxEnabled := true
        timers := rearmTimersOff s
        trace := s.trace ++ [.tpSetRxEnable true] } := by
  rw [hrFinalExit, rearmPrlTx_eq, rearmRch_eq, rearmTch_eq]
  rfl

/-! ### The run in each state -/

theorem runPrlHr_waitForRequest {s : State} (h : s.prlHr.state = .waitForRequest) :
    runPrlHr s =
      if s.prlHr.peHardReset = true ∨ s.prlHr.portPartnerHardReset = true then gotoPrlHr .resetLayer s else s := by
  rw [runPrlHr, h]
  simp only [Bool.or_eq_true]

/-- The partner's flag is tested first, so that where both are set its path is taken (R173). -/
theorem runPrlHr_resetLayer {s : State} (h : s.prlHr.state = .resetLayer) :
    runPrlHr s =
      if s.prlHr.portPartnerHardReset then
        { s with
          prlHr := { s.prlHr with state := .waitForPeHardResetComplete }
          trace := s.trace ++ [.peGotHardReset] }
      else
        { s with
          prlHr := { s.prlHr with state := .waitForPhyHardResetComplete }
          txOutstanding := s.txOutstanding + 1
          trace := s.trace ++ [.tpTransmitHardReset]
          timers := { s.timers with hrComplete := Timer.on } } := by
  have huntimed : s.prlHr.state ≠ .waitForPhyHardResetComplete := by rw [h]; decide
  rw [runPrlHr, h, ← gotoPrlHr_waitForPhy]
  simp only
  rw [gotoPrlHr_waitForPe_untimed (by exact huntimed)]
  rfl

theorem runPrlHr_waitForPhy {s : State} (h : s.prlHr.state = .waitForPhyHardResetComplete) :
    runPrlHr s =
      if s.prlHr.phyHardResetDone = true ∨ s.timers.hrComplete.expired = true then
        { s with
          prlHr := { s.prlHr with state := .waitForPeHardResetComplete, phyHardResetDone := false }
          trace := s.trace ++ [.peHardResetSent]
          timers := { s.timers with hrComplete := Timer.off } }
      else s := by
  rw [runPrlHr, h]
  simp only [Bool.or_eq_true]
  rw [gotoPrlHr_waitForPe_timed (by exact h)]
  rfl

theorem runPrlHr_waitForPe {s : State} (h : s.prlHr.state = .waitForPeHardResetComplete) :
    runPrlHr s =
      if s.prlHr.peHardResetDone then
        { hrFinalExit s with prlHr := ⟨.waitForRequest, false, false, false, false⟩ }
      else s := by
  have huntimed : s.prlHr.state ≠ .waitForPhyHardResetComplete := by rw [h]; decide
  rw [runPrlHr, h]
  simp only [hrFinalExit_eq]
  rw [gotoPrlHr_waitForRequest_untimed (by exact huntimed)]
  rfl

/-! ### The statements -/

/-- Settles O40: a request is answered by the goto to ResetLayer, whose entry is R172's list. -/
theorem hardResetEntered : Obligations.HardResetEntered := by
  refine fun s => ⟨fun h => ?_, gotoPrlHr_waitForRequest_untimed⟩
  rw [runPrlHr_waitForRequest h, gotoPrlHr_resetLayer_untimed (by rw [h]; decide)]

/-- Settles O41: the two paths out of ResetLayer, and the run in which the local one waits for the transport. -/
theorem hardResetPaths : Obligations.HardResetPaths := fun _ => ⟨runPrlHr_resetLayer, runPrlHr_waitForPhy⟩

/-- Settles O42: the final exit's update, and PRL-HR idle after it. -/
theorem hardResetFinalExit : Obligations.HardResetFinalExit := by
  intro s h
  rw [runPrlHr_waitForPe h, hrFinalExit_eq]
  rfl

end Sys2Proof.Machine
end

section
/-! PROOFS. RCH (R190 to R207): its transitions and its run in each state, each as one update of the port; the bytes a
chunk stores (R195); and the one-invocation states of RCH and TCH (R205, R230, R306). -/

namespace Sys2Proof.Machine

/-! ### Transitions (R193 to R207) -/

/-- One of RCH's states owns a timer; leaving any other disarms none. -/
theorem rchTimersOff_untimed {s : State} (h : s.rch.state ≠ .waitingChunk) : rchTimersOff s = s.timers := by
  rw [rchTimersOff, if_neg h]

/-- Leaving WaitingChunk disarms T_CHUNK_RESPONSE (R201, exit). -/
theorem rchTimersOff_waitingChunk {s : State} (h : s.rch.state = .waitingChunk) :
    rchTimersOff s = { s.timers with chunkResponse := Timer.off } := by
  rw [rchTimersOff, if_pos h]

theorem gotoRch_waitForMessage_untimed {s : State} (h : s.rch.state ≠ .waitingChunk) :
    gotoRch .waitForMessage s = afterRchIdle s := by
  rw [gotoRch_waitForMessage, rchTimersOff_untimed h]

theorem gotoRch_processing_untimed {s : State} (h : s.rch.state ≠ .waitingChunk) :
    gotoRch .processingExtendedMessage s = { s with rch := { s.rch with state := .processingExtendedMessage } } := by
  rw [gotoRch_processingExtendedMessage, rchTimersOff_untimed h]

theorem gotoRch_waitingChunk_armed (s : State) :
    gotoRch .waitingChunk s =
      { s with
        rch := { s.rch with state := .waitingChunk }
        timers := { s.timers with chunkResponse := Timer.on } } := by
  rw [gotoRch_waitingChunk, rchTimersOff]

theorem gotoRch_passUp_untimed {s : State} (h : s.rch.state ≠ .waitingChunk) :
    gotoRch .passUpMessage s = afterPassUp s.rchOut s := by
  rw [gotoRch_passUpMessage, rchTimersOff_untimed h]

theorem raiseErr_rch_untimed {s : State} (h : s.rch.state ≠ .waitingChunk) (hpass : s.rch.passInterrupting = false)
    (kind : ErrKind) (v : Sop) : raiseErr .rch kind v s = afterRchError kind v s := by
  rw [raiseErr_rch kind v s hpass, rchTimersOff_untimed h]

theorem interruptRch_untimed {s : State} (h : s.rch.state ≠ .waitingChunk) (hpass : s.rch.passInterrupting = false)
    (m : Msg) : interruptRch m .chunkSequence s = afterInterrupt m s := by
  rw [interruptRch_eq m s hpass, rchTimersOff_untimed h]

/-- An abort leaves RCH idle (R206); the flag it clears first is one that the idle state's entry clears. -/
theorem abortRch_eq (s : State) : abortRch s = afterRchIdle { s with timers := rchTimersOff s } :=
  gotoRch_waitForMessage _

/-! ### WaitForMessage (R193) -/

/-- What becomes of a message RCH takes when idle, by its class and the port's chunking mode (R193). -/
theorem rchTake_eq {s : State} (h : s.rch.state = .waitForMessage) (hpass : s.rch.passInterrupting = false) (m : Msg) :
    rchTake m s =
      if classify s.params m = .extChunkRequest then s
      else if hdrExt m.hdr = false then afterPassUp (.whole (whole m)) s
      else if classify s.params m = .extChunk ∧ s.params.chunking = true then
        { s with
          rch := { s.rch with state := .processingExtendedMessage }
          rchCur := m
          rxSop := m.sop
          rxHdr := m.hdr }
      else if classify s.params m = .extUnchunked ∧ s.params.chunking = false then
        afterPassUp (.whole (whole m)) s
      else afterRchError .chunkMismatch m.sop s := by
  have hext := classify_ext s.params m
  have huntimed : s.rch.state ≠ .waitingChunk := by rw [h]; decide
  have hup : gotoRch .passUpMessage { s with rchOut := .whole (whole m) } = afterPassUp (.whole (whole m)) s :=
    gotoRch_passUp_untimed huntimed
  have hstart : gotoRch .processingExtendedMessage { s with rchCur := m, rxSop := m.sop, rxHdr := m.hdr } =
      { s with
        rch := { s.rch with state := .processingExtendedMessage }
        rchCur := m
        rxSop := m.sop
        rxHdr := m.hdr } := gotoRch_processing_untimed huntimed
  have herr := raiseErr_rch_untimed huntimed hpass .chunkMismatch m.sop
  rw [rchTake, hup, hstart, herr]
  cases hclass : classify s.params m with
  | extChunkRequest => simp
  | softReset | ping | control | data =>
    have hplain : hdrExt m.hdr = false := by simpa [hclass] using hext
    simp [hplain]
  | malformedExt =>
    have hlong : hdrExt m.hdr = true := by simp [hext, hclass]
    simp [hlong]
  | extChunk | extUnchunked =>
    have hlong : hdrExt m.hdr = true := by simp [hext, hclass]
    cases hchunking : s.params.chunking <;> simp [hlong]

/-- WaitForMessage: the stale flags are cleared, then a latched message is taken. -/
theorem runRch_waitForMessage {s : State} (h : s.rch.state = .waitForMessage) (hpass : s.rch.passInterrupting = false) :
    runRch s = .next
      (if s.rch.msgReceived = false then
        { s with rch := ⟨.waitForMessage, false, false, false, false, false, false⟩ }
      else rchTake s.rchMsg { s with rch := ⟨.waitForMessage, false, false, false, false, false, false⟩ }) := by
  rw [runRch, h]
  simp only [runRchWaitForMessage, consumeRch, Rch.clearStale, h, hpass]
  cases s.rch.msgReceived <;> rfl

/-! ### ProcessingExtendedMessage (R194, R195, R198) -/

/-- The size of the message in reassembly: chunk 0 announces it (R194). -/
def announcedTotal (x : XHdr) (s : State) : Nat := if x.chunkNumber = 0 then x.dataSize.toNat else s.rxTotal

/-- Chunk 0 and the later chunks are appended alike, but that chunk 0 sets the size and is tested against the
capacity. -/
theorem processChunk_eq (m : Msg) (x : XHdr) (s : State) :
    processChunk m x s =
      if x.chunkNumber.toNat ≠ s.nextExpectedChunk then .next (raiseErr .rch .chunkSequence s.rxSop s)
      else if x.chunkNumber = 0 ∧ s.params.maxExtMsgBytes < announcedTotal x s then
        .next (raiseErr .rch .rchOverflow s.rxSop { s with rxTotal := announcedTotal x s })
      else finishOrRequest (appendChunk m { s with rxTotal := announcedTotal x s }) := by
  rw [processChunk]
  by_cases hzero : x.chunkNumber = 0
  · simp only [announcedTotal, hzero, true_and, if_true]
  · simp only [announcedTotal, hzero, false_and, if_false]

/-- After a chunk is appended: handed up if complete, else the next chunk requested unless a transmission is
pending. -/
theorem finishOrRequest_untimed {s : State} (h : s.rch.state ≠ .waitingChunk) :
    finishOrRequest s =
      if s.rxTotal ≤ s.bytesReceived then
        .next (afterPassUp (.reassembled s.rxSop s.rxHdr s.rxTotal (s.rxBuf.bufRead 0 s.rxTotal)) s)
      else if txPending s then .fault .rchSubmitWhileTxPending
      else .next
        { s with
          rch := { s.rch with state := .requestingChunk }
          txSlot := chunkRequestSlot s
          txClient := .rch
          prlTx := { s.prlTx with txRequest := true } } := by
  rw [finishOrRequest, requestChunk_eq, rchTimersOff_untimed h, gotoRch_passUp_untimed (by exact h)]
  rfl

theorem runRch_processing {s : State} (h : s.rch.state = .processingExtendedMessage) :
    runRch s =
      if s.rch.abort then .next (afterRchIdle s) else processChunk s.rchCur (msgXHdr s.params s.rchCur) s := by
  rw [runRch, h, abortRch_eq, rchTimersOff_untimed (by rw [h]; decide)]

/-- The payload of a consistent message is as long as its header counts (R54, R71). -/
theorem length_msgPayload {m : Msg} (h : m.words.length = (hdrNdo m.hdr).toNat) :
    (msgPayload m).length = 4 * (hdrNdo m.hdr).toNat - 2 := by
  rw [msgPayload, List.length_drop, length_dataArea, h]

/-! ### RequestingChunk (R198) -/

/-- The order of R198: abort, confirmation, failure, discard, none of them. -/
theorem runRch_requestingChunk {s : State} (h : s.rch.state = .requestingChunk)
    (hpass : s.rch.passInterrupting = false) :
    runRch s = .next
      (if s.rch.abort then afterRchIdle s
      else if s.rch.txDone then
        { s with
          rch := { s.rch with state := .waitingChunk, txDone := false }
          timers := { s.timers with chunkResponse := Timer.on } }
      else if s.rch.txError then
        afterRchError .txFailed s.rxSop { s with rch := { s.rch with txError := false } }
      else if s.rch.txDiscarded then
        if s.rch.msgReceived then
          afterInterrupt s.rchMsg { s with rch := { s.rch with txDiscarded := false, msgReceived := false } }
        else
          afterRchError .chunkSequence s.rxSop
            { s with rch := { s.rch with txDiscarded := false, msgReceived := false } }
      else s) := by
  have huntimed : s.rch.state ≠ .waitingChunk := by rw [h]; decide
  have hrun : runRch s = .next (runRequestingChunk s) := by rw [runRch, h]
  rw [hrun, runRequestingChunk, abortRch_eq, rchTimersOff_untimed huntimed, gotoRch_waitingChunk_armed]
  refine congrArg _ (ite_congr rfl (fun _ => rfl) fun _ => ite_congr rfl (fun _ => rfl) fun _ =>
    ite_congr rfl (fun _ => ?failed) fun _ => ite_congr rfl (fun _ => ?discarded) fun _ => rfl)
  case failed => exact raiseErr_rch_untimed (by exact huntimed) (by exact hpass) _ _
  case discarded =>
    refine ite_congr rfl (fun _ => interruptRch_untimed (by exact huntimed) (by exact hpass) _) fun hmsg => ?_
    have hnone : s.rch.msgReceived = false := Bool.eq_false_iff.mpr hmsg
    rw [raiseErr_rch_untimed (by exact huntimed) (by exact hpass)]
    simp only [hnone]

/-! ### WaitingChunk (R201) -/

/-- The order of R201: abort, a message, the timeout, none of them; T_CHUNK_RESPONSE is disarmed on leaving. -/
theorem runRch_waitingChunk {s : State} (h : s.rch.state = .waitingChunk) (hpass : s.rch.passInterrupting = false) :
    runRch s = .next
      (let quiet : State := { s with timers := { s.timers with chunkResponse := Timer.off } }
      let taken : State := { quiet with rch := { s.rch with msgReceived := false } }
      if s.rch.abort then afterRchIdle quiet
      else if s.rch.msgReceived then
        if classify s.params s.rchMsg = .extChunk ∧ s.rchMsg.sop = s.rxSop then
          { taken with rch := { taken.rch with state := .processingExtendedMessage }, rchCur := s.rchMsg }
        else afterInterrupt s.rchMsg taken
      else if s.timers.chunkResponse.expired then afterRchError .chunkTimeout s.rxSop quiet
      else s) := by
  have hrun : runRch s = .next (runWaitingChunk s) := by rw [runRch, h]
  have hquiet := rchTimersOff_waitingChunk h
  rw [hrun, runWaitingChunk, abortRch_eq, hquiet]
  refine congrArg _ (ite_congr rfl (fun _ => rfl) fun _ => ite_congr rfl (fun _ => ite_congr rfl (fun _ => ?chunk)
    fun _ => ?other) fun _ => ite_congr rfl (fun _ => ?timeout) fun _ => rfl)
  case chunk =>
    rw [gotoRch_processingExtendedMessage, rchTimersOff_waitingChunk (by exact h)]
    rfl
  case other =>
    rw [interruptRch_eq _ _ (by exact hpass), rchTimersOff_waitingChunk (by exact h)]
    rfl
  case timeout => rw [raiseErr_rch _ _ _ hpass, hquiet]

/-! ### The one-invocation states (R205, R230, R306) -/

theorem runRch_transient {s : State} (h : s.rch.state = .passUpMessage ∨ s.rch.state = .reportError) :
    runRch s = .next (afterRchIdle s) := by
  obtain h | h := h <;> rw [runRch, h, ← gotoRch_waitForMessage_untimed (by rw [h]; decide)] <;> rfl

theorem gotoTch_waitForRequestFromPe_untimed {s : State} (h : s.tch.state ≠ .waitChunkRequest) :
    gotoTch .waitForRequestFromPe s = afterTchIdle s := by
  rw [gotoTch_waitForRequestFromPe, tchTimersOff, if_neg h]

theorem runTch_transient {s : State}
    (h : s.tch.state = .messageSent ∨ s.tch.state = .reportError ∨ s.tch.state = .messageReceived) :
    runTch s = .next (afterTchIdle s) := by
  obtain h | h | h := h <;> rw [runTch, h, ← gotoTch_waitForRequestFromPe_untimed (by rw [h]; decide)] <;> rfl

/-! ### The statements about one run -/

/-- Settles O44: the idle run is `rchTake` on a state that owns no timer. -/
theorem rchTakesMessage : Obligations.RchTakesMessage := by
  refine fun s => ⟨gotoRch_waitForMessage s, fun h hpass => ?_⟩
  rw [runRch_waitForMessage h hpass, rchTake_eq rfl rfl]

/-- Settles O45, by the order in which `processChunk` tests and `finishOrRequest` answers. -/
theorem rchProcessesChunk : Obligations.RchProcessesChunk := by
  intro s h hpass
  have huntimed : s.rch.state ≠ .waitingChunk := by rw [h]; decide
  rw [runRch_processing h, processChunk_eq, raiseErr_rch_untimed huntimed hpass,
    raiseErr_rch_untimed (by exact huntimed) (by exact hpass), finishOrRequest_untimed (by exact huntimed)]
  rfl

/-- Settles O46: the bytes stored are a prefix of the payload, and `BufWrite` has its frame. -/
theorem chunkBytesStored : Obligations.ChunkBytesStored := by
  intro m s hwords hwf n t
  have hpay := length_msgPayload hwords
  have hlen : ((msgPayload m).take n).length = n := by
    rw [List.length_take, hpay]
    omega
  have hstored : t.rxBuf = s.rxBuf.bufWrite s.bytesReceived ((msgPayload m).take n) := rfl
  refine ⟨Memory.wf_bufWrite _ _ _ hwf, rfl, fun i => ?_⟩
  rw [hstored, Memory.read_bufWrite _ _ _ _ hwf]
  simp only [hlen]
  split
  next hin =>
    simp only [List.getElem_take, msgPayload, List.getElem_drop]
    exact (List.getD_eq_getElem _ _ _).symm
  next => rfl

/-- Settles O47. -/
theorem rchRequestsChunk : Obligations.RchRequestsChunk := fun _ => runRch_requestingChunk

/-- Settles O48. -/
theorem rchWaitsForChunk : Obligations.RchWaitsForChunk := fun s =>
  ⟨gotoRch_waitingChunk_armed s, runRch_waitingChunk⟩

/-- Settles O56: none of these states owns a timer, so the return to idle is its entry alone. -/
theorem transientStatesReturnToIdle : Obligations.TransientStatesReturnToIdle := fun _ =>
  ⟨runRch_transient, runTch_transient⟩

end Sys2Proof.Machine
end

section
/-! PROOFS. The round trip of an extended message (R211): RCH takes each chunk in order, and the law follows by
induction over the chunks still to come. -/

namespace Sys2Proof.Machine

/-- What the round trip asks of the sender `a`, the receiver's parameters `p` and the headers `hdr` under which the
chunks travel: one layout, chunking, a size that sixteen chunks and the receiver's buffer hold, and headers that count the
words sent. -/
structure CanDeliver (a : State) (p : Params) (hdr : Nat → Half) : Prop where
  layout : a.params.extHdrLayout = p.extHdrLayout
  chunking : p.chunking = true
  size : a.sendLen ≤ 416
  fits : a.sendLen ≤ p.maxExtMsgBytes
  headers : ∀ k, hdrExt (hdr k) = true ∧ hdrNdo (hdr k) = (chunkOf a k).ndo

/-- Chunk `k` of the message that `a` sends, as it reaches the receiver. -/
abbrev chunkMsg (a : State) (v : Sop) (hdr : Nat → Half) (k : Nat) : Msg := ⟨v, hdr k, (chunkOf a k).words⟩

/-- RCH's next run, with chunk `k` latched, takes it: the first of the two runs of `deliverChunk`. -/
def TakesChunk (a : State) (v : Sop) (hdr : Nat → Half) (p : Params) (tr : List Emit) (k : Nat) (s : State) : Prop :=
  ∃ u, runRch { s with rchMsg := chunkMsg a v hdr k, rch := { s.rch with msgReceived := true } } = .next u ∧
    Ready a v (hdr 0) p tr k (chunkMsg a v hdr k) u

section

variable {a : State} {v : Sop} {hdr : Nat → Half} {p : Params} {tr : List Emit}

theorem classify_chunkMsg (c : CanDeliver a p hdr) (k : Nat) : classify p (chunkMsg a v hdr k) = .extChunk :=
  class_of a p v (hdr k) k c.layout (c.headers k).1 (c.headers k).2

/-- An idle RCH takes chunk 0, whose variant and header become those of the reassembly (R193). -/
theorem takesChunk_idle {s : State} (c : CanDeliver a s.params hdr) (hwf : s.rxBuf.wf = true)
    (hrch : s.rch = ⟨.waitForMessage, false, false, false, false, false, false⟩) (hgot : s.bytesReceived = 0)
    (hnext : s.nextExpectedChunk = 0) (htx : s.prlTx = ⟨.waitForMessageRequest, false, false, false⟩) :
    TakesChunk a v hdr s.params s.trace 0 s := by
  have hclass : classify s.params (chunkMsg a v hdr 0) = .extChunk := classify_chunkMsg c 0
  have hext : hdrExt (chunkMsg a v hdr 0).hdr ≠ false := by rw [(c.headers 0).1]; decide
  refine ⟨_, runRch_waitForMessage (by simp only [hrch]) (by simp only [hrch]), ?_⟩
  rw [if_neg nofun, rchTake_eq rfl rfl, if_neg (by simp [hclass]), if_neg hext, if_pos ⟨hclass, c.chunking⟩]
  exact {
    rch := rfl, cur := rfl, got := hgot, next := hnext, total := fun h => absurd rfl h, sop := rfl, hdr := rfl,
    wf := hwf, buf := rfl, tx := htx, params := rfl, trace := rfl }

/-- Once its request is confirmed RCH waits for the chunk it asked for, and takes it (R198, R201). -/
theorem takesChunk_confirmed (c : CanDeliver a p hdr) {k : Nat} {s : State} (r : Requesting a v (hdr 0) p tr k s) :
    ∃ w, confirmRequest s = .next w ∧ TakesChunk a v hdr p tr k w := by
  have hclass : classify s.params (chunkMsg a v hdr k) = .extChunk := by rw [r.params]; exact classify_chunkMsg c k
  have hconfirm : confirmRequest s = .next
      { s with
        prlTx := ⟨.waitForMessageRequest, false, false, false⟩
        rch := ⟨.waitingChunk, false, false, false, false, false, false⟩
        timers := { s.timers with chunkResponse := Timer.on } } := by
    rw [confirmRequest, r.rch, r.tx, runRch_requestingChunk rfl rfl]
    rfl
  refine ⟨_, hconfirm, _, runRch_waitingChunk rfl rfl, ?_⟩
  dsimp only
  rw [if_neg nofun, if_pos rfl, if_pos ⟨hclass, r.sop.symm⟩]
  exact {
    rch := rfl, cur := rfl, got := r.got, next := r.next, total := fun _ => r.total, sop := r.sop, hdr := r.hdr,
    wf := r.wf, buf := r.buf, tx := rfl, params := r.params, trace := r.trace }

/-- A delivered chunk is taken and processed: the message is handed up, or the next chunk requested (R194). -/
theorem deliverChunk_takes (c : CanDeliver a p hdr) {k : Nat} {s : State} (hk : k < chunkCount a.sendLen)
    (h : TakesChunk a v hdr p tr k s) :
    ∃ t, deliverChunk (chunkMsg a v hdr k) s = .next t ∧
      (k + 1 = chunkCount a.sendLen → t.rch.state = .passUpMessage ∧
        t.trace = tr ++ [.peMessageReceived (.reassembled v (hdr 0) a.sendLen (a.txBuf.bufRead 0 a.sendLen))]) ∧
      (k + 1 < chunkCount a.sendLen → Requesting a v (hdr 0) p tr (k + 1) t) := by
  obtain ⟨u, htake, hready⟩ := h
  rw [deliverChunk, htake]
  exact process_ready hready c.layout c.size c.fits hk (c.headers k).2

/-- Where RCH takes chunk `k`, chunk `k` and the `n` that end the message are received. -/
theorem receiveChunks_takes (c : CanDeliver a p hdr) (n : Nat) : ∀ (k : Nat) (s : State),
    k + n + 1 = chunkCount a.sendLen → TakesChunk a v hdr p tr k s →
    ∃ t, receiveChunks ((List.range' k (n + 1)).map (chunkMsg a v hdr)) s = .next t ∧
      t.rch.state = .passUpMessage ∧
      t.trace = tr ++ [.peMessageReceived (.reassembled v (hdr 0) a.sendLen (a.txBuf.bufRead 0 a.sendLen))] := by
  induction n with
  | zero =>
    intro k s hlast htakes
    obtain ⟨t, hrun, hup, -⟩ := deliverChunk_takes c (by omega) htakes
    exact ⟨t, hrun, hup hlast⟩
  | succ n ih =>
    intro k s hmore htakes
    obtain ⟨u, hrun, -, hrequest⟩ := deliverChunk_takes c (by omega) htakes
    obtain ⟨w, hconfirm, hnext⟩ := takesChunk_confirmed c (hrequest (by omega))
    obtain ⟨t, hrest, hup⟩ := ih (k + 1) w (by omega) hnext
    refine ⟨t, ?_, hup⟩
    rw [← hrest, List.range'_succ, List.range'_succ, List.map_cons, List.map_cons, receiveChunks, hrun, andThen_next,
      hconfirm, andThen_next]

end

/-- Settles O49, by induction over the chunks, from an idle RCH that takes chunk 0. -/
theorem chunkRoundTrip : Obligations.ChunkRoundTrip := by
  intro a s v hdr hlayout hsize hfits hchunking hwf hrch hgot hnext htx chunk hhdr
  have c : CanDeliver a s.params hdr := ⟨hlayout, hchunking, hsize, hfits, hhdr⟩
  have hcount : 0 + (chunkCount a.sendLen - 1) + 1 = chunkCount a.sendLen := by unfold chunkCount; omega
  have hrange : List.range (chunkCount a.sendLen) = List.range' 0 (chunkCount a.sendLen - 1 + 1) := by
    rw [List.range_eq_range', ← hcount]
    simp
  rw [hrange]
  exact receiveChunks_takes c _ 0 s hcount (takesChunk_idle c hwf hrch hgot hnext htx)

end Sys2Proof.Machine
end

section
/-! PROOFS. TCH (R220 to R237): its transitions and its run in each state, each as one update of the port, and the slice
of the message that a chunk carries (R224, R225). -/

namespace Sys2Proof.Machine

/-! ### The slot of a chunk (R223 to R225) -/

/-- `BufRead` (R16) byte by byte. -/
theorem Memory.bufRead_eq_map (m : Memory) (off n : Nat) :
    m.bufRead off n = (List.range n).map fun i => m.read (off + i) :=
  List.ext_getElem (by simp) fun i _ _ => by simp [Memory.getElem_bufRead]

/-- A chunk's slot depends on the cursor through the chunk's place and number alone. -/
theorem chunkSlot_eq_chunkOf {s : State} {k : Nat} (hnumber : s.nextChunkToSend = k) (hoffset : s.sendOffset = 26 * k) :
    chunkSlot s = chunkOf s k := by
  subst hnumber
  rw [chunkOf, ← hoffset]

/-- The payload of chunk `k` is the message's bytes from `26 * k` on, then zeros. -/
theorem chunkOf_payload (s : State) (k : Nat) :
    ∃ pad, (dataArea (chunkOf s k).words).drop 2 =
      (List.range (min 26 (s.sendLen - 26 * k))).map (fun i => s.txBuf.read (26 * k + i)) ++
        List.replicate pad 0 := by
  simp only [chunkOf, chunkSlot, extSlot, packExt_payload, chunkLen_of, Memory.bufRead_eq_map]
  exact ⟨_, rfl⟩

/-- A chunk has as many words as its header counts. -/
theorem chunkOf_length (s : State) (k : Nat) : (chunkOf s k).words.length = (chunkOf s k).ndo.toNat := by
  rw [ndo_of]
  exact (length_packExt _ _).trans (congrArg ndoOfLen (Memory.length_bufRead _ _ _))

/-- Settles O52: the cursor is at chunk `k`, so the slot is `chunkOf s k`, whose header and payload are those that
`packExt` was given. -/
theorem chunkCarriesItsSlice : Obligations.ChunkCarriesItsSlice := by
  intro s k hnumber _ hoffset _
  rw [chunkSlot_eq_chunkOf hnumber hoffset]
  obtain ⟨hsome, hmost⟩ := ndoOfLen_le _ (Nat.min_le_left 26 (s.sendLen - 26 * k))
  rw [← ndo_of] at hsome hmost
  have hheader := xh_of s s.params .plain 0 k rfl
  exact ⟨rfl, rfl, rfl, chunkOf_length s k, ndo_of s k, hsome, hmost, hheader, chunkOf_payload s k⟩

/-! ### Transitions (R221 to R233) -/

/-- One of TCH's states owns a timer; leaving any other disarms none. -/
theorem tchTimersOff_untimed {s : State} (h : s.tch.state ≠ .waitChunkRequest) : tchTimersOff s = s.timers := by
  rw [tchTimersOff, if_neg h]

/-- Leaving WaitChunkRequest disarms T_CHUNK_REQUEST (R229, exit). -/
theorem tchTimersOff_waitChunkRequest {s : State} (h : s.tch.state = .waitChunkRequest) :
    tchTimersOff s = { s.timers with chunkRequest := Timer.off } := by
  rw [tchTimersOff, if_pos h]

theorem gotoTch_constructChunkedMessage_untimed {s : State} (h : s.tch.state ≠ .waitChunkRequest) :
    gotoTch .constructChunkedMessage s = { s with tch := { s.tch with state := .constructChunkedMessage } } := by
  rw [gotoTch_constructChunkedMessage, tchTimersOff_untimed h]

theorem gotoTch_waitChunkRequest_armed (s : State) :
    gotoTch .waitChunkRequest s =
      { s with
        tch := { s.tch with state := .waitChunkRequest }
        timers := { s.timers with chunkRequest := Timer.on } } := by
  rw [gotoTch_waitChunkRequest, tchTimersOff]

theorem gotoTch_messageSent_untimed {s : State} (h : s.tch.state ≠ .waitChunkRequest) :
    gotoTch .messageSent s = afterSent s := by
  rw [gotoTch_messageSent, tchTimersOff_untimed h]

theorem raiseErr_tch_untimed {s : State} (h : s.tch.state ≠ .waitChunkRequest) (kind : ErrKind) (v : Sop) :
    raiseErr .tch kind v s = afterTchError kind v s := by
  rw [raiseErr_tch, tchTimersOff_untimed h]

theorem preemptTch_untimed {s : State} (h : s.tch.state ≠ .waitChunkRequest) :
    preemptTch s =
      if s.rch.msgReceived then .fault .forwardWhileRchLatchFull else .next (afterPreempted s) := by
  rw [preemptTch_eq, tchTimersOff_untimed h]

/-- A whole message is submitted (R221, R222). -/
theorem submit_waitForTransmissionComplete {s : State} (h : s.tch.state ≠ .waitChunkRequest) (sl : TxSlot) :
    gotoTch .waitForTransmissionComplete (submit .tch sl s) = afterTchSubmit .waitForTransmissionComplete sl s := by
  rw [gotoTch_waitForTransmissionComplete, tchTimersOff_untimed (by exact h)]
  rfl

/-- A chunk is submitted (R223). -/
theorem submit_sendingChunkedMessage {s : State} (h : s.tch.state ≠ .waitChunkRequest) (sl : TxSlot) :
    gotoTch .sendingChunkedMessage (submit .tch sl s) = afterTchSubmit .sendingChunkedMessage sl s := by
  rw [gotoTch_sendingChunkedMessage, tchTimersOff_untimed (by exact h)]
  rfl

/-- An abort leaves TCH idle (R234); the flag it clears first is one that the idle state's entry clears. -/
theorem abortTch_eq (s : State) : abortTch s = afterTchIdle { s with timers := tchTimersOff s } :=
  gotoTch_waitForRequestFromPe _

/-! ### WaitForRequestFromPe (R221, R222, R236, R237) -/

theorem tchMayStart_iff (s : State) :
    tchMayStart s = true ↔
      s.tch.msgRequest = true ∧ s.rch.state = .waitForMessage ∧ s.rch.msgReceived = false ∧ txPending s = false := by
  simp only [tchMayStart, Bool.and_eq_true, Bool.not_eq_true', decide_eq_true_eq, and_assoc]

/-- An extended request is chunked where chunking is engaged on a chunking port, else sent whole if one message holds
it, else it fails. -/
theorem extendedRequest_untimed {s : State} (h : s.tch.state ≠ .waitChunkRequest) (r : PeReq) :
    extendedRequest r s =
      if s.rev.get r.sop = rev30 ∧ s.params.chunking = true then
        { s with
          tch := { s.tch with state := .constructChunkedMessage }
          txBuf := s.txBuf.bufWrite 0 (r.bytes.take r.len)
          sendLen := r.len
          sendOffset := 0 }
      else if r.len ≤ 26 then
        afterTchSubmit .waitForTransmissionComplete (unchunkedSlot s.params r) s
      else afterTchError .txFailed s.sendSop s := by
  rw [extendedRequest, gotoTch_constructChunkedMessage_untimed (by exact h), submit_waitForTransmissionComplete h,
    raiseErr_tch_untimed h]
  simp only [chunkingEngaged, Bool.and_eq_true, decide_eq_true_eq]
  rfl

/-- The latch is released and its request answered by its kind. -/
theorem takeRequest_untimed {s : State} (h : s.tch.state ≠ .waitChunkRequest) :
    takeRequest s =
      let s1 : State :=
        { s with
          tch := { s.tch with msgRequest := false }
          sendSop := s.peReq.sop
          sendType := s.peReq.typ
          nextChunkToSend := 0 }
      match s.peReq.kind with
      | .ctrl => afterTchSubmit .waitForTransmissionComplete (ctrlSlot s.peReq) s1
      | .data => afterTchSubmit .waitForTransmissionComplete (dataSlot s.peReq) s1
      | .ext => extendedRequest s.peReq s1 := by
  rw [takeRequest]
  cases s.peReq.kind with
  | ctrl | data => exact submit_waitForTransmissionComplete (by exact h) _
  | ext => rfl

/-- Settles O50, by the order of R221: the stale flags are cleared, then a message is forwarded, or a request taken, or
neither. -/
theorem tchTakesRequest : Obligations.TchTakesRequest := by
  refine fun s => ⟨gotoTch_waitForRequestFromPe s, fun h => ?_⟩
  have hrun : runTch s = runWaitForRequestFromPe s := by rw [runTch, h]
  have hstale : s.tch.clearStale =
      ⟨.waitForRequestFromPe, s.tch.msgRequest, s.tch.msgReceived, false, false, false, false⟩ := by
    rw [Tch.clearStale, h]
  have huntimed : TchState.waitForRequestFromPe ≠ .waitChunkRequest := by decide
  rw [hrun, runWaitForRequestFromPe, hstale]
  refine ite_congr rfl (fun _ => rfl) fun _ => ite_congr (propext (tchMayStart_iff _)) (fun _ => ?taken) fun _ => rfl
  case taken =>
    rw [takeRequest_untimed (by exact huntimed)]
    cases s.peReq.kind with
    | ctrl | data => rfl
    | ext => exact congrArg _ (extendedRequest_untimed (by exact huntimed) _)

/-! ### ConstructChunkedMessage (R223) -/

/-- Settles O51, by the order of R223: abort, preemption, the next chunk. -/
theorem tchBuildsChunk : Obligations.TchBuildsChunk := by
  intro s h
  have huntimed : s.tch.state ≠ .waitChunkRequest := by rw [h]; decide
  have hrun : runTch s = runConstructChunkedMessage s := by rw [runTch, h]
  rw [hrun, runConstructChunkedMessage, abortTch_eq, tchTimersOff_untimed huntimed, preemptTch_untimed huntimed,
    submit_sendingChunkedMessage (by exact huntimed)]
  rfl

/-! ### SendingChunkedMessage and WaitForTransmissionComplete (R226, R228) -/

/-- A discarded send is preempted by a latched message, else reported alone. -/
theorem tchDiscarded_untimed {s : State} (h : s.tch.state ≠ .waitChunkRequest) :
    tchDiscarded s =
      if s.tch.msgReceived then
        if s.rch.msgReceived then .fault .forwardWhileRchLatchFull else .next (afterPreempted s)
      else .next (afterTchIdle { s with trace := s.trace ++ [.peReportDiscard] }) := by
  rw [tchDiscarded, preemptTch_untimed (by exact h), gotoTch_waitForRequestFromPe_untimed (by exact h)]
  rfl

theorem tchFailed_untimed {s : State} (h : s.tch.state ≠ .waitChunkRequest) :
    tchFailed s = afterTchError .txFailed s.sendSop { s with tch := { s.tch with txError := false } } :=
  raiseErr_tch_untimed (by exact h) _ _

/-- A confirmed chunk advances the cursor; the last one completes the send, any other leaves TCH waiting for the
request of the next. -/
theorem chunkConfirmed_untimed {s : State} (h : s.tch.state ≠ .waitChunkRequest) :
    chunkConfirmed s =
      let advanced : State :=
        { s with
          tch := { s.tch with txDone := false }
          sendOffset := s.sendOffset + s.sendChunkLen
          nextChunkToSend := s.nextChunkToSend + 1 }
      if s.sendLen ≤ s.sendOffset + s.sendChunkLen then afterSent advanced
      else
        { advanced with
          tch := { advanced.tch with state := .waitChunkRequest }
          timers := { s.timers with chunkRequest := Timer.on } } := by
  rw [chunkConfirmed, gotoTch_messageSent_untimed (by exact h), gotoTch_waitChunkRequest_armed]

/-- Settles O53: the two states differ in what a confirmation does and answer the other outcomes alike. -/
theorem tchRelaysOutcome : Obligations.TchRelaysOutcome := by
  intro s h confirmed advanced failed
  have huntimed : s.tch.state ≠ .waitChunkRequest := by obtain h | h := h <;> rw [h] <;> decide
  obtain h | h := h
  · have hrun : runTch s = runSendingChunkedMessage s := by rw [runTch, h]
    have hchunk : s.tch.state ≠ .waitForTransmissionComplete := by rw [h]; decide
    rw [hrun, runSendingChunkedMessage, chunkConfirmed_untimed huntimed, tchFailed_untimed huntimed,
      tchDiscarded_untimed huntimed, if_neg hchunk]
  · have hrun : runTch s = runWaitForTransmissionComplete s := by rw [runTch, h]
    rw [hrun, runWaitForTransmissionComplete, gotoTch_messageSent_untimed (by exact huntimed),
      tchFailed_untimed huntimed, tchDiscarded_untimed huntimed, if_pos h]

/-! ### WaitChunkRequest (R229) -/

/-- The order of R229: abort, a message, the timeout, none of them; T_CHUNK_REQUEST is disarmed on leaving. -/
theorem runTch_waitChunkRequest {s : State} (h : s.tch.state = .waitChunkRequest) :
    runTch s =
      let quiet : State := { s with timers := { s.timers with chunkRequest := Timer.off } }
      let taken : State := { quiet with tch := { s.tch with msgReceived := false } }
      if s.tch.abort then .next (afterTchIdle quiet)
      else if s.tch.msgReceived then
        if classify s.params s.tchMsg = .extChunkRequest ∧ s.tchMsg.sop = s.sendSop then
          .next
            (if (msgXHdr s.params s.tchMsg).chunkNumber.toNat = s.nextChunkToSend then
              { taken with tch := { taken.tch with state := .constructChunkedMessage } }
            else afterTchError .tchUnexpected s.sendSop taken)
        else if s.rch.msgReceived then .fault .forwardWhileRchLatchFull
        else .next (afterPreempted quiet)
      else if s.timers.chunkRequest.expired then .next (afterSent quiet)
      else .next s := by
  have hrun : runTch s = runWaitChunkRequest s := by rw [runTch, h]
  have hquiet := tchTimersOff_waitChunkRequest h
  rw [hrun, runWaitChunkRequest, abortTch_eq, preemptTch_eq, gotoTch_messageSent, hquiet]
  refine ite_congr rfl (fun _ => rfl) fun _ => ite_congr rfl (fun _ => ite_congr rfl (fun _ => ?request)
    fun _ => rfl) fun _ => rfl
  case request =>
    refine (ite_congr rfl (fun _ => congrArg _ ?expected) fun _ => congrArg _ ?wrong).trans (apply_ite _ _ _ _).symm
    case expected =>
      rw [gotoTch_constructChunkedMessage, tchTimersOff_waitChunkRequest (by exact h)]
    case wrong =>
      rw [raiseErr_tch, tchTimersOff_waitChunkRequest (by exact h)]

/-- Settles O54. -/
theorem tchAnswersChunkRequest : Obligations.TchAnswersChunkRequest := fun s =>
  ⟨gotoTch_waitChunkRequest_armed s, runTch_waitChunkRequest⟩

end Sys2Proof.Machine
end

section
/-! PROOFS. The task loop (R250 to R258): where an event falls and what the steps between run; a run of the steps of a
tick in which no event falls, as the tick; and the tick of an idle port. -/

namespace Sys2Proof.Machine

/-! ### A step that delivers an event (R80, R104, R256) -/

/-- Bytes that begin with an event are that event alone exactly where nothing but zero bytes follows. -/
theorem decodeLoneEvent_of_ok {bytes : List Byte} {i : Instr} {more : List Byte}
    (h : decodeEvent bytes = .ok (i, more)) :
    decodeLoneEvent bytes = if more.all (· == 0) then .ok i else .error .trailingBytes := by
  simp only [decodeLoneEvent, h, bind, Except.bind]

theorem deliverEvent_of_ok {bytes : List Byte} {i : Instr} (h : decodeLoneEvent bytes = .ok i) (s : State) :
    deliverEvent bytes s = exec i s := by
  simp only [deliverEvent, h]

theorem deliverEvent_of_error {bytes : List Byte} {e : DecodeError} (h : decodeLoneEvent bytes = .error e)
    (s : State) : deliverEvent bytes s = .refused (.undecodable e) := by
  simp only [deliverEvent, h]

/-- Settles O10: the step delivers the event, by how its bytes decode; and no sub-step touches the events to come. -/
theorem stepRunsDueEvent : Obligations.StepRunsDueEvent := by
  refine ⟨fun s a bytes rest hin hdue => ?_, fun s t p later hl hnone h => ?_⟩
  · rw [step_event hin hdue]
    refine ⟨fun i more hdec => ⟨fun hzero => ?_, fun hother => ?_⟩, fun e hdec => ?_⟩
    · refine deliverEvent_of_ok ?_ _
      rw [decodeLoneEvent_of_ok hdec, if_pos (by simpa using hzero)]
    · refine deliverEvent_of_error ?_ _
      rw [decodeLoneEvent_of_ok hdec, if_neg (by simpa using hother)]
    · exact deliverEvent_of_error (decodeLoneEvent_error hdec) _
  · rw [step_subStep hl hnone] at h
    obtain ⟨-, hinputs, -⟩ := runSubStep_kept h
    exact hinputs

/-! ### The first and the last sub-step of a tick (R251, R253) -/

/-- A waiting loop with no event to come stutters (log 9). -/
theorem step_waiting {s : State} (hl : s.loop = .waiting) (hin : s.inputs = []) : step s = .next s := by
  simp only [step, fetchEvent, hin, loopStep, hl]

theorem leaveWait_eq (s : State) :
    leaveWait s = { s with timers := { s.timers with wakeCeiling := Timer.off } } := rfl

theorem enterWait_eq (s : State) :
    enterWait s = { s with timers := { s.timers with wakeCeiling := Timer.on }, loop := .waiting } := rfl

/-- The control point after the start of a tick: PRL-RX's sub-step, or PRL-HR's while it is not idle (R253). -/
theorem tick_firstSubStep (s : State) :
    Loop.tick (firstSubStep s) = if s.prlHr.state = .waitForRequest then .tick .prlRx else .tick .prlHr :=
  apply_ite _ _ _ _

/-! ### Steps in which no event falls (R256) -/

/-- The events `later`, the first of them `n` sub-steps further off. -/
def ahead (n : Nat) : List Input → List Input
  | [] => []
  | i :: rest => { i with after := i.after + n } :: rest

theorem noEventFor_iff_ahead {n : Nat} {s : State} {later : List Input} :
    NoEventFor n s later ↔ s.inputs = ahead n later := by
  constructor
  · rintro (⟨hin, rfl⟩ | ⟨a, bytes, rest, hin, rfl⟩) <;> exact hin
  · intro hin
    cases later with
    | nil => exact .inl ⟨hin, rfl⟩
    | cons i rest => exact .inr ⟨i.after, i.bytes, rest, hin, rfl⟩

theorem ahead_zero (later : List Input) : ahead 0 later = later := by cases later <;> rfl

theorem ahead_succ (n : Nat) (later : List Input) : ahead (n + 1) later = ahead 1 (ahead n later) := by
  cases later <;> rfl

/-- With the first event more than `n` sub-steps off, a step of a tick is its next sub-step. -/
theorem step_ahead (p : SubStep) (n : Nat) (later : List Input) (s : State) :
    step (s.at (.tick p, ahead (n + 1) later)) = runSubStep p (s.at (.tick p, ahead n later)) :=
  step_subStep rfl (noEventFor_iff_ahead.mpr (ahead_succ n later))

/-- `p` is the sub-step that runs `run`, and `q` comes after it. -/
structure SubStepRuns (p q : SubStep) (run : State → Result) : Prop where
  runs : ∀ s, runSubStep p s = run { s with loop := .tick q }
  at_comm : ∀ s l, run (s.at l) = thenState (run s) (·.at l)

/-- The first of several steps of a tick runs a machine, which neither reads nor writes where the tick stands. -/
theorem steps_ahead {p q : SubStep} {run : State → Result} (hp : SubStepRuns p q run) (n k : Nat) (later : List Input)
    (s : State) :
    steps (k + 1) (s.at (.tick p, ahead (n + 1) later)) =
      andThen (run s) fun t => steps k (t.at (.tick q, ahead n later)) := by
  have hrun : step (s.at (.tick p, ahead (n + 1) later)) = thenState (run s) (·.at (.tick q, ahead n later)) := by
    rw [step_ahead, hp.runs]
    exact hp.at_comm s (.tick q, ahead n later)
  rw [steps, hrun, andThen_thenState]

theorem prlRx_runs : SubStepRuns .prlRx .rch1 runPrlRx := ⟨fun _ => rfl, runPrlRx_at⟩
theorem rch1_runs : SubStepRuns .rch1 .tch1 runRch := ⟨fun _ => rfl, runRch_at⟩
theorem tch1_runs : SubStepRuns .tch1 .prlTx runTch := ⟨fun _ => rfl, runTch_at⟩
theorem prlTx_runs : SubStepRuns .prlTx .rch2 fun s => .next (stepPrlTx s) :=
  ⟨fun _ => rfl, fun s l => congrArg _ (stepPrlTx_at s l)⟩
theorem rch2_runs : SubStepRuns .rch2 .tch2 runRch := ⟨fun _ => rfl, runRch_at⟩
theorem tch2_runs : SubStepRuns .tch2 .prlHr runTch := ⟨fun _ => rfl, runTch_at⟩

/-- The step at the start of a tick leaves the blocking wait (R253). -/
theorem step_start (n : Nat) (later : List Input) (s : State) :
    step (s.at (.tick .start, ahead (n + 1) later)) =
      .next ((leaveWait s).at (.tick (firstSubStep s), ahead n later)) := step_ahead .start n later s

/-- The last step of a tick: PRL-HR, and the blocking wait is entered. -/
theorem steps_prlHr (later : List Input) (s : State) :
    steps 1 (s.at (.tick .prlHr, ahead 1 later)) = .next { enterWait (runPrlHr s) with inputs := later } := by
  rw [steps, step_ahead, ahead_zero, runSubStep, runPrlHr_at]
  rfl

theorem andThen_assoc (r : Result) (f g : State → Result) :
    andThen (andThen r f) g = andThen r fun s => andThen (f s) g := by cases r <;> rfl

/-- The steps after the start of a tick whose PRL-HR is idle. -/
theorem steps_tickBody (later : List Input) (s : State) :
    steps 7 (s.at (.tick .prlRx, ahead 7 later)) =
      andThen (tickBody s) fun t => .next { enterWait (runPrlHr t) with inputs := later } := by
  simp only [tickBody, andThen_assoc, steps_ahead prlRx_runs, steps_ahead rch1_runs, steps_ahead tch1_runs,
    steps_ahead prlTx_runs, steps_ahead rch2_runs, steps_ahead tch2_runs, steps_prlHr, andThen_next]

/-! ### The tick as one function (R251, R253) -/

/-- What a tick runs before PRL-HR: sub-steps 3 to 8 while PRL-HR is idle, nothing while it is not (R253). -/
def beforePrlHr (s : State) : Result := if s.prlHr.state = .waitForRequest then tickBody s else .next s

theorem tick_eq (s : State) :
    tick s = thenState (beforePrlHr (leaveWait s)) fun u => enterWait (runPrlHr u) := rfl

theorem Result.Keeps.bind {s : State} {r : Result} {f : State → Result} (hr : Result.Keeps s r)
    (hf : ∀ t, Result.Keeps t (f t)) : Result.Keeps s (andThen r f) := by
  intro t h
  obtain ⟨u, hu, ht⟩ := andThen_eq_next h
  exact (hr u hu).trans (hf u t ht)

theorem tickBody_keeps (s : State) : Result.Keeps s (tickBody s) :=
  (runPrlRx_keeps s).bind fun a => (runRch_keeps a).bind fun b => (runTch_keeps b).bind fun c =>
    ((runRch_keeps _).after (stepPrlTx_kept c)).bind runTch_keeps

theorem beforePrlHr_keeps (s : State) : Result.Keeps s (beforePrlHr s) := by
  unfold beforePrlHr
  split
  · exact tickBody_keeps s
  · exact (Kept.refl s).next

theorem thenState_congr {r : Result} {f g : State → State} (h : ∀ t, r = .next t → f t = g t) :
    thenState r f = thenState r g := by
  cases r with
  | next t => exact congrArg Host.Outcome.next (h t rfl)
  | fault e => rfl
  | refused e => rfl

/-- Entering the wait from a state whose control point is the wait only arms T_WAKE_CEILING. -/
theorem enterWait_of_waiting {s : State} (hl : s.loop = .waiting) :
    enterWait s = { s with timers := { s.timers with wakeCeiling := Timer.on } } := by
  rw [enterWait_eq, ← hl]

/-- The tick as a function does not move the control point before it ends, so that it ends where it began. -/
theorem tick_of_waiting {s : State} (hl : s.loop = .waiting) :
    tick s =
      thenState (beforePrlHr (leaveWait s)) fun u =>
        { runPrlHr u with timers := { (runPrlHr u).timers with wakeCeiling := Timer.on } } := by
  rw [tick_eq]
  refine thenState_congr fun u hu => enterWait_of_waiting ?_
  calc (runPrlHr u).loop = u.loop := (runPrlHr_kept u).loop
    _ = s.loop := (beforePrlHr_keeps _ u hu).loop
    _ = .waiting := hl

/-- A run of the steps of a tick in which no event falls is the tick. -/
theorem steps_tick (later : List Input) (s : State) :
    steps (if s.prlHr.state = .waitForRequest then 8 else 2)
        (s.at (.tick .start, ahead (if s.prlHr.state = .waitForRequest then 8 else 2) later)) =
      thenState (tick s) fun u => { u with inputs := later } := by
  have hstate : (leaveWait s).prlHr.state = s.prlHr.state := rfl
  by_cases hidle : s.prlHr.state = .waitForRequest
  · rw [if_pos hidle, steps, step_start, firstSubStep, if_pos hidle, tick_eq, beforePrlHr, hstate, if_pos hidle,
      andThen_next, steps_tickBody]
    cases tickBody (leaveWait s) <;> rfl
  · rw [if_neg hidle, steps, step_start, firstSubStep, if_neg hidle, tick_eq, beforePrlHr, hstate, if_neg hidle,
      andThen_next, steps_prlHr]
    rfl

/-- Settles O12: WAKE by the control point, each sub-step by the step that runs it, and the run of them all. -/
theorem wakeRunsOneTick : Obligations.WakeRunsOneTick := by
  refine fun s => ⟨fun hl => ?waiting, fun hl => ?inTick, fun later hnone => ⟨fun hl => ?start, ?subSteps⟩,
    fun hl => ⟨tick_of_waiting hl, fun later hnone => ?run⟩⟩
  case waiting => simp only [exec, execWake, wakeLoop, hl]
  case inTick =>
    cases hloop : s.loop with
    | waiting => exact absurd hloop hl
    | tick p => simp only [exec, execWake, hloop]
  case start =>
    rw [step_subStep hl hnone, ← tick_firstSubStep]
    rfl
  case subSteps =>
    exact ⟨(step_subStep · hnone), (step_subStep · hnone), (step_subStep · hnone), (step_subStep · hnone),
      (step_subStep · hnone), (step_subStep · hnone), (step_subStep · hnone)⟩
  case run => rw [← steps_tick later s, ← noEventFor_iff_ahead.mp hnone]

/-! ### The tick of an idle port (R252) -/

/-- Nothing is to do: every machine is idle, no flag is set, no message queued and no confirmation owed. -/
structure IdlePort (s : State) : Prop where
  prlTx : s.prlTx = ⟨.waitForMessageRequest, false, false, false⟩
  prlHr : s.prlHr.state = .waitForRequest
  peHardReset : s.prlHr.peHardReset = false
  portPartnerHardReset : s.prlHr.portPartnerHardReset = false
  rch : s.rch = ⟨.waitForMessage, false, false, false, false, false, false⟩
  tch : s.tch = ⟨.waitForRequestFromPe, false, false, false, false, false, false⟩
  rxq : s.rxq = []
  txOwed : s.txOwed = none

section
variable {s : State}

theorem IdlePort.of_leaveWait (h : IdlePort s) : IdlePort (leaveWait s) := { h with }

theorem IdlePort.runRch_eq (h : IdlePort s) : runRch s = .next s := by
  rw [runRch_waitForMessage (by rw [h.rch]) (by rw [h.rch]), if_pos (by rw [h.rch]), ← h.rch]

theorem IdlePort.runTch_eq (h : IdlePort s) : runTch s = .next s := by
  rw [(tchTakesRequest s).2 (by rw [h.tch])]
  simp only [h.tch, Bool.false_eq_true, false_and, if_false]
  rw [← h.tch]

theorem IdlePort.stepPrlTx_eq (h : IdlePort s) : stepPrlTx s = s := by
  rw [stepPrlTx_none h.txOwed, runPrlTx_noRequest (by rw [h.prlTx]) (by rw [h.prlTx]), h.prlTx, ← h.prlTx]

theorem IdlePort.runPrlHr_eq (h : IdlePort s) : runPrlHr s = s := by
  rw [runPrlHr_waitForRequest h.prlHr, if_neg (by simp [h.peHardReset, h.portPartnerHardReset])]

theorem IdlePort.tickBody_eq (h : IdlePort s) : tickBody s = .next s := by
  simp only [tickBody, runPrlRx_idle (.inl h.rxq), h.runRch_eq, h.runTch_eq, h.stepPrlTx_eq, andThen_next]

theorem IdlePort.tick_eq (h : IdlePort s) (hl : s.loop = .waiting) :
    tick s = .next { s with timers := { s.timers with wakeCeiling := Timer.on } } := by
  have hidle := h.of_leaveWait
  rw [tick_of_waiting hl, beforePrlHr, if_pos hidle.prlHr, hidle.tickBody_eq, thenState_next, hidle.runPrlHr_eq]
  rfl

end

/-- Settles O14: the stutter of a waiting loop, and the tick of an idle port, which owes nothing as it waits. -/
theorem idleLoopChangesNothing : Obligations.IdleLoopChangesNothing := by
  refine fun s => ⟨step_waiting, fun hprlTx hprlHr hpe hpartner hrch htch hrxq hl howed => ?_⟩
  have hnone : s.txOwed = none := by
    by_contra hne
    obtain ⟨hloop, -⟩ := howed hne
    simp [hl] at hloop
  exact IdlePort.tick_eq ⟨hprlTx, hprlHr, hpe, hpartner, hrch, htch, hrxq, hnone⟩ hl

end Sys2Proof.Machine
end

section
/-! PROOFS. Between events the loop goes on (R255, R263): every run of every machine answers a next state, but for the
two assertions of 93_implementation_defined.md Part 1; R233's is kept from failing by the sharing of the latches. -/

namespace Sys2Proof.Machine

/-! ### PRL-RX -/

/-- Every message class answers a next state (R132). -/
theorem runPrlRx_completes (s : State) : ∃ t, runPrlRx s = .next t := by
  by_cases hidle : s.rxq = [] ∨ s.rch.msgReceived = true ∨ s.tch.msgReceived = true
  · exact ⟨s, runPrlRx_idle hidle⟩
  · simp only [not_or, Bool.not_eq_true] at hidle
    obtain ⟨hqueue, hrch, htch⟩ := hidle
    obtain ⟨m, rest, hq⟩ := List.exists_cons_of_ne_nil hqueue
    rw [runPrlRx_message hq hrch htch]
    rcases decodeMsg_cases s.params m with hmalformed | ⟨-, hsoft⟩ | hdedup
    · rw [hmalformed]
      exact ⟨_, rfl⟩
    · rw [hsoft]
      exact ⟨_, rfl⟩
    · obtain ⟨deliver, hexec, -, -⟩ := exec_dedup hdedup
      exact ⟨_, hexec _⟩

/-! ### RCH: the assertion of R198 -/

/-- A run from `s` completes, or is the fault of R198's assertion over a pending transmission (log 14). -/
abbrev CompletesOrAsserts (s : State) (r : Result) : Prop :=
  (∃ t, r = .next t) ∨ (txPending s = true ∧ r = .fault .rchSubmitWhileTxPending)

theorem requestChunk_completesOrAsserts (s : State) : CompletesOrAsserts s (requestChunk s) := by
  unfold requestChunk
  split
  next hpending => exact .inr ⟨hpending, rfl⟩
  next => exact .inl ⟨_, rfl⟩

theorem finishOrRequest_completesOrAsserts (s : State) : CompletesOrAsserts s (finishOrRequest s) := by
  unfold finishOrRequest
  split
  · exact .inl ⟨_, rfl⟩
  · exact requestChunk_completesOrAsserts s

/-- Appending a chunk leaves PRL-TX alone. -/
theorem processChunk_completesOrAsserts (m : Msg) (x : XHdr) (s : State) :
    CompletesOrAsserts s (processChunk m x s) := by
  rw [processChunk_eq]
  split
  · exact .inl ⟨_, rfl⟩
  split
  · exact .inl ⟨_, rfl⟩
  · exact finishOrRequest_completesOrAsserts (appendChunk m { s with rxTotal := announcedTotal x s })

/-- Only the run that processes a chunk may assert. -/
theorem runRch_completes {s : State} (h : s.rch.state ≠ .processingExtendedMessage) : ∃ t, runRch s = .next t := by
  unfold runRch
  split
  case h_2 hprocessing => exact absurd hprocessing h
  all_goals exact ⟨_, rfl⟩

theorem runRch_completesOrAsserts (s : State) :
    (∃ t, runRch s = .next t) ∨
    (s.rch.state = .processingExtendedMessage ∧ txPending s = true ∧
      runRch s = .fault .rchSubmitWhileTxPending) := by
  by_cases hstate : s.rch.state = .processingExtendedMessage
  · rw [runRch_processing hstate]
    split
    · exact .inl ⟨_, rfl⟩
    · exact (processChunk_completesOrAsserts _ _ s).imp_right fun hasserts => ⟨hstate, hasserts⟩
  · exact .inl (runRch_completes hstate)

/-! ### TCH: the assertion of R233 -/

theorem forwardChecked_completes {s : State} (hfree : s.rch.msgReceived = false) :
    ∃ t, forwardChecked s = .next t := ⟨_, if_neg (by simp [hfree])⟩

theorem preemptTch_completes {s : State} (hfree : s.rch.msgReceived = false) : ∃ t, preemptTch s = .next t :=
  ⟨_, if_neg (by simp [hfree])⟩

/-- Where TCH's latch is full RCH's is free. -/
abbrev MayForward (s : State) : Prop := s.tch.msgReceived = true → s.rch.msgReceived = false

theorem tchDiscarded_completes {s : State} (hfree : MayForward s) : ∃ t, tchDiscarded s = .next t := by
  unfold tchDiscarded
  dsimp only
  split
  next hmsg => exact preemptTch_completes (hfree hmsg)
  next => exact ⟨_, rfl⟩

/-- TCH forwards only a message in its latch, so where RCH's latch is then free the assertion never fails. -/
theorem runTch_completes {s : State} (hfree : MayForward s) : ∃ t, runTch s = .next t := by
  unfold runTch
  split
  case h_1 =>
    unfold runWaitForRequestFromPe
    dsimp only
    split
    next hmsg => exact forwardChecked_completes (hfree hmsg)
    next => split <;> exact ⟨_, rfl⟩
  case h_2 =>
    unfold runConstructChunkedMessage
    split
    · exact ⟨_, rfl⟩
    split
    next hmsg => exact preemptTch_completes (hfree hmsg)
    next => exact ⟨_, rfl⟩
  case h_3 =>
    unfold runWaitForTransmissionComplete
    split
    · exact ⟨_, rfl⟩
    split
    · exact ⟨_, rfl⟩
    split
    · exact tchDiscarded_completes hfree
    · exact ⟨_, rfl⟩
  case h_4 =>
    unfold runSendingChunkedMessage
    split
    · exact ⟨_, rfl⟩
    split
    · exact ⟨_, rfl⟩
    split
    · exact tchDiscarded_completes hfree
    · exact ⟨_, rfl⟩
  case h_5 =>
    unfold runWaitChunkRequest
    split
    · exact ⟨_, rfl⟩
    split
    next hmsg =>
      split
      · dsimp only
        split <;> exact ⟨_, rfl⟩
      · exact preemptTch_completes (hfree hmsg)
    next => split <;> exact ⟨_, rfl⟩
  all_goals exact ⟨_, rfl⟩

/-! ### The step -/

/-- At most one of the two receive latches is full (R54). -/
theorem Inv.mayForward {s : State} (h : Inv s) : MayForward s := by
  obtain ⟨hone, -, -⟩ := h.latches
  exact fun htch => Bool.eq_false_iff.mpr fun hrch => hone ⟨hrch, htch⟩

theorem runSubStep_completesOrAsserts (p : SubStep) {s : State} (hfree : MayForward s) :
    (∃ t, runSubStep p s = .next t) ∨
    (s.rch.state = .processingExtendedMessage ∧ txPending s = true ∧
      runSubStep p s = .fault .rchSubmitWhileTxPending) := by
  cases p with
  | start => exact .inl ⟨_, rfl⟩
  | prlRx => exact .inl (runPrlRx_completes _)
  | rch1 => exact runRch_completesOrAsserts { s with loop := .tick .tch1 }
  | tch1 => exact .inl (runTch_completes hfree)
  | prlTx => exact .inl ⟨_, rfl⟩
  | rch2 => exact runRch_completesOrAsserts { s with loop := .tick .tch2 }
  | tch2 => exact .inl (runTch_completes hfree)
  | prlHr => exact .inl ⟨_, rfl⟩

/-- Settles O13: a waiting loop stutters, and a tick runs a sub-step. -/
theorem loopStepsComplete : Obligations.LoopStepsComplete := by
  rintro s hinv (⟨hl, hin⟩ | ⟨hl, later, hnone⟩)
  · exact .inl ⟨s, step_waiting hl hin⟩
  · cases hloop : s.loop with
    | waiting => exact absurd hloop hl
    | tick p =>
      rw [step_subStep hloop hnone]
      exact runSubStep_completesOrAsserts p (s := { s with inputs := later }) hinv.mayForward

end Sys2Proof.Machine
end

section
/-! PROOFS. The Hard Reset over the whole port (R178, R253, R310): what a step can write while one is in progress; and
afterwards, which steps write a record that is NONE or a revision that is REV_DEFAULT. -/

namespace Sys2Proof.Machine

/-! ### What events need (R275, R276, R278) -/

/-- An event behind a precondition that answers a next state meets the precondition. -/
theorem holds_of_guarded {c : Prop} [Decidable c] {r : Result} {e : Refusal} {t : State}
    (h : (if c then r else .refused e) = .next t) : c := by
  by_contra hc
  rw [if_neg hc] at h
  nomatch h

theorem execPeSetRevision_idle {v : Sop} {r : BitVec 2} {s t : State} (h : execPeSetRevision v r s = .next t) :
    s.prlHr.state = .waitForRequest := by
  unfold execPeSetRevision at h
  split at h
  · nomatch h
  · exact holds_of_guarded h

theorem execPeResetMessageIds_idle {v : Sop} {s t : State} (h : execPeResetMessageIds v s = .next t) :
    s.prlHr.state = .waitForRequest := holds_of_guarded h

theorem expireTimer_rxq {i : TimerId} {s t : State} (h : expireTimer i s = .next t) : t.rxq = s.rxq := by
  unfold expireTimer at h
  split at h
  · split at h
    · nomatch h
    · cases h
      rfl
  · nomatch h

theorem wakeLoop_rxq (s : State) : (wakeLoop s).rxq = s.rxq := by
  unfold wakeLoop
  split <;> rfl

/-- Only TP.rx writes the receive queue, and it is refused while receive is disabled (R278). -/
theorem event_rxq {i : Instr} {s t : State} (hi : isEvent i = true) (hrx : s.rxEnabled = false)
    (h : exec i s = .next t) : t.rxq = s.rxq := by
  cases i
  case tpRx m =>
    have henabled : s.rxEnabled = true := holds_of_guarded (next_of_guarded h)
    simp [hrx] at henabled
  case peSendCtrlMessage | peHardResetComplete | peResetMessageIds | tpTxCompleteOk | tpTxCompleteFail
      | tpHardResetSent =>
    cases next_of_guarded h
    rfl
  case peSendDataMessage | peSendExtendedMessage =>
    cases next_of_guarded (next_of_guarded h)
    rfl
  case peExecuteHardReset | peAbort | tpHardResetReceived | tcSetPowerRole | tcSetDataRole | tcSetFrs
      | tcSetCcSinkTx =>
    cases h
    rfl
  case peSetRevision =>
    cases execPeSetRevision_eq_next h
    rfl
  case timerExpireTxResponse | timerExpireSrcCa | timerExpireHrComplete | timerExpireChunkResponse
      | timerExpireChunkRequest => exact expireTimer_rxq h
  case timerExpireWakeCeiling =>
    obtain ⟨u, hexpire, rfl⟩ := thenState_eq_next h
    exact (wakeLoop_rxq u).trans (expireTimer_rxq hexpire)
  case wake =>
    simp only [exec, execWake] at h
    split at h
    · cases h
      exact wakeLoop_rxq s
    · nomatch h
  -- a message class is no event
  all_goals nomatch hi

/-! ### While a Hard Reset is in progress (R178, R253, R310) -/

/-- From `s` to `t` the receive queue, the counters, the records and the revisions stayed, and nothing was emitted but
PRL-HR's own notifications. -/
structure HeldOff (s t : State) : Prop where
  rxq : t.rxq = s.rxq
  variants : perSop t = perSop s
  emits : countEmits (fun e => !isHardResetEmit e) t.trace = countEmits (fun e => !isHardResetEmit e) s.trace

theorem HeldOff.refl (s : State) : HeldOff s s := ⟨rfl, rfl, rfl⟩

/-- One notification of PRL-HR's is emitted. -/
theorem HeldOff.of_emit {s t : State} {e : Emit} (hrxq : t.rxq = s.rxq) (hvariants : perSop t = perSop s)
    (htrace : t.trace = s.trace ++ [e]) (he : isHardResetEmit e = true) : HeldOff s t := by
  refine ⟨hrxq, hvariants, ?_⟩
  rw [htrace, countEmits_append]
  simp [countEmits, he]

/-- PRL-HR's runs after ResetLayer is entered. -/
theorem runPrlHr_heldOff {s : State} (h : s.prlHr.state ≠ .waitForRequest) : HeldOff s (runPrlHr s) := by
  cases hs : s.prlHr.state with
  | waitForRequest => exact absurd hs h
  | resetLayer =>
    rw [runPrlHr_resetLayer hs]
    split <;> exact .of_emit rfl rfl rfl rfl
  | waitForPhyHardResetComplete =>
    rw [runPrlHr_waitForPhy hs]
    split
    · exact .of_emit rfl rfl rfl rfl
    · exact .refl s
  | waitForPeHardResetComplete =>
    rw [runPrlHr_waitForPe hs, hrFinalExit_eq]
    split
    · exact .of_emit rfl rfl rfl rfl
    · exact .refl s

/-- PE.set_revision and PE.reset_message_ids are refused, and so is TP.rx. -/
theorem event_heldOff {i : Instr} {s t : State} (hi : isEvent i = true) (hhr : s.prlHr.state ≠ .waitForRequest)
    (hrx : s.rxEnabled = false) (h : exec i s = .next t) : HeldOff s t := by
  have hrxq := event_rxq hi hrx h
  rcases execEvent_cases hi h with ⟨v, r, rfl, -⟩ | ⟨v, rfl, -⟩ | ⟨u, rfl⟩
  · exact absurd (execPeSetRevision_idle h) hhr
  · exact absurd (execPeResetMessageIds_idle h) hhr
  · exact ⟨hrxq, rfl, rfl⟩

/-- Outside sub-steps 3 to 8 a tick only starts, or runs PRL-HR. -/
theorem subStep_heldOff {p : SubStep} {s t : State} (hhr : s.prlHr.state ≠ .waitForRequest)
    (hbody : inBody (.tick p) = false) (h : runSubStep p s = .next t) : HeldOff s t := by
  cases p with
  | start =>
    cases h
    exact ⟨rfl, rfl, rfl⟩
  | prlHr =>
    cases h
    exact { runPrlHr_heldOff hhr with }
  | prlRx | rch1 | tch1 | prlTx | rch2 | tch2 => nomatch hbody

theorem step_heldOff {s t : State} (hinv : Inv s) (hhr : s.prlHr.state ≠ .waitForRequest) (h : step s = .next t) :
    HeldOff s t := by
  obtain ⟨hrx, hbody, -⟩ := hinv.hardReset
  rcases step_cases h with ⟨a, bytes, rest, i, -, -, hdec, hexec⟩ | ⟨-, -, rfl⟩ | ⟨p, later, hl, -, hsub⟩
  · have hdisabled : s.rxEnabled = false := by rw [hrx, decide_eq_false hhr]
    exact { event_heldOff (s := { s with inputs := rest }) (decodeLoneEvent_isEvent hdec) hhr hdisabled hexec with }
  · exact .refl _
  · have hout : inBody (.tick p) = false := by
      rw [← hl]
      exact Bool.eq_false_iff.mpr fun hin => hhr (hbody hin)
    exact { subStep_heldOff (s := { s with inputs := later }) hhr hout hsub with }

/-! ### What becomes of a record that is NONE and of a revision that is REV_DEFAULT (R33, R34, R178) -/

/-- From `s` to `t` a record that is NONE and a revision that is REV_DEFAULT stayed so. -/
structure KeepsReset (s t : State) : Prop where
  record : ∀ v, s.rxRecord.get v = none → t.rxRecord.get v = none
  rev : ∀ v, s.rev.get v = s.params.revDefault → t.rev.get v = s.params.revDefault

theorem KeepsReset.of_eq {s t : State} (hrecord : t.rxRecord = s.rxRecord) (hrev : t.rev = s.rev) : KeepsReset s t :=
  ⟨fun v => by rw [hrecord]; exact id, fun v => by rw [hrev]; exact id⟩

theorem KeepsReset.of_perSop {s t : State} (h : perSop t = perSop s) : KeepsReset s t :=
  .of_eq (congrArg (·.2.1) h) (congrArg (·.2.2) h)

/-- Setting a record to NONE leaves NONE those that are. -/
theorem get_set_none {a : PerSop (Option (BitVec 3))} {v : Sop} (w : Sop) (h : a.get v = none) :
    (a.set w none).get v = none := by
  rcases PerSop.get_set_cases a w v none with hsame | ⟨-, hnone⟩
  · rw [hsame, h]
  · exact hnone

theorem KeepsReset.of_set_none {s t : State} (w : Sop) (hrecord : t.rxRecord = s.rxRecord.set w none)
    (hrev : t.rev = s.rev) : KeepsReset s t :=
  ⟨fun v hnone => by rw [hrecord]; exact get_set_none w hnone, fun v => by rw [hrev]; exact id⟩

theorem notify_rxRecord (x : TxOutcome) (s : State) : (notify x s).rxRecord = s.rxRecord := by rw [notify_eq]
theorem notify_rev (x : TxOutcome) (s : State) : (notify x s).rev = s.rev := by rw [notify_eq]

/-- Of PRL-TX's runs only the one that enters LayerResetForTransmit writes a record, which it sets to NONE (R146). -/
theorem runPrlTx_keepsReset (s : State) : KeepsReset s (runPrlTx s) := by
  cases hs : s.prlTx.state with
  | phyReset =>
    rw [runPrlTx_phyReset hs]
    exact .of_eq rfl rfl
  | waitForMessageRequest =>
    rw [(prlTxTakesMessage s).2 hs]
    split
    · split
      · exact .of_set_none s.txSlot.sop rfl rfl
      split
      · split <;> exact .of_eq rfl rfl
      · exact .of_eq rfl rfl
    · exact .of_eq rfl rfl
  | layerResetForTransmit =>
    rw [runPrlTx_layerResetForTransmit hs]
    exact .of_eq rfl rfl
  | srcCollisionAvoidance =>
    rw [runPrlTx_srcCollisionAvoidance hs]
    split <;> exact .of_eq rfl rfl
  | snkCollisionAvoidance =>
    rw [runPrlTx_snkCollisionAvoidance hs]
    split <;> exact .of_eq rfl rfl
  | waitForPhyResponse =>
    rw [runPrlTx_waitForPhyResponse hs]
    split
    · exact .of_eq (notify_rxRecord _ _) (notify_rev _ _)
    split
    · exact .of_eq (notify_rxRecord _ _) (notify_rev _ _)
    split
    · exact .of_eq (notify_rxRecord _ _) (notify_rev _ _)
    · exact .of_eq rfl rfl
  | discardMessage =>
    rw [runPrlTx_discardMessage hs]
    exact .of_eq rfl rfl

/-- PRL-HR writes them only as R172 does, with the very values. -/
theorem runPrlHr_keepsReset (s : State) : KeepsReset s (runPrlHr s) := by
  by_cases hidle : s.prlHr.state = .waitForRequest
  · rw [(hardResetEntered s).1 hidle]
    split
    · exact ⟨fun v _ => PerSop.get_fill _ v, fun v _ => PerSop.get_fill _ v⟩
    · exact .of_eq rfl rfl
  · exact .of_perSop (runPrlHr_heldOff hidle).variants

/-! ### The two writes that R33 and R34 name (R127, R275) -/

/-- PRL-RX takes the message `m`, neither malformed nor a Soft Reset, and records its ID (R120, R127). -/
structure AcceptsMessage (m : Msg) (s t : State) : Prop where
  rchFree : s.rch.msgReceived = false
  tchFree : s.tch.msgReceived = false
  queued : ∃ rest, s.rxq = m :: rest
  notMalformed : classify s.params m ≠ .malformedExt
  notSoftReset : classify s.params m ≠ .softReset
  record : t.rxRecord = s.rxRecord.set m.sop (some (hdrId m.hdr))
  rev : t.rev = s.rev

/-- The two classes that are not subject to deduplication are dispatched apart (R121). -/
theorem classify_of_dedup {p : Params} {m : Msg} (h : decodeMsg p m ∈ dedupClasses m) :
    classify p m ≠ .malformedExt ∧ classify p m ≠ .softReset := by
  constructor <;> intro hclass <;> simp [decodeMsg, hclass, dedupClasses, routedClasses] at h

/-- A class subject to deduplication is dropped as a duplicate, or its ID is recorded (R126, R127). -/
theorem exec_dedup_record {m : Msg} {i : Instr} (hi : i ∈ dedupClasses m) {s t : State} (h : exec i s = .next t) :
    t.rev = s.rev ∧ (t.rxRecord = s.rxRecord ∨ t.rxRecord = s.rxRecord.set m.sop (some (hdrId m.hdr))) := by
  obtain ⟨deliver, hexec, hspares, hrec⟩ := exec_dedup hi
  rw [hexec] at h
  obtain rfl := Host.Outcome.next.inj h
  refine ⟨(acceptThen_spares m hspares s).rev, ?_⟩
  by_cases hdup : s.rxRecord.get m.sop = some (hdrId m.hdr)
  · rw [acceptThen_duplicate deliver hdup]
    exact .inl rfl
  · rw [acceptThen_accepted deliver hdup, hrec]
    exact .inr rfl

/-- What PRL-RX's sub-step does to the records and the revisions. -/
theorem runPrlRx_keepsReset {s t : State} (h : runPrlRx s = .next t) :
    KeepsReset s t ∨ ∃ m, AcceptsMessage m s t := by
  by_cases hidle : s.rxq = [] ∨ s.rch.msgReceived = true ∨ s.tch.msgReceived = true
  · rw [runPrlRx_idle hidle] at h
    cases h
    exact .inl (.of_eq rfl rfl)
  · simp only [not_or, Bool.not_eq_true] at hidle
    obtain ⟨hqueue, hrch, htch⟩ := hidle
    obtain ⟨m, rest, hq⟩ := List.exists_cons_of_ne_nil hqueue
    rw [runPrlRx_message hq hrch htch] at h
    rcases decodeMsg_cases s.params m with hmalformed | ⟨-, hsoft⟩ | hdedup
    · rw [hmalformed] at h
      cases h
      exact .inl (.of_eq rfl rfl)
    · rw [hsoft, Sys2Proof.softResetReceived.1] at h
      cases h
      exact .inl (.of_set_none m.sop rfl rfl)
    · obtain ⟨hnotMalformed, hnotSoft⟩ := classify_of_dedup hdedup
      obtain ⟨hrev, hsame | hset⟩ := exec_dedup_record hdedup h
      · exact .inl (.of_eq hsame hrev)
      · exact .inr ⟨m, hrch, htch, ⟨rest, hq⟩, hnotMalformed, hnotSoft, hset, hrev⟩

theorem subStep_keepsReset {p : SubStep} {s t : State} (h : runSubStep p s = .next t) :
    KeepsReset s t ∨ (p = .prlRx ∧ ∃ m, AcceptsMessage m s t) := by
  by_cases hrx : p = .prlRx
  · subst hrx
    rcases runPrlRx_keepsReset h with hkept | ⟨m, haccepts⟩
    · exact .inl { hkept with }
    · exact .inr ⟨rfl, m, { haccepts with }⟩
  refine .inl ?_
  by_cases htx : p = .prlTx
  · subst htx
    cases h
    exact { runPrlTx_keepsReset (countOwed { s with loop := .tick .rch2 }) with }
  by_cases hhr : p = .prlHr
  · subst hhr
    cases h
    exact { runPrlHr_keepsReset s with }
  exact .of_perSop (congrArg (·.1.1) (runSubStep_ids hrx htx hhr h))

/-- An event writes no record but to NONE, and a revision only as PE.set_revision, once PRL-HR is idle (R275, R276). -/
theorem event_keepsReset {i : Instr} {s t : State} (hi : isEvent i = true) (h : exec i s = .next t) :
    KeepsReset s t ∨
    (s.prlHr.state = .waitForRequest ∧
      ∃ v r, i = .peSetRevision v r ∧ t.rxRecord = s.rxRecord ∧ t.rev = s.rev.set v r) := by
  rcases execEvent_cases hi h with ⟨v, r, rfl, rfl⟩ | ⟨v, rfl, rfl⟩ | ⟨u, rfl⟩
  · exact .inr ⟨execPeSetRevision_idle h, v, r, rfl, rfl, rfl⟩
  · exact .inl (.of_set_none v rfl rfl)
  · exact .inl (.of_eq rfl rfl)

/-! ### The step -/

/-- The event that falls due at `s` sets the revision of `v` to `r`, PRL-HR being idle (R34, R275). -/
structure SetsRevision (v : Sop) (r : BitVec 2) (s t : State) : Prop where
  idle : s.prlHr.state = .waitForRequest
  due : ∃ a bytes rest more, s.inputs = ⟨a, bytes⟩ :: rest ∧ (s.loop = .waiting ∨ a = 0) ∧
    decode s.params (.event bytes) = .ok (.peSetRevision v r, more)
  record : t.rxRecord = s.rxRecord
  rev : t.rev = s.rev.set v r

/-- What a step can do to a record that is NONE and to a revision that is REV_DEFAULT. -/
theorem step_keepsReset {s t : State} (h : step s = .next t) :
    KeepsReset s t ∨
    ((∃ later, NoEventFor 1 s later) ∧ s.loop = .tick .prlRx ∧ ∃ m, AcceptsMessage m s t) ∨
    ∃ v r, SetsRevision v r s t := by
  rcases step_cases h with ⟨a, bytes, rest, i, hin, hdue, hdec, hexec⟩ | ⟨-, -, rfl⟩ | ⟨p, later, hl, hnone, hsub⟩
  · rcases event_keepsReset (decodeLoneEvent_isEvent hdec) hexec with hkept | ⟨hidle, v, r, rfl, hrecord, hrev⟩
    · exact .inl { hkept with }
    · obtain ⟨more, hdecode⟩ := decodeEvent_of_decodeLoneEvent hdec
      exact .inr (.inr ⟨v, r, hidle, ⟨a, bytes, rest, more, hin, hdue, hdecode⟩, hrecord, hrev⟩)
  · exact .inl (.of_eq rfl rfl)
  · rcases subStep_keepsReset hsub with hkept | ⟨rfl, m, haccepts⟩
    · exact .inl { hkept with }
    · exact .inr (.inl ⟨⟨later, hnone⟩, hl, m, { haccepts with }⟩)

/-- A counter that is 0 moves only by counting a transmission: every other step that writes it sets it to 0. -/
theorem step_txCounter_of_zero {s t : State} {v : Sop} (howed : OwedUntilStepped s) (h : step s = .next t)
    (hzero : s.txCounter.get v = 0) :
    t.txCounter.get v = 0 ∨ ((∃ later, NoEventFor 1 s later) ∧ CountsSent v s t) := by
  rcases step_txCounter v howed h with hsame | ⟨hreset, -⟩ | ⟨hnone, hcounts | ⟨hreset, -⟩⟩
  · exact .inl (hsame.trans hzero)
  · exact .inl hreset
  · exact .inr ⟨hnone, hcounts⟩
  · exact .inl hreset

theorem step_rxRecord_of_none {s t : State} {v : Sop} (h : step s = .next t) (hnone : s.rxRecord.get v = none) :
    t.rxRecord.get v = none ∨
    ((∃ later, NoEventFor 1 s later) ∧ s.loop = .tick .prlRx ∧
      ∃ m, AcceptsMessage m s t ∧ m.sop = v ∧ t.rxRecord.get v = some (hdrId m.hdr)) := by
  rcases step_keepsReset h with hkept | ⟨hlater, hl, m, haccepts⟩ | ⟨w, r, hsets⟩
  · exact .inl (hkept.record v hnone)
  · rw [haccepts.record]
    rcases PerSop.get_set_cases s.rxRecord m.sop v (some (hdrId m.hdr)) with hsame | ⟨hv, hset⟩
    · exact .inl (hsame.trans hnone)
    · exact .inr ⟨hlater, hl, m, haccepts, hv.symm, hset⟩
  · exact .inl (by rw [hsets.record, hnone])

theorem step_rev_of_default {s t : State} {v : Sop} (h : step s = .next t)
    (hdefault : s.rev.get v = s.params.revDefault) :
    t.rev.get v = s.params.revDefault ∨ ∃ r, SetsRevision v r s t ∧ t.rev.get v = r := by
  rcases step_keepsReset h with hkept | ⟨-, -, m, haccepts⟩ | ⟨w, r, hsets⟩
  · exact .inl (hkept.rev v hdefault)
  · exact .inl (by rw [haccepts.rev, hdefault])
  · rcases PerSop.get_set_cases s.rev w v r with hsame | ⟨rfl, hset⟩
    · exact .inl (by rw [hsets.rev, hsame, hdefault])
    · exact .inr ⟨r, hsets, by rw [hsets.rev, hset]⟩

/-- Settles O43: in a Hard Reset nothing moves that the invariant holds at its reset value; at any time, the three
writes that end R178's span. -/
theorem hardResetPreempts : Obligations.HardResetPreempts := by
  refine ⟨fun s t hinv hhr h => ?_, fun s t v howed h => ⟨fun hzero => ?_, fun hnone => ?_, fun hdefault => ?_⟩⟩
  · obtain ⟨hrxq, hvariants, hemits⟩ := step_heldOff hinv hhr h
    obtain ⟨-, -, hheld⟩ := hinv.hardReset
    obtain ⟨hcounter, hrecord, hrev, -⟩ := hheld hhr
    obtain ⟨htCounter, htRecord, htRev⟩ : _ ∧ _ ∧ _ := by simpa only [perSop, Prod.mk.injEq] using hvariants
    refine ⟨hrxq, hemits, fun v => ?_⟩
    rw [htCounter, htRecord, htRev, hcounter, hrecord, hrev]
    exact ⟨PerSop.get_fill _ v, PerSop.get_fill _ v, PerSop.get_fill _ v⟩
  · refine (step_txCounter_of_zero howed h hzero).imp_right ?_
    rintro ⟨hlater, hl, hcount, hwhy⟩
    exact ⟨hlater, hl, by rw [hcount, hzero]; rfl, hwhy⟩
  · refine (step_rxRecord_of_none h hnone).imp_right ?_
    rintro ⟨hlater, hl, m, haccepts, hsop, hid⟩
    obtain ⟨rest, hq⟩ := haccepts.queued
    exact ⟨hlater, hl, haccepts.rchFree, haccepts.tchFree, m, rest, hq, hsop, haccepts.notMalformed,
      haccepts.notSoftReset, hid⟩
  · refine (step_rev_of_default h hdefault).imp_right ?_
    rintro ⟨r, hsets, hr⟩
    obtain ⟨a, bytes, rest, more, hin, hdue, hdec⟩ := hsets.due
    exact ⟨hsets.idle, a, bytes, rest, more, r, hin, hdue, hdec, hr⟩

end Sys2Proof.Machine
end

section
/-! PROOFS. The environment events one by one (R270 to R287): what each writes where its precondition holds, and the
refusal it answers where it does not. -/

namespace Sys2Proof.Machine

/-! ### The precondition of a PE send (R289) -/

theorem peSendEnabled_iff (s : State) : peSendEnabled s = true ↔ PeSendAllowed s := by
  unfold peSendEnabled PeSendAllowed
  cases s.tch.state <;> simp [and_assoc]

/-- A PE send whose operands are in range latches its request where it is allowed. -/
theorem guardedSend_of_allowed {s : State} (r : PeReq) (h : PeSendAllowed s) :
    (if peSendEnabled s then .next (latchRequest r s) else .refused .peSendNotEnabled : Result) =
      .next (latchRequest r s) :=
  if_pos ((peSendEnabled_iff s).mpr h)

theorem guardedSend_of_not_allowed {s : State} (r : PeReq) (h : ¬PeSendAllowed s) :
    (if peSendEnabled s then .next (latchRequest r s) else .refused .peSendNotEnabled : Result) =
      .refused .peSendNotEnabled :=
  if_neg (mt (peSendEnabled_iff s).mp h)

/-! ### Completions (R279, R280, R282) -/

theorem completion_of_outstanding {s : State} (f : State → State) (h : 0 < s.txOutstanding) :
    completion f s = .next (f { s with txOutstanding := s.txOutstanding - 1 }) := if_pos h

theorem completion_of_none_outstanding {s : State} (f : State → State) (h : s.txOutstanding = 0) :
    completion f s = .refused .noTransmissionOutstanding := if_neg (by omega)

/-! ### Timer expiry (R283, R257, R258) -/

theorem expireTimer_of_running {s : State} {i : TimerId} (h : s.timers.get i = Timer.on) :
    expireTimer i s = .next { s with timers := s.timers.set i ⟨true, true⟩ } := by
  simp [expireTimer, h]

theorem expireTimer_of_disarmed {s : State} {i : TimerId} (h : (s.timers.get i).armed = false) :
    expireTimer i s = .refused .timerNotArmed := by
  simp [expireTimer, h]

theorem expireTimer_of_expired {s : State} {i : TimerId} (harmed : (s.timers.get i).armed = true)
    (hexpired : (s.timers.get i).expired = true) : expireTimer i s = .refused .timerAlreadyExpired := by
  simp [expireTimer, harmed, hexpired]

theorem wakeLoop_eq (s : State) :
    wakeLoop s = { s with loop := if s.loop = .waiting then .tick .start else s.loop } := by
  unfold wakeLoop
  split <;> rename_i hloop
  · rw [if_pos hloop]
  · rw [if_neg (by simp [hloop])]

/-- The environment event that reports the expiry of a timer. -/
def expiryEvent : TimerId → Instr
  | .txResponse => .timerExpireTxResponse
  | .srcCa => .timerExpireSrcCa
  | .hrComplete => .timerExpireHrComplete
  | .chunkResponse => .timerExpireChunkResponse
  | .chunkRequest => .timerExpireChunkRequest
  | .wakeCeiling => .timerExpireWakeCeiling

/-- The expiry event of a timer is refused as the expiry itself is; for T_WAKE_CEILING, the loop is then not woken. -/
theorem exec_expiryEvent_of_refused {s : State} {i : TimerId} {e : Refusal} (h : expireTimer i s = .refused e) :
    exec (expiryEvent i) s = .refused e := by
  cases i
  case wakeCeiling => exact congrArg (thenState · wakeLoop) h
  all_goals exact h

theorem exec_timerExpireWakeCeiling_of_running {s : State} (h : s.timers.wakeCeiling = Timer.on) :
    exec .timerExpireWakeCeiling s = .next
      { s with
        timers := { s.timers with wakeCeiling := ⟨true, true⟩ }
        loop := if s.loop = .waiting then .tick .start else s.loop } := by
  have hexpire := expireTimer_of_running (i := .wakeCeiling) h
  calc exec .timerExpireWakeCeiling s
    _ = thenState (expireTimer .wakeCeiling s) wakeLoop := rfl
    _ = .next (wakeLoop { s with timers := s.timers.set .wakeCeiling ⟨true, true⟩ }) := by rw [hexpire, thenState_next]
    _ = _ := by rw [wakeLoop_eq, Timers.set_wakeCeiling]

/-! ### The statements -/

/-- Settles O23: the operands' bounds are the outer precondition of the data and extended sends, `PeSendAllowed` the
inner one, and of the control send the only one. -/
theorem peSendsLatchRequest : Obligations.PeSendsLatchRequest := by
  intro s v typ
  refine ⟨?ctrl, ?data, ?ext, ?ctrlNotAllowed, ?dataRange, ?dataNotAllowed, ?extRange, ?extNotAllowed⟩
  case ctrl => exact guardedSend_of_allowed _
  case data => exact fun _ _ h hmin hmax hlen => (if_pos ⟨hmin, hmax, hlen⟩).trans (guardedSend_of_allowed _ h)
  case ext => exact fun _ _ h hmax hlen => (if_pos ⟨hmax, hlen⟩).trans (guardedSend_of_allowed _ h)
  case ctrlNotAllowed => exact guardedSend_of_not_allowed _
  case dataRange => exact fun _ _ hrange => if_neg hrange
  case dataNotAllowed =>
    exact fun _ _ h hmin hmax hlen => (if_pos ⟨hmin, hmax, hlen⟩).trans (guardedSend_of_not_allowed _ h)
  case extRange => exact fun _ _ hrange => if_neg hrange
  case extNotAllowed => exact fun _ _ h hmax hlen => (if_pos ⟨hmax, hlen⟩).trans (guardedSend_of_not_allowed _ h)

/-- Settles O24: neither event has a precondition, and the statement is each one's definition. -/
theorem hardResetRequestEvents : Obligations.HardResetRequestEvents := fun _ => ⟨rfl, rfl⟩

/-- Settles O25, on the two sides of the one precondition. -/
theorem hardResetCompleteEvent : Obligations.HardResetCompleteEvent := fun _ => ⟨fun h => if_pos h, fun h => if_neg h⟩

/-- Settles O26: the reserved code is tested before PRL-HR's state; the law of the arrays is `PerSop.get_set`. -/
theorem revisionAndIdEvents : Obligations.RevisionAndIdEvents := by
  refine ⟨fun s v r => ⟨?setRevision, ?resetIds, ?reserved, ?setInHardReset, ?resetInHardReset⟩,
    fun _ => PerSop.get_set, rfl, rfl, rfl, rfl⟩
  case setRevision => exact fun hidle hr => (if_neg hr).trans (if_pos hidle)
  case resetIds => exact fun hidle => if_pos hidle
  case reserved => exact rfl
  case setInHardReset => exact fun hbusy hr => (if_neg hr).trans (if_neg hbusy)
  case resetInHardReset => exact fun hbusy => if_neg hbusy

/-- Settles O27: the event has no precondition, and the statement is its definition. -/
theorem abortSetsBothFlags : Obligations.AbortSetsBothFlags := fun _ => rfl

/-- Settles O28: the length is the outer precondition, and that receive is enabled the inner one. -/
theorem receiveEventQueues : Obligations.ReceiveEventQueues := by
  intro m s
  refine ⟨?queued, ?disabled, ?inconsistent⟩
  case queued => exact fun hlen hon => (if_pos hlen).trans (if_pos hon)
  case disabled => exact fun hlen hoff => (if_pos hlen).trans (if_neg (ne_true_of_eq_false hoff))
  case inconsistent => exact fun hlen => if_neg hlen

/-- Settles O29: the three events are one completion, each with a flag of its own. -/
theorem completionEvents : Obligations.CompletionEvents := by
  intro s
  simp only [exec, execTpTxCompleteOk, execTpTxCompleteFail, execTpHardResetSent]
  refine ⟨fun hout => ?outstanding, fun hnone => ?none⟩
  case outstanding => simp only [completion_of_outstanding _ hout, and_self]
  case none => simp only [completion_of_none_outstanding _ hnone, and_self]

/-- Settles O30: the six events are one expiry, each of its own timer, and T_WAKE_CEILING's then wakes the loop. -/
theorem timerExpiryEvents : Obligations.TimerExpiryEvents := by
  intro s
  refine ⟨expireTimer_of_running (i := .txResponse), expireTimer_of_running (i := .srcCa),
    expireTimer_of_running (i := .hrComplete), expireTimer_of_running (i := .chunkResponse),
    expireTimer_of_running (i := .chunkRequest), exec_timerExpireWakeCeiling_of_running, fun i t hmem => ?_⟩
  obtain ⟨id, -, hid⟩ := List.mem_map (f := fun id => (expiryEvent id, s.timers.get id))
    (l := [.txResponse, .srcCa, .hrComplete, .chunkResponse, .chunkRequest, .wakeCeiling]).mp hmem
  obtain ⟨rfl, rfl⟩ := Prod.mk.inj hid
  exact ⟨fun hoff => exec_expiryEvent_of_refused (expireTimer_of_disarmed hoff),
    fun hon hexpired => exec_expiryEvent_of_refused (expireTimer_of_expired hon hexpired)⟩

/-- Settles O31: no Type-C input has a precondition, and the statement is each one's definition. -/
theorem typeCInputEvents : Obligations.TypeCInputEvents := fun _ =>
  ⟨fun _ => rfl, fun _ => rfl, fun _ => rfl, fun _ => rfl⟩

end Sys2Proof.Machine
end

section
/-! PROOFS. What reset leaves, and the first tick (R55, R330): PRL-TX leaves PhyReset, and nothing else is to do. -/

namespace Sys2Proof.Machine

/-- RCH idle with no flag set has nothing to do. -/
theorem runRch_quiet {s : State} (h : s.rch = ⟨.waitForMessage, false, false, false, false, false, false⟩) :
    runRch s = .next s := by
  rw [runRch_waitForMessage (by rw [h]) (by rw [h]), if_pos (by rw [h]), ← h]

/-- TCH idle with no flag set has nothing to do. -/
theorem runTch_quiet {s : State} (h : s.tch = ⟨.waitForRequestFromPe, false, false, false, false, false, false⟩) :
    runTch s = .next s := by
  rw [(tchTakesRequest s).2 (by rw [h])]
  simp only [h, Bool.false_eq_true, false_and, if_false]
  rw [← h]

/-- The port once PRL-TX has left the state that reset put it in. -/
abbrev bootReady (p : Params) (l : Launch) : State :=
  { State.boot p l with prlTx := ⟨.waitForMessageRequest, false, false, false⟩ }

theorem bootReady_idlePort (p : Params) (l : Launch) : IdlePort (bootReady p l) :=
  ⟨rfl, rfl, rfl, rfl, rfl, rfl, rfl, rfl⟩

theorem stepPrlTx_boot (p : Params) (l : Launch) :
    stepPrlTx (leaveWait (State.boot p l)) = leaveWait (bootReady p l) := by
  rw [stepPrlTx_none rfl, runPrlTx_phyReset rfl]
  rfl

theorem tickBody_boot (p : Params) (l : Launch) :
    tickBody (leaveWait (State.boot p l)) = .next (leaveWait (bootReady p l)) := by
  have hidle := (bootReady_idlePort p l).of_leaveWait
  rw [tickBody, runPrlRx_idle (.inl rfl), andThen_next, runRch_quiet rfl, andThen_next, runTch_quiet rfl, andThen_next,
    stepPrlTx_boot, hidle.runRch_eq, andThen_next, hidle.runTch_eq]

/-- The first tick takes PRL-TX to WaitForMessageRequest and changes nothing else (R142). -/
theorem tick_boot (p : Params) (l : Launch) : tick (State.boot p l) = .next (bootReady p l) := by
  have hbody : beforePrlHr (leaveWait (State.boot p l)) = .next (leaveWait (bootReady p l)) :=
    (if_pos rfl).trans (tickBody_boot p l)
  rw [tick_of_waiting rfl, hbody, thenState_next, (bootReady_idlePort p l).of_leaveWait.runPrlHr_eq]
  rfl

/-- Settles O8: the reset values are `State.boot`'s fields, one value for all variants, and the tick is `tick_boot`. -/
theorem resetLeaves : Obligations.ResetLeaves := fun p l =>
  ⟨rfl, rfl, rfl, rfl, fun _ => ⟨PerSop.get_fill _ _, PerSop.get_fill _ _, PerSop.get_fill _ _⟩,
    rfl, rfl, rfl, rfl, rfl, rfl, rfl, rfl, rfl, rfl, rfl, rfl, rfl, rfl, tick_boot p l⟩

end Sys2Proof.Machine
end

section
/-! PROOFS. Raising an error (R300): one report, after the interrupting message where RCH holds one to pass up (R207),
and the return to idle by the machine's next run (R306). -/

namespace Sys2Proof.Machine

/-- RCH raises with an interrupting message to pass up first (R192, R207). -/
theorem raiseErr_rch_passing {s : State} (h : s.rch.passInterrupting = true) (kind : ErrKind) (v : Sop) :
    raiseErr .rch kind v s =
      afterRchError kind v
        { s with
          timers := rchTimersOff s
          rch := { s.rch with passInterrupting := false }
          trace := s.trace ++ [.peMessageReceived s.rchOut] } :=
  gotoRch_reportError_passing { s with rchErr := kind, rxSop := v } h

/-- What raising an error in RCH records and emits. -/
theorem raiseErr_rch_reports (kind : ErrKind) (v : Sop) (s : State) :
    (raiseErr .rch kind v s).rchErr = kind ∧ (raiseErr .rch kind v s).rxSop = v ∧
    (raiseErr .rch kind v s).rch.state = .reportError ∧ (raiseErr .rch kind v s).rch.passInterrupting = false ∧
    (raiseErr .rch kind v s).trace = s.trace ++
      (if s.rch.passInterrupting then [.peMessageReceived s.rchOut, .peReportError kind v]
        else [.peReportError kind v]) := by
  cases h : s.rch.passInterrupting with
  | false =>
    rw [raiseErr_rch kind v s h]
    exact ⟨rfl, rfl, rfl, h, rfl⟩
  | true =>
    rw [raiseErr_rch_passing h]
    exact ⟨rfl, rfl, rfl, rfl, List.append_assoc ..⟩

/-- What raising an error in TCH records and emits. -/
theorem raiseErr_tch_reports (kind : ErrKind) (v : Sop) (s : State) :
    (raiseErr .tch kind v s).tchErr = kind ∧ (raiseErr .tch kind v s).sendSop = v ∧
    (raiseErr .tch kind v s).tch.state = .reportError ∧
    (raiseErr .tch kind v s).trace = s.trace ++ [.peReportError kind v] := by
  rw [raiseErr_tch]
  exact ⟨rfl, rfl, rfl, rfl⟩

/-- Settles O55: ReportError is one of the states whose next run returns to idle. -/
theorem errorReportedOnce : Obligations.ErrorReportedOnce := by
  refine fun kind v s => ⟨?rch, ?tch⟩
  case rch =>
    obtain ⟨hkind, hsop, hstate, hpass, htrace⟩ := raiseErr_rch_reports kind v s
    exact ⟨hkind, hsop, hstate, hpass, htrace, runRch_transient (.inr hstate)⟩
  case tch =>
    obtain ⟨hkind, hsop, hstate, htrace⟩ := raiseErr_tch_reports kind v s
    exact ⟨hkind, hsop, hstate, htrace, runTch_transient (.inr (.inl hstate))⟩

end Sys2Proof.Machine
end

section
/-! PROOFS. The invariant over any step (R54, R259), and the span in which a confirmation is owed (R339, log 19): each
kept by every event and by every sub-step of the tick. -/

namespace Sys2Proof.Machine

/-! ### The control point and T_WAKE_CEILING (R251, R258) -/

/-- The loop moves, and T_WAKE_CEILING is armed where it comes to stand before a tick and disarmed where it does not. -/
theorem moveLoop_inv {s : State} (h : Inv s) (l : Loop) (w : Timer) (hw : timerOwned w (beforeTick l))
    (hl : inBody l = true → s.prlHr.state = .waitForRequest) :
    Inv { s with loop := l, timers := { s.timers with wakeCeiling := w } } :=
  { h with
    timers :=
      have ⟨htx, hca, hhr, hresponse, hrequest, _⟩ := h.timers
      ⟨htx, hca, hhr, hresponse, hrequest, hw⟩
    hardReset :=
      have ⟨hrx, _, hheld⟩ := h.hardReset
      ⟨hrx, hl, hheld⟩ }

/-- A tick starts with PRL-RX only where PRL-HR is idle (R253). -/
theorem startTick_inv {s : State} (h : Inv s) : Inv { leaveWait s with loop := .tick (firstSubStep s) } := by
  rw [leaveWait_eq, tick_firstSubStep]
  split
  next hidle => exact moveLoop_inv h _ _ timerOwned_off fun _ => hidle
  next => exact moveLoop_inv h _ _ timerOwned_off fun hbody => nomatch hbody

theorem enterWait_inv {s : State} (h : Inv s) : Inv (enterWait s) :=
  moveLoop_inv h _ _ timerOwned_on fun hbody => nomatch hbody

theorem beforeTick_of_inBody {p : SubStep} (h : inBody (.tick p) = true) : beforeTick (.tick p) = false := by
  cases p with
  | start | prlHr => nomatch h
  | prlRx | rch1 | tch1 | prlTx | rch2 | tch2 => rfl

/-- At sub-steps 3 to 8 PRL-HR is idle, and the loop moves on inside the tick (R253). -/
theorem nextSubStep_inv {p : SubStep} {s : State} (h : Inv s) (hl : s.loop = .tick p) (hp : inBody (.tick p) = true)
    (q : SubStep) (hq : beforeTick (.tick q) = false) :
    Inv { s with loop := .tick q } ∧ s.prlHr.state = .waitForRequest := by
  obtain ⟨-, hbody, -⟩ := h.hardReset
  have hidle : s.prlHr.state = .waitForRequest := hbody (by rw [hl]; exact hp)
  exact ⟨setLoop_inv h _ (by rw [hq, hl, beforeTick_of_inBody hp]) fun _ => hidle, hidle⟩

/-! ### The invariant over a step -/

theorem subStep_inv {p : SubStep} {s t : State} (h : Inv s) (hl : s.loop = .tick p)
    (hrun : runSubStep p s = .next t) : Inv t := by
  cases p with
  | start =>
    cases hrun
    exact startTick_inv h
  | prlRx =>
    obtain ⟨hnext, hidle⟩ := nextSubStep_inv h hl rfl .rch1 rfl
    exact runPrlRx_inv hnext hidle hrun
  | rch1 =>
    obtain ⟨hnext, hidle⟩ := nextSubStep_inv h hl rfl .tch1 rfl
    exact runRch_inv hnext hidle hrun
  | tch1 =>
    obtain ⟨hnext, hidle⟩ := nextSubStep_inv h hl rfl .prlTx rfl
    exact runTch_inv hnext hidle hrun
  | prlTx =>
    obtain ⟨hnext, hidle⟩ := nextSubStep_inv h hl rfl .rch2 rfl
    cases hrun
    exact stepPrlTx_inv hnext hidle
  | rch2 =>
    obtain ⟨hnext, hidle⟩ := nextSubStep_inv h hl rfl .tch2 rfl
    exact runRch_inv hnext hidle hrun
  | tch2 =>
    obtain ⟨hnext, hidle⟩ := nextSubStep_inv h hl rfl .prlHr rfl
    exact runTch_inv hnext hidle hrun
  | prlHr =>
    cases hrun
    exact enterWait_inv (runPrlHr_inv h (by rw [hl]; rfl))

theorem step_inv {s t : State} (h : Inv s) (hstep : step s = .next t) : Inv t := by
  rcases step_cases hstep with ⟨_, _, rest, _, -, -, hdec, hexec⟩ | ⟨-, -, rfl⟩ | ⟨_, later, hl, -, hsub⟩
  · exact execEvent_inv (inputs_inv h rest) (decodeLoneEvent_isEvent hdec) hexec
  · exact h
  · exact subStep_inv (inputs_inv h later) hl hsub

/-! ### Who writes what is owed (log 19) -/

theorem notify_txOwed (x : TxOutcome) (s : State) : (notify x s).txOwed = s.txOwed := by rw [notify_eq]

theorem runPrlTx_txOwed (s : State) : (runPrlTx s).txOwed = s.txOwed := by
  cases hs : s.prlTx.state with
  | phyReset => rw [runPrlTx_phyReset hs]; rfl
  | waitForMessageRequest =>
    rw [(prlTxTakesMessage s).2 hs]
    split
    · split
      · rfl
      split
      · split <;> rfl
      · rfl
    · rfl
  | layerResetForTransmit => rw [runPrlTx_layerResetForTransmit hs]; rfl
  | srcCollisionAvoidance => rw [runPrlTx_srcCollisionAvoidance hs]; split <;> rfl
  | snkCollisionAvoidance => rw [runPrlTx_snkCollisionAvoidance hs]; split <;> rfl
  | waitForPhyResponse =>
    rw [runPrlTx_waitForPhyResponse hs]
    split
    · exact notify_txOwed _ _
    split
    · exact notify_txOwed _ _
    split
    · exact notify_txOwed _ _
    · rfl
  | discardMessage => rw [runPrlTx_discardMessage hs]; rfl

/-- PRL-TX's sub-step leaves nothing owed: it counts what was, and its run adds nothing (R339). -/
theorem stepPrlTx_txOwed (s : State) : (stepPrlTx s).txOwed = none :=
  (runPrlTx_txOwed _).trans (countOwed_txOwed s)

theorem runPrlHr_txOwed (s : State) : (runPrlHr s).txOwed = s.txOwed := by
  cases hs : s.prlHr.state with
  | waitForRequest =>
    rw [runPrlHr_waitForRequest hs, gotoPrlHr_resetLayer_untimed (by rw [hs]; decide)]
    split <;> rfl
  | resetLayer =>
    rw [runPrlHr_resetLayer hs]
    split <;> rfl
  | waitForPhyHardResetComplete =>
    rw [runPrlHr_waitForPhy hs]
    split <;> rfl
  | waitForPeHardResetComplete =>
    rw [runPrlHr_waitForPe hs, hrFinalExit_eq]
    split <;> rfl

/-- Where nothing is owed, PRL-RX's sub-step owes a confirmation only by forcing PRL-TX off its state (R123, R155). -/
theorem runPrlRx_forcesOff {s t : State} (hnone : s.txOwed = none) (h : runPrlRx s = .next t)
    (howed : t.txOwed ≠ none) : ForcedOff t := by
  rcases runPrlRx_txCounter h with ⟨-, hsame | ⟨hdiscard, -⟩⟩ | ⟨_, -, -, hreset, -⟩
  · obtain ⟨-, -, htxOwed⟩ : _ ∧ _ ∧ _ := by simpa only [confirmation, Prod.mk.injEq] using hsame
    exact absurd (htxOwed.trans hnone) howed
  · exact .inr hdiscard
  · exact .inl hreset

/-! ### What is owed over a step (R339) -/

/-- The control points at which a confirmation may be owed: after PRL-RX's sub-step, up to PRL-TX's. -/
abbrev MayOwe (l : Loop) : Prop := l = .tick .rch1 ∨ l = .tick .tch1 ∨ l = .tick .prlTx

theorem OwedUntilStepped.of_none {s : State} (h : s.txOwed = none) : OwedUntilStepped s := fun howed => absurd h howed

theorem OwedUntilStepped.txOwed_eq_none {s : State} (h : OwedUntilStepped s) (hl : ¬MayOwe s.loop) :
    s.txOwed = none := by
  by_contra howed
  obtain ⟨hloop, -⟩ := h howed
  exact hl hloop

/-- A run that leaves PRL-TX alone (R239) and ends no later than PRL-TX's sub-step keeps what is owed. -/
theorem OwedUntilStepped.of_ids {s t : State} (h : OwedUntilStepped s) (hids : ids t = ids s) (hl : MayOwe t.loop) :
    OwedUntilStepped t := by
  obtain ⟨-, hstate, -, htxOwed, -⟩ := counted_of_ids hids
  intro howed
  obtain ⟨-, hoff⟩ := h (htxOwed ▸ howed)
  exact ⟨hl, by rwa [hstate]⟩

/-- A run that leaves PRL-TX alone where nothing is owed. -/
theorem OwedUntilStepped.of_ids_none {s t : State} (hnone : s.txOwed = none) (hids : ids t = ids s) :
    OwedUntilStepped t := by
  obtain ⟨-, -, -, htxOwed, -⟩ := counted_of_ids hids
  exact .of_none (htxOwed.trans hnone)

theorem subStep_owedUntilStepped {p : SubStep} {s t : State} (h : OwedUntilStepped s) (hl : s.loop = .tick p)
    (hrun : runSubStep p s = .next t) : OwedUntilStepped t := by
  cases p with
  | start | rch2 | tch2 =>
    have hnone := h.txOwed_eq_none (by simp [hl])
    exact .of_ids_none hnone (runSubStep_ids (by decide) (by decide) (by decide) hrun)
  | prlRx =>
    have hnone := h.txOwed_eq_none (by simp [hl])
    have hloop := (runPrlRx_keeps _ _ hrun).loop
    exact fun howed => ⟨.inl hloop, runPrlRx_forcesOff (s := { s with loop := .tick .rch1 }) hnone hrun howed⟩
  | rch1 =>
    have hloop := (runRch_keeps _ _ hrun).loop
    exact h.of_ids (runRch_ids hrun :) (.inr (.inl hloop))
  | tch1 =>
    have hloop := (runTch_keeps _ _ hrun).loop
    exact h.of_ids (runTch_ids hrun :) (.inr (.inr hloop))
  | prlTx =>
    cases hrun
    exact .of_none (stepPrlTx_txOwed _)
  | prlHr =>
    have hnone := h.txOwed_eq_none (by simp [hl])
    cases hrun
    exact .of_none ((runPrlHr_txOwed s).trans hnone)

/-! ### Events -/

theorem expireTimer_loop {i : TimerId} {s t : State} (h : expireTimer i s = .next t) : t.loop = s.loop := by
  unfold expireTimer at h
  split at h
  · split at h
    · nomatch h
    · cases h
      rfl
  · nomatch h

theorem wakeLoop_of_tick {s : State} {p : SubStep} (h : s.loop = .tick p) : wakeLoop s = s := by
  unfold wakeLoop
  split
  next hwaiting => nomatch hwaiting.symm.trans h
  next => rfl

/-- Once a tick has begun no event moves the control point: WAKE and T_WAKE_CEILING end only a wait (R250, R258). -/
theorem event_loop_of_tick {i : Instr} {p : SubStep} {s t : State} (hi : isEvent i = true) (hl : s.loop = .tick p)
    (h : exec i s = .next t) : t.loop = s.loop := by
  cases i
  case peSendCtrlMessage | peHardResetComplete | peResetMessageIds | tpTxCompleteOk | tpTxCompleteFail
      | tpHardResetSent =>
    cases next_of_guarded h
    rfl
  case peSendDataMessage | peSendExtendedMessage | tpRx =>
    cases next_of_guarded (next_of_guarded h)
    rfl
  case peExecuteHardReset | peAbort | tpHardResetReceived | tcSetPowerRole | tcSetDataRole | tcSetFrs
      | tcSetCcSinkTx =>
    cases h
    rfl
  case peSetRevision =>
    cases execPeSetRevision_eq_next h
    rfl
  case timerExpireTxResponse | timerExpireSrcCa | timerExpireHrComplete | timerExpireChunkResponse
      | timerExpireChunkRequest => exact expireTimer_loop h
  case timerExpireWakeCeiling =>
    obtain ⟨u, hexpire, rfl⟩ := thenState_eq_next h
    have hloop := expireTimer_loop hexpire
    rw [wakeLoop_of_tick (hloop.trans hl), hloop]
  case wake =>
    simp only [exec, execWake, hl] at h
    nomatch h
  -- a message class is no event
  all_goals nomatch hi

/-- No event writes what is owed or PRL-TX's state. -/
theorem event_owed {i : Instr} {s t : State} (hi : isEvent i = true) (h : exec i s = .next t) :
    t.txOwed = s.txOwed ∧ t.prlTx.state = s.prlTx.state := by
  rcases execEvent_cases hi h with ⟨_, _, -, rfl⟩ | ⟨_, -, rfl⟩ | ⟨_, rfl⟩ <;> exact ⟨rfl, rfl⟩

theorem event_owedUntilStepped {i : Instr} {s t : State} (hi : isEvent i = true) (hs : OwedUntilStepped s)
    (h : exec i s = .next t) : OwedUntilStepped t := by
  obtain ⟨htxOwed, hstate⟩ := event_owed hi h
  intro howed
  obtain ⟨hl, hoff⟩ := hs (htxOwed ▸ howed)
  have hloop : t.loop = s.loop := by
    rcases hl with hl | hl | hl <;> exact event_loop_of_tick hi hl h
  rw [hloop, hstate]
  exact ⟨hl, hoff⟩

theorem step_owedUntilStepped {s t : State} (h : OwedUntilStepped s) (hstep : step s = .next t) :
    OwedUntilStepped t := by
  rcases step_cases hstep with ⟨_, _, rest, _, -, -, hdec, hexec⟩ | ⟨-, -, rfl⟩ | ⟨_, later, hl, -, hsub⟩
  · exact event_owedUntilStepped (s := { s with inputs := rest }) (decodeLoneEvent_isEvent hdec) h hexec
  · exact h
  · exact subStep_owedUntilStepped (s := { s with inputs := later }) h hl hsub

/-- Settles O57, by what a step can be: an event, a stutter of the waiting loop, or a sub-step of the tick. -/
theorem invariantKept : Obligations.InvariantKept := ⟨fun _ _ => step_inv, fun _ _ => step_owedUntilStepped⟩

end Sys2Proof.Machine
end
